-- ==== Sys2Proof/Word.lean ====
section
/-! DEFINITION. The block's word types (spec/00_scope.md R9, R10). -/

namespace Sys2Proof

/-- One byte of a stream, bit 0 the least significant (R9). -/
abbrev Byte := BitVec 8

/-- A 7-bit group of a value (00_scope.md glossary: group, chunk). -/
abbrev Group := BitVec 7

/-- The contents of a 64-bit register: `ARG`, `RESULT` (10_state.md R20). -/
abbrev Word64 := BitVec 64

end Sys2Proof
end

