-- ==== Sys2Proof/Syntax.lean ====
section
/-! DEFINITION. The instruction set: the four operations of spec/00_scope.md R2, one constructor per row of
spec/opcode_table.json. No command word has an operand field (30_encoding.md R69), so none has an argument. -/

namespace Sys2Proof

/-- The operations of the block (R2). -/
inductive Instr where
  /-- `ENC32`: encode `ARG[31:0]` to the attached sink (40_encode.md R84). -/
  | enc32
  /-- `ENC64`: encode `ARG[63:0]` to the attached sink (40_encode.md R85). -/
  | enc64
  /-- `DEC32`: decode a 32-bit value from the attached source into `RESULT` (41_decode.md R108). -/
  | dec32
  /-- `DEC64`: decode a 64-bit value from the attached source into `RESULT` (41_decode.md R109). -/
  | dec64
  deriving DecidableEq, Repr

end Sys2Proof
end

