-- ==== Sys2Proof/WellFormed.lean ====
section
/-! DEFINITION. What the checks accept before anything runs: a command word whose reserved bits are zero
(spec/30_encoding.md R69, R71), and the operations themselves, which carry no operand that could be ill-formed. -/

namespace Sys2Proof

/-- Every operation is well formed: a command has no immediate, register or other operand field (R69). -/
def Instr.wellFormed (_ : Instr) : Bool := true

/-- A command word is legal exactly when its reserved bits `[7:2]` are zero (R69, R71). -/
def commandWordLegal (c : Byte) : Bool := c.extractLsb' 2 6 == 0#6

end Sys2Proof
end

