-- ==== Sys2Proof/Decode.lean ====
section
/-! DEFINITION. The command word (spec/30_encoding.md R69 to R72): the decoder, total on any byte and rejecting by
name, and the encoder, written from the field table of R69 and the word table of R70. -/

namespace Sys2Proof

/-- Why a command word is no operation. -/
inductive DecodeError where
  /-- `CMD[7:2] != 0`: an illegal word (R71). It holds the reserved bits found. -/
  | reservedBits (rsvd : BitVec 6)
  deriving DecidableEq, Repr

/-- Field `w` of a command word: bit 0, the width (R69). -/
def fieldW (c : Byte) : BitVec 1 := c.extractLsb' 0 1

/-- Field `d` of a command word: bit 1, the direction (R69). -/
def fieldD (c : Byte) : BitVec 1 := c.extractLsb' 1 1

/-- The reserved bits `[7:2]` of a command word (R69). -/
def fieldRsvd (c : Byte) : BitVec 6 := c.extractLsb' 2 6

/-- The operation the direction and width bits select (R69, R70): `d` 0 is encode, `w` 0 is 32 bits. -/
def selectOp (d w : BitVec 1) : Instr :=
  if d = 0#1 then (if w = 0#1 then .enc32 else .enc64)
  else (if w = 0#1 then .dec32 else .dec64)

/-- Decode a command word (R69 to R72). A word with a reserved bit set is no operation (R71). -/
def decode (c : Byte) : Except DecodeError Instr :=
  if fieldRsvd c = 0#6 then .ok (selectOp (fieldD c) (fieldW c)) else .error (.reservedBits (fieldRsvd c))

/-- The command word of an operation, by the table of R70. -/
def encode : Instr → Byte
  | .enc32 => 0x00#8
  | .enc64 => 0x01#8
  | .dec32 => 0x02#8
  | .dec64 => 0x03#8

/-- What the decoder reads from a table row's word of `nbits` bits: the missing bits of the 8-bit word are 0, and a
longer word is no command (R72: every command is exactly one 8-bit word). -/
def decodeTableWord (nbits w : Nat) : Option Instr :=
  if nbits ≤ 8 then
    match decode (BitVec.ofNat 8 (w % 2 ^ nbits)) with
    | .ok i => some i
    | .error _ => none
  else none

end Sys2Proof
end

