-- ==== Sys2Proof/Config.lean ====
section
/-! DEFINITION. What is fixed for the machine and the values the spec leaves open (spec/00_scope.md R6, R7;
spec/93_implementation_defined.md). An `opaque` constant has no body: no proof can know a value of it. -/

namespace Sys2Proof

/-- `OVERLONG_POLICY` (R6): what a decode does with input longer than NMAX(W) bytes. -/
inductive OverlongPolicy where
  /-- The NMAX(W)-th byte being a continuation byte completes the decode with MALFORMED_VARINT (R105). -/
  | reject
  /-- The decode goes on, combining by `OVERLONG_COMBINE_W` past the bound (R106). -/
  | pass
  deriving DecidableEq, Repr

/-- The type of `OVERLONG_COMBINE_W`: a total function of ACC, the group and IDX (R7). -/
abbrev OverlongCombine (W : Nat) := BitVec W → Group → Nat → BitVec W

namespace Config

/-- The policy a block has unless the run fixes another: REJECT (R6, D6). -/
def defaultPolicy : OverlongPolicy := .reject

/-- `OVERLONG_COMBINE_32` (R7, R106): nothing is known of it (log 3). -/
opaque overlongCombine32 : OverlongCombine 32

/-- `OVERLONG_COMBINE_64` (R7, R106): nothing is known of it (log 3). -/
opaque overlongCombine64 : OverlongCombine 64

/-- Free value: `V` after a completion (R32, R120), for a block's number and its count of completions. Log 2. -/
opaque freeV : Nat → Nat → BitVec 64

/-- Free value: `ACC` after a completion (R32, R120). Log 2. -/
opaque freeAcc : Nat → Nat → BitVec 64

/-- Free value: `IDX` after a completion (R32, R120). Log 2. -/
opaque freeIdx : Nat → Nat → Nat

/-- Free values: byte `n` of the endless sequence named by `seed`, for an unbounded source (20_memory.md R42). Log 6. -/
opaque endlessByte (seed n : Nat) : Byte

/-- `IDX_BITS` (D21): the width of a hardware index counter. No rule reads it: the model's `IDX` is unbounded (R30). -/
opaque idxBits : Nat

/-- `PLATFORM_MAP` (R48, D25): where a platform places the interface registers and streams. No rule reads it. -/
opaque platformMap : Nat → Nat

end Config

end Sys2Proof
end

