-- ==== Sys2Proof/Machine/State.lean ====
section
/-! DEFINITION. Everything the spec gives the machine, as plain data: the block's registers (spec/10_state.md), the
streams (20_memory.md), the event history (R46), the turns of the agents (R51, 70_reset_and_hazards.md R153), reset (R37)
and the reasons a step can stop (R154). -/

namespace Sys2Proof.Machine

/-- A failure value a byte sink can raise: an opaque parameter type (00_scope.md R7), here an uninterpreted token
(DESIGN CHOICE, log 7). -/
structure SinkFault where
  token : Nat
  deriving DecidableEq, Repr

/-- A failure value a byte source can raise, other than end of stream (R7), an uninterpreted token (log 7). -/
structure SourceFault where
  token : Nat
  deriving DecidableEq, Repr

/-- The contents of `FAULT_INFO` (10_state.md R25). -/
inductive FaultInfo where
  | none
  | sink (f : SinkFault)
  | source (f : SourceFault)
  deriving DecidableEq, Repr

/-- `PHASE` (R28): idle, or running one operation. -/
inductive Phase where
  | idle
  | run (op : Instr)
  deriving DecidableEq, Repr

/-- One block instance: the interface registers of R20, the working registers of R28 to R30, the attached streams
(R36, R37) and the build parameter of R6. -/
structure Block where
  /-- `ARG` (R22). -/
  arg : Word64
  /-- Whether the host has written `ARG` since reset (R37). -/
  argWritten : Bool
  /-- `RESULT` (R23). -/
  result : Word64
  /-- Whether a decode has written `RESULT` since reset (R23, R37). -/
  resultWritten : Bool
  /-- `STATUS` (R24). -/
  status : BitVec 8
  /-- `FAULT_INFO` (R25). -/
  faultInfo : FaultInfo
  /-- `BUSY` (R26). -/
  busy : Bool
  /-- `PHASE` (R28). -/
  phase : Phase
  /-- `V` (R29): its W bits, zero-extended (DESIGN CHOICE, log 4). -/
  v : BitVec 64
  /-- `ACC` (R30): its W bits, zero-extended (log 4). -/
  acc : BitVec 64
  /-- `IDX` (R30), unbounded. -/
  idx : Nat
  /-- The number of the attached sink (R40, R52). -/
  sink : Option Nat
  /-- The number of the attached source (R40, R52). -/
  source : Option Nat
  /-- `OVERLONG_POLICY` (R6, R142). -/
  policy : OverlongPolicy
  /-- Whether the first issue of the run has been taken, after which the policy may not change (R142, R153). -/
  started : Bool
  /-- The model's own: how many completions have drawn free values (log 2). -/
  draws : Nat
  deriving DecidableEq, Repr

/-- What a sink does with the next `SinkAppend` (20_memory.md R41, R57). -/
inductive SinkAnswer where
  /-- It has not answered yet: the access is held (R57). -/
  | wait
  /-- It appends the byte (R41). -/
  | ok
  /-- It raises `f`; what this leaves in it is its own affair: unchanged, or the bytes and position given (R41, R87). -/
  | fail (f : SinkFault) (left : Option (List Byte × Nat))
  deriving DecidableEq, Repr

/-- A byte sink (R40, R41). The spec does not say how `sink.pos` stands to `sink.bytes`; the two are kept apart, and no
step reads `pos` (DESIGN CHOICE, log 20). -/
structure Sink where
  /-- `sink.bytes` (R41). -/
  bytes : List Byte
  /-- `sink.pos` (00_scope.md R12): a successful append adds 1. -/
  pos : Nat
  /-- The source this sink is connected to, if any (R56). -/
  feeds : Option Nat
  /-- The answers to the next appends, in order. -/
  answers : List SinkAnswer
  /-- The answer to every append after those. -/
  thereafter : SinkAnswer
  deriving DecidableEq, Repr

/-- What a source does with the next `SourceRead` (R42, R57). -/
inductive SourceAnswer where
  /-- It has not answered yet: the access is held (R57). -/
  | wait
  /-- It gives its next byte, or `eos` when it has none (R42). -/
  | serve
  /-- It raises `f`; what this leaves in it is its own affair: unchanged, or the rest and position given (R124). -/
  | fail (f : SourceFault) (left : Option (List Byte × Nat))
  deriving DecidableEq, Repr

/-- What a source holds beyond the bytes it lists (R42, log 6). -/
inductive Beyond where
  /-- Nothing: the source is finite. -/
  | nothing
  /-- The bytes `first :: more`, over and over. -/
  | cycle (first : Byte) (more : List Byte)
  /-- A sequence of which nothing is known, repeating or not: the byte at position `n` is `Config.endlessByte seed n`. -/
  | endless (seed : Nat)
  deriving DecidableEq, Repr

/-- A byte source (R40, R42). -/
structure Source where
  /-- `source.rest`, as far as it is listed. -/
  rest : List Byte
  /-- The part of `source.rest` after `rest`, unbounded or nothing (R42). -/
  beyond : Beyond
  /-- `source.pos` (00_scope.md R12): a byte read adds 1, and `eos` adds nothing (log 20). -/
  pos : Nat
  /-- The answers to the next reads, in order. -/
  answers : List SourceAnswer
  /-- The answer to every read after those. -/
  thereafter : SourceAnswer
  deriving DecidableEq, Repr

/-- One stream access, as the event history records it (R46): its kind with its byte or failure. -/
inductive Access where
  | append (b : Byte)
  | appendFailed (b : Byte) (f : SinkFault)
  | read (b : Byte)
  | readEos
  | readFailed (f : SourceFault)
  deriving DecidableEq, Repr

/-- One event of the run's history (R46). -/
structure Event where
  block : Nat
  access : Access
  deriving DecidableEq, Repr

/-- The registers the host can read (R20). `CMD` is write only, and `PHASE`, `V`, `ACC`, `IDX` cannot be read (R32). -/
inductive HostReg where
  | arg
  | result
  | status
  | faultInfo
  | busy
  deriving DecidableEq, Repr

/-- What a register read returns to the host (70_reset_and_hazards.md R153). -/
inductive HostValue where
  | arg (x : Word64)
  | result (x : Word64)
  | status (x : BitVec 8)
  | faultInfo (x : FaultInfo)
  | busy (x : Bool)
  deriving DecidableEq, Repr

/-- The interactions of R153, one constructor per row of its table (attach and detach name the stream's kind). -/
inductive HostAction where
  | writeArg (x : Word64)
  | issue (c : Byte)
  | read (r : HostReg)
  | attachSink (id : Nat)
  | attachSource (id : Nat)
  | detachSink
  | detachSource
  | fixPolicy (p : OverlongPolicy)
  | reset
  deriving DecidableEq, Repr

/-- Whose move it is (R51, log 15): a block's engine, or the host acting on a block. -/
inductive Turn where
  | engine (block : Nat)
  | host (block : Nat) (act : HostAction)
  deriving DecidableEq, Repr

/-- The machine: the block in focus, the other instances (60_exceptions.md R133), the streams, the turns to come. -/
structure State where
  /-- The number of the block in focus. -/
  cur : Nat
  /-- The block in focus. -/
  blk : Block
  /-- The other instances, each under its number (R7, R133). -/
  others : List (Nat × Block)
  /-- The byte sinks, numbered from 0. -/
  sinks : List Sink
  /-- The byte sources, numbered from 0. -/
  sources : List Source
  /-- The turns still to be taken. -/
  turns : List Turn
  /-- The event history, oldest first (R46, log 17). -/
  history : List Event
  /-- The model's own: what the last register read returned (R153, log 16). -/
  hostGot : Option HostValue
  deriving DecidableEq, Repr

/-- Why the machine stops with a fault: the two model faults of R154, and no other. -/
inductive Fault where
  /-- An encode was accepted while `ARG` is unwritten (R37, R153). Raised by `acceptEncode`. Safe: it stops. -/
  | argUnwritten
  /-- The host read an unwritten `RESULT` (R23, R37, R145). Raised by `hostRead`. Safe: it stops. -/
  | resultUnwritten
  deriving DecidableEq, Repr

/-- Why the machine refuses to go on: no meaning for the run (R154). Every refusal is safe: it stops. -/
inductive Refusal where
  /-- Raised by `exec` for an instruction that has no meaning yet. -/
  | notModelled (mnemonic : String)
  /-- A stream, or a connected pair of streams (log 19), would be used by two operations in progress (R52, R147). Raised
  by acceptance and attachment. -/
  | streamShared
  /-- The stream of an operation in progress would be replaced (R147). Raised by attachment. -/
  | streamSwapped
  /-- The stream of an operation in progress would be detached (R147). Raised by detachment. -/
  | streamDetached
  /-- The policy would change after the first issue (R142, R153). Raised by `hostFixPolicy`. -/
  | policyChanged
  /-- A turn names a block the system does not have. The model's own (log 9). Raised by `takeTurn`. -/
  | noSuchBlock
  /-- An attachment names a stream that does not exist. The model's own (log 9). Raised by attachment. -/
  | noSuchStream
  /-- An assembler value is outside its range (30_encoding.md R73). Raised by the assembler. -/
  | valueOutOfRange
  /-- A text is outside the grammar of R73 or breaks a directive's rule of R74. Raised by the assembler. -/
  | badProgram
  deriving DecidableEq, Repr

/-- A block after reset (R37), its policy, its run's start and its count of draws kept (log 8). The registers the
spec gives no reset value, `ARG`, `RESULT`, `V`, `ACC` and `IDX`, are 0 (DESIGN CHOICE, log 1). -/
def Block.afterReset (b : Block) : Block where
  arg := 0
  argWritten := false
  result := 0
  resultWritten := false
  status := 0x00#8
  faultInfo := .none
  busy := false
  phase := .idle
  v := 0
  acc := 0
  idx := 0
  sink := none
  source := none
  policy := b.policy
  started := b.started
  draws := b.draws

/-- A block at the start of a run: after reset, its policy the default (R6) and no issue taken yet. -/
def Block.fresh : Block where
  arg := 0
  argWritten := false
  result := 0
  resultWritten := false
  status := 0x00#8
  faultInfo := .none
  busy := false
  phase := .idle
  v := 0
  acc := 0
  idx := 0
  sink := none
  source := none
  policy := Config.defaultPolicy
  started := false
  draws := 0

/-- The machine right after reset (R37, R140): one block (log 9), idle, nothing attached, no stream supplied and
nothing for the agents to do yet. -/
def State.reset : State where
  cur := 0
  blk := Block.fresh
  others := []
  sinks := []
  sources := []
  turns := []
  history := []
  hostGot := none

end Sys2Proof.Machine
end

