-- ==== Sys2Proof/Machine/Flags.lean ====
section
/-! DEFINITION. What a completion records (spec/60_exceptions.md R120, R121; 10_state.md R24, R25): the block has no
flags but `BUSY` and the `STATUS` code (R33). -/

namespace Sys2Proof.Machine

/-- The ways an operation can end (R121), each with the failure value it passes on. -/
inductive Completion where
  | ok
  | sinkFault (f : SinkFault)
  | sourceExhausted
  | sourceFault (f : SourceFault)
  | malformedVarint
  | illegalCommand
  deriving DecidableEq, Repr

/-- The code `STATUS` receives (R121). -/
def statusCode : Completion → BitVec 8
  | .ok => 0x00#8
  | .sinkFault _ => 0x01#8
  | .sourceExhausted => 0x02#8
  | .sourceFault _ => 0x03#8
  | .malformedVarint => 0x04#8
  | .illegalCommand => 0x05#8

/-- What `FAULT_INFO` receives: the failure value unchanged, `none` at every other completion (R25, R121). -/
def completionInfo : Completion → FaultInfo
  | .ok => .none
  | .sinkFault f => .sink f
  | .sourceExhausted => .none
  | .sourceFault f => .source f
  | .malformedVarint => .none
  | .illegalCommand => .none

end Sys2Proof.Machine
end

