-- ==== Sys2Proof/Machine/Operands.lean ====
section
/-! DEFINITION. The operand forms: the width an operation fixes (spec/00_scope.md R4, R5), the bytes of the wire and the
groups they carry (30_encoding.md R60 to R62), the operand of an encode (10_state.md R22), and the combine of a decode
(41_decode.md R102 to R106). -/

namespace Sys2Proof.Machine

/-- Whether the operation is an encode: bit `d` of its word is 0 (30_encoding.md R69). -/
def isEncode : Instr → Bool
  | .enc32 => true
  | .enc64 => true
  | .dec32 => false
  | .dec64 => false

/-- The operation's width `W`, fixed by the operation (R4). -/
def width : Instr → Nat
  | .enc32 => 32
  | .enc64 => 64
  | .dec32 => 32
  | .dec64 => 64

/-- `NMAX(W) = ceil(W / 7)`, the most bytes an encoding of a W-bit value has (R5): 5 for 32, 10 for 64. -/
def nmax (W : Nat) : Nat := (W + 6) / 7

/-- The terminal byte of a group: bit 7 is 0, the group stored plainly (R60). -/
def term (g : Group) : Byte := g.setWidth 8

/-- The continuation byte of a group: `0xFF xor zext_8(g)` (R61). -/
def cont (g : Group) : Byte := 0xFF#8 ^^^ g.setWidth 8

/-- Whether a byte is terminal: its top bit is 0 (R62; the source's `next >= 0`, R13). -/
def isTerminal (b : Byte) : Bool := !b.getLsbD 7

/-- The group a byte carries (R62): a terminal byte's as it is, a continuation byte's complemented back. -/
def groupOf (b : Byte) : Group := if isTerminal b then b.setWidth 7 else (b ^^^ 0xFF#8).setWidth 7

/-- The operand of an encode of width W: `ARG[W-1:0]` (R22, R80). -/
def operand (W : Nat) (arg : Word64) : BitVec W := arg.setWidth W

/-- The step of a decode's value (R102, R103): the in-range combine of R104, whose shift drops the bits at W and
above, and past the bound the opaque `OVERLONG_COMBINE_W` (R106), here `oc`. -/
def combine (W : Nat) (oc : OverlongCombine W) (acc : BitVec W) (g : Group) (idx : Nat) : BitVec W :=
  if idx < nmax W then acc ||| (g.setWidth W <<< (7 * idx)) else oc acc g idx

end Sys2Proof.Machine
end

