-- ==== Sys2Proof/Machine/Ops.lean ====
section
/-! DEFINITION. The shared operations: stream accesses (spec/00_scope.md R12, 20_memory.md R41, R42, R46), acceptance
(40_encode.md R80, 41_decode.md R100), completion (60_exceptions.md R120, R126) and reset (70_reset_and_hazards.md R140,
R141). Completion is this block's taking of an exception (R129); there is no return (R130). -/

namespace Sys2Proof.Machine

/-! ### Updates of the state -/

/-- Change the block in focus. -/
def State.onBlk (f : Block → Block) (s : State) : State := { s with blk := f s.blk }

/-- Put sink `k` at number `id`. -/
def State.putSink (id : Nat) (k : Sink) (s : State) : State := { s with sinks := s.sinks.set id k }

/-- Put source `q` at number `id`. -/
def State.putSource (id : Nat) (q : Source) (s : State) : State := { s with sources := s.sources.set id q }

/-- Record an access of the block in focus in the event history (R46). -/
def State.record (a : Access) (s : State) : State := { s with history := s.history ++ [⟨s.cur, a⟩] }

/-! ### The byte sink -/

/-- The sink's answer to the append it is asked for, and the sink with that answer used up (R41, R57). -/
def Sink.reply (k : Sink) : SinkAnswer × Sink :=
  match k.answers with
  | [] => (k.thereafter, k)
  | a :: rest => (a, { k with answers := rest })

/-- The sink after a successful append of `b`: the byte at the end of `sink.bytes` (R41), `sink.pos` one further (R12). -/
def Sink.push (b : Byte) (k : Sink) : Sink := { k with bytes := k.bytes ++ [b], pos := k.pos + 1 }

/-- The sink after a failed append: as it was, or as the sink itself defines (R41). -/
def Sink.afterFail (left : Option (List Byte × Nat)) (k : Sink) : Sink :=
  match left with
  | none => k
  | some (bytes, pos) => { k with bytes := bytes, pos := pos }

/-- What `SinkAppend` returns (R12), `held` while the sink has not answered (R57). -/
inductive AppendReply where
  | held
  | ok
  | fail (f : SinkFault)
  deriving DecidableEq, Repr

/-- The byte a connected source gains when the sink takes byte `b` (R56), in the same transition (log 19). -/
def feed (target : Option Nat) (b : Byte) (s : State) : State :=
  match target with
  | none => s
  | some j =>
    match s.sources[j]? with
    | none => s
    | some q => s.putSource j { q with rest := q.rest ++ [b] }

/-- `SinkAppend(b)` (R12, R41, R46): with no sink to answer, or none answering yet, the access is held. -/
def sinkAppend (b : Byte) (s : State) : AppendReply × State :=
  match s.blk.sink with
  | none => (.held, s)
  | some id =>
    match s.sinks[id]? with
    | none => (.held, s)
    | some k =>
      match k.reply with
      | (.wait, k') => (.held, s.putSink id k')
      | (.ok, k') => (.ok, (feed k.feeds b (s.putSink id (k'.push b))).record (.append b))
      | (.fail f left, k') => (.fail f, (s.putSink id (k'.afterFail left)).record (.appendFailed b f))

/-! ### The byte source -/

/-- The source's answer to the read it is asked for, and the source with that answer used up (R42, R57). -/
def Source.reply (q : Source) : SourceAnswer × Source :=
  match q.answers with
  | [] => (q.thereafter, q)
  | a :: rest => (a, { q with answers := rest })

/-- The source's next byte and the source without it; `none` when `source.rest` is empty (R42). -/
def Source.take (q : Source) : Option (Byte × Source) :=
  match q.rest with
  | b :: t => some (b, { q with rest := t, pos := q.pos + 1 })
  | [] =>
    match q.beyond with
    | .nothing => none
    | .cycle b t => some (b, { q with rest := t, pos := q.pos + 1 })
    | .endless seed => some (Config.endlessByte seed q.pos, { q with pos := q.pos + 1 })

/-- The source after a failed read: as it was, or as the source itself defines (R124). -/
def Source.afterFail (left : Option (List Byte × Nat)) (q : Source) : Source :=
  match left with
  | none => q
  | some (rest, pos) => { q with rest := rest, pos := pos }

/-- What `SourceRead` returns (R12), `held` while the source has not answered (R57). -/
inductive ReadReply where
  | held
  | byte (b : Byte)
  | eos
  | fail (f : SourceFault)
  deriving DecidableEq, Repr

/-- `SourceRead()` (R12, R42, R46): with no source to answer, or none answering yet, the access is held. -/
def sourceRead (s : State) : ReadReply × State :=
  match s.blk.source with
  | none => (.held, s)
  | some id =>
    match s.sources[id]? with
    | none => (.held, s)
    | some q =>
      match q.reply with
      | (.wait, q') => (.held, s.putSource id q')
      | (.fail f left, q') => (.fail f, (s.putSource id (q'.afterFail left)).record (.readFailed f))
      | (.serve, q') =>
        match q'.take with
        | some (b, q'') => (.byte b, (s.putSource id q'').record (.read b))
        | none => (.eos, (s.putSource id q').record .readEos)

/-! ### Completion -/

/-- `complete(s, info)` on the block's registers (R120): one transition, after which `V`, `ACC` and `IDX` are
unspecified, so free values (R32, log 2). `RESULT` is not written here (R23). `me` is the block's number. -/
def Block.completed (c : Completion) (me : Nat) (b : Block) : Block :=
  { b with
    status := statusCode c
    faultInfo := completionInfo c
    phase := .idle
    busy := false
    v := Config.freeV me b.draws
    acc := Config.freeAcc me b.draws
    idx := Config.freeIdx me b.draws
    draws := b.draws + 1 }

/-- `complete(s, info)` and `raise X(info)` (R120). -/
def complete (c : Completion) (s : State) : State := s.onBlk (Block.completed c s.cur)

/-- A decode's `complete(OK)` with its `RESULT <- r` in the same transition (R26, R102). -/
def completeDecode (r : Word64) (s : State) : State :=
  s.onBlk fun b => { b.completed .ok s.cur with result := r, resultWritten := true }

/-- The issue of an illegal word, completed at once (R71, R126): only `STATUS` and `FAULT_INFO` are written. -/
def illegalCommand (s : State) : State :=
  s.onBlk fun b => { b with status := statusCode .illegalCommand, faultInfo := completionInfo .illegalCommand }

/-! ### Acceptance -/

/-- The sink an operation in progress on this block uses (R52). -/
def Block.sinkInUse (b : Block) : Option Nat :=
  match b.phase with
  | .run op => if isEncode op then b.sink else none
  | .idle => none

/-- The source that sink `id` is connected to (R56). -/
def fedBy (sinks : List Sink) (id : Nat) : Option Nat := (sinks[id]?).bind Sink.feeds

/-- The source an operation in progress on this block uses (R52): a decode's its own, an encode's the one its sink is
connected to, since a connected pair counts as one stream (DEDUCED, log 19). -/
def Block.sourceInUse (sinks : List Sink) (b : Block) : Option Nat :=
  match b.phase with
  | .run op => if isEncode op then b.sink.bind (fedBy sinks) else b.source
  | .idle => none

/-- Whether an operation in progress on another block uses source `id` (R52): a decode from it, or an encode on a sink
connected to it (log 19). -/
def sourceUsedElsewhere (id : Nat) (s : State) : Bool := s.others.any fun p => p.2.sourceInUse s.sinks == some id

/-- Whether an operation in progress on another block uses sink `id` (R52), or the source that sink is connected to
(log 19). -/
def sinkUsedElsewhere (id : Nat) (s : State) : Bool :=
  (s.others.any fun p => p.2.sinkInUse == some id) ||
    match fedBy s.sinks id with
    | none => false
    | some j => sourceUsedElsewhere j s

/-- Whether an encode launched now would share its sink (R52, R147). -/
def sharesSink (s : State) : Bool :=
  match s.blk.sink with
  | none => false
  | some id => sinkUsedElsewhere id s

/-- Whether a decode launched now would share its source (R52, R147). -/
def sharesSource (s : State) : Bool :=
  match s.blk.source with
  | none => false
  | some id => sourceUsedElsewhere id s

/-- The registers an accepted encode writes (R80). -/
def Block.encodeAccepted (W : Nat) (op : Instr) (b : Block) : Block :=
  { b with v := (operand W b.arg).setWidth 64, phase := .run op, busy := true }

/-- The registers an accepted decode writes (R100). -/
def Block.decodeAccepted (op : Instr) (b : Block) : Block :=
  { b with acc := 0, idx := 0, phase := .run op, busy := true }

/-- Accepting an encode (R80). A shared stream is a launch without a meaning (R52), tested first (log 14); an unwritten
`ARG` is a model fault (R37, R154). -/
def acceptEncode (W : Nat) (op : Instr) (s : State) : Host.Outcome State Fault Refusal :=
  if sharesSink s then .refused .streamShared
  else if s.blk.argWritten then .next (s.onBlk (Block.encodeAccepted W op))
  else .fault .argUnwritten

/-- Accepting a decode (R100), which does not read `ARG`. -/
def acceptDecode (op : Instr) (s : State) : Host.Outcome State Fault Refusal :=
  if sharesSource s then .refused .streamShared
  else .next (s.onBlk (Block.decodeAccepted op))

/-! ### Reset -/

/-- Reset of the block in focus (R140, R141): its registers take the values of R37 and its streams are detached. No
access is performed or undone, and the streams keep what they hold. -/
def resetBlock (s : State) : State := s.onBlk Block.afterReset

end Sys2Proof.Machine
end

