-- ==== Sys2Proof/Machine/DecodeFamily.lean ====
section
/-! DEFINITION. The decode family, DEC32 and DEC64 (spec/41_decode.md R100 to R109): the W-generic steps and one meaning for
each operation. A meaning is the operation's next transition (log 5). -/

namespace Sys2Proof.Machine

/-- `ACC` as a W-bit value (R30). -/
def Block.accAt (W : Nat) (b : Block) : BitVec W := b.acc.setWidth W

/-- The terminal step (R102): the last group is combined, the value zero-extended into `RESULT`, the decode complete. -/
def terminalStep (W : Nat) (oc : OverlongCombine W) (b : Byte) (s : State) : State :=
  completeDecode ((combine W oc (s.blk.accAt W) (groupOf b) s.blk.idx).setWidth 64) s

/-- Whether the byte just read is the NMAX(W)-th, under REJECT (R105). -/
def atBound (W : Nat) (b : Block) : Bool := b.policy == .reject && b.idx == nmax W - 1

/-- The registers a continuation step that goes on writes (R103). -/
def Block.combined (W : Nat) (acc : BitVec W) (b : Block) : Block :=
  { b with acc := acc.setWidth 64, idx := b.idx + 1 }

/-- The continuation step (R103): MALFORMED_VARINT at the bound (R105, R125), else the group is combined and `IDX`
grows by 1. -/
def continuationStep (W : Nat) (oc : OverlongCombine W) (b : Byte) (s : State) : State :=
  if atBound W s.blk then complete .malformedVarint s
  else s.onBlk (Block.combined W (combine W oc (s.blk.accAt W) (groupOf b) s.blk.idx))

/-- The step of a decode in progress (R101): one read, then by its answer a completion (R123, R124) or the terminal or
continuation step. -/
def decodeStep (W : Nat) (oc : OverlongCombine W) (s : State) : Host.Outcome State Fault Refusal :=
  match sourceRead s with
  | (.held, s') => .next s'
  | (.eos, s') => .next (complete .sourceExhausted s')
  | (.fail f, s') => .next (complete (.sourceFault f) s')
  | (.byte b, s') => .next (if isTerminal b then terminalStep W oc b s' else continuationStep W oc b s')

/-- The next transition of decode `op` of width W: its acceptance on an idle block (R100), its next step when it is
the operation in progress (R101), and no move while the block is busy otherwise (70_reset_and_hazards.md R143). -/
def decodeOp (W : Nat) (oc : OverlongCombine W) (op : Instr) (s : State) : Host.Outcome State Fault Refusal :=
  match s.blk.phase with
  | .idle => if s.blk.busy then .next s else acceptDecode op s
  | .run running => if running = op then decodeStep W oc s else .next s

/-- DEC32 (R108). -/
def execDec32 (s : State) : Host.Outcome State Fault Refusal := decodeOp 32 Config.overlongCombine32 .dec32 s

/-- DEC64 (R109). -/
def execDec64 (s : State) : Host.Outcome State Fault Refusal := decodeOp 64 Config.overlongCombine64 .dec64 s

end Sys2Proof.Machine
end

