-- ==== Sys2Proof/Machine/EncodeFamily.lean ====
section
/-! DEFINITION. The encode family, ENC32 and ENC64 (spec/40_encode.md R80 to R85): the W-generic steps and one meaning for
each operation. A meaning is the operation's next transition (log 5). -/

namespace Sys2Proof.Machine

/-- One append and what follows it (R81, R82): held, SINK_FAULT (R122), or on `ok` the state `onOk` gives. -/
def appendStep (b : Byte) (onOk : State → State) (s : State) : Host.Outcome State Fault Refusal :=
  match sinkAppend b s with
  | (.held, s') => .next s'
  | (.fail f, s') => .next (complete (.sinkFault f) s')
  | (.ok, s') => .next (onOk s')

/-- `V <- x` (R82). -/
def Block.loadV (W : Nat) (x : BitVec W) (b : Block) : Block := { b with v := x.setWidth 64 }

/-- The step of an encode in progress: the zero step (R81), or an iteration, whose byte is terminal when nothing is
left of the value and a continuation byte otherwise (R82). -/
def encodeStep (W : Nat) (s : State) : Host.Outcome State Fault Refusal :=
  let v : BitVec W := s.blk.v.setWidth W
  if v = 0 then appendStep 0x00#8 (complete .ok) s
  else
    let rem : Group := v.setWidth 7
    let v' : BitVec W := v >>> 7
    if v' = 0 then appendStep (term rem) (complete .ok) s
    else appendStep (cont rem) (State.onBlk (Block.loadV W v')) s

/-- The next transition of encode `op` of width W: its acceptance on an idle block (R80), its next step when it is the
operation in progress (R81, R82), and no move while the block is busy otherwise (70_reset_and_hazards.md R143). -/
def encodeOp (W : Nat) (op : Instr) (s : State) : Host.Outcome State Fault Refusal :=
  match s.blk.phase with
  | .idle => if s.blk.busy then .next s else acceptEncode W op s
  | .run running => if running = op then encodeStep W s else .next s

/-- ENC32 (R84). -/
def execEnc32 (s : State) : Host.Outcome State Fault Refusal := encodeOp 32 .enc32 s

/-- ENC64 (R85). -/
def execEnc64 (s : State) : Host.Outcome State Fault Refusal := encodeOp 64 .enc64 s

end Sys2Proof.Machine
end

