-- ==== Sys2Proof/Machine/Dispatch.lean ====
section
/-! DEFINITION. The next transition of an operation: one arm per row of spec/opcode_table.json. -/

namespace Sys2Proof.Machine

def exec (i : Instr) (s : State) : Host.Outcome State Fault Refusal :=
  match i with
  -- 40_encode.md R84, R85
  | .enc32 => Sys2Proof.Machine.execEnc32 s
  | .enc64 => Sys2Proof.Machine.execEnc64 s
  -- 41_decode.md R108, R109
  | .dec32 => Sys2Proof.Machine.execDec32 s
  | .dec64 => Sys2Proof.Machine.execDec64 s

end Sys2Proof.Machine
end

