-- ==== Sys2Proof/Machine/Turns.lean ====
section
/-! DEFINITION. Whose move it is and what each agent's move does: the engine's step, the issue handshake
(spec/70_reset_and_hazards.md R143), the host's interactions (R153) and the interleaving of the blocks
(20_memory.md R51, R52). -/

namespace Sys2Proof.Machine

/-! ### The engine -/

/-- The engine of the block in focus: `PHASE` selects the step rule (10_state.md R28), and an idle block waits for an
issue (70_reset_and_hazards.md R140). -/
def engineStep (s : State) : Host.Outcome State Fault Refusal :=
  match s.blk.phase with
  | .idle => .next s
  | .run op => exec op s

/-! ### The host -/

/-- An enabled issue of word `c` (R143), which is the run's first or a later one: an illegal word completes at once
(60_exceptions.md R126), any other is accepted. -/
def issue (c : Byte) (s : State) : Host.Outcome State Fault Refusal :=
  match decode c with
  | .ok op => exec op (s.onBlk fun b => { b with started := true })
  | .error _ => .next (illegalCommand (s.onBlk fun b => { b with started := true }))

/-- `ARG <- x` (10_state.md R22), allowed at any time (R146). -/
def hostWriteArg (x : Word64) (s : State) : Host.Outcome State Fault Refusal :=
  .next (s.onBlk fun b => { b with arg := x, argWritten := true })

/-- Give the host a value it read; a read has no other effect (R153). -/
def State.give (x : HostValue) (s : State) : State := { s with hostGot := some x }

/-- A register read (R153). A read of an unwritten `RESULT` is a model fault (10_state.md R23, R145). -/
def hostRead (r : HostReg) (s : State) : Host.Outcome State Fault Refusal :=
  match r with
  | .arg => .next (s.give (.arg s.blk.arg))
  | .result => if s.blk.resultWritten then .next (s.give (.result s.blk.result)) else .fault .resultUnwritten
  | .status => .next (s.give (.status s.blk.status))
  | .faultInfo => .next (s.give (.faultInfo s.blk.faultInfo))
  | .busy => .next (s.give (.busy s.blk.busy))

/-- Whether the operation in progress is an encode, so that the attached sink is in use (R147). -/
def encoding (b : Block) : Bool :=
  match b.phase with
  | .run op => isEncode op
  | .idle => false

/-- Whether the operation in progress is a decode, so that the attached source is in use (R147). -/
def decoding (b : Block) : Bool :=
  match b.phase with
  | .run op => !isEncode op
  | .idle => false

/-- Attach sink `id`: not in the middle of an encode (R147), and not while another block's operation uses it or the
source it is connected to (R52, log 19). The order of the tests is log 14's. -/
def hostAttachSink (id : Nat) (s : State) : Host.Outcome State Fault Refusal :=
  if s.sinks.length ≤ id then .refused .noSuchStream
  else if encoding s.blk then .refused .streamSwapped
  else if sinkUsedElsewhere id s then .refused .streamShared
  else .next (s.onBlk fun b => { b with sink := some id })

/-- Attach source `id`: not in the middle of a decode (R147), and not while another block's operation uses it, through
a connected sink or itself (R52, log 19). The order of the tests is log 14's. -/
def hostAttachSource (id : Nat) (s : State) : Host.Outcome State Fault Refusal :=
  if s.sources.length ≤ id then .refused .noSuchStream
  else if decoding s.blk then .refused .streamSwapped
  else if sourceUsedElsewhere id s then .refused .streamShared
  else .next (s.onBlk fun b => { b with source := some id })

/-- Detach the sink: not in the middle of an encode (R147). -/
def hostDetachSink (s : State) : Host.Outcome State Fault Refusal :=
  if encoding s.blk then .refused .streamDetached else .next (s.onBlk fun b => { b with sink := none })

/-- Detach the source: not in the middle of a decode (R147). -/
def hostDetachSource (s : State) : Host.Outcome State Fault Refusal :=
  if decoding s.blk then .refused .streamDetached else .next (s.onBlk fun b => { b with source := none })

/-- Fix `OVERLONG_POLICY`: before the first issue only (R142, R153). -/
def hostFixPolicy (p : OverlongPolicy) (s : State) : Host.Outcome State Fault Refusal :=
  if s.blk.started then .refused .policyChanged else .next (s.onBlk fun b => { b with policy := p })

/-- The host's interactions, row by row of R153's table. -/
def hostAct (a : HostAction) (s : State) : Host.Outcome State Fault Refusal :=
  match a with
  | .writeArg x => hostWriteArg x s
  | .issue c => issue c s
  | .read r => hostRead r s
  | .attachSink id => hostAttachSink id s
  | .attachSource id => hostAttachSource id s
  | .detachSink => hostDetachSink s
  | .detachSource => hostDetachSource s
  | .fixPolicy p => hostFixPolicy p s
  | .reset => .next (resetBlock s)

/-- Whether an action waits while the block is busy: only an issue does (R143); it is a hold on the host. -/
def waitsForIdle : HostAction → Bool
  | .writeArg _ => false
  | .issue _ => true
  | .read _ => false
  | .attachSink _ => false
  | .attachSource _ => false
  | .detachSink => false
  | .detachSource => false
  | .fixPolicy _ => false
  | .reset => false

/-! ### The turns -/

/-- Take the block numbered `k` out of a list and put `out` in its place. -/
def swapOut (k : Nat) (out : Nat × Block) : List (Nat × Block) → Option (Block × List (Nat × Block))
  | [] => none
  | (j, b) :: rest =>
    if j = k then some (b, out :: rest)
    else
      match swapOut k out rest with
      | none => none
      | some (b', rest') => some (b', (j, b) :: rest')

/-- Bring block `k` into focus; `none` when the system has no such block (60_exceptions.md R133). -/
def focus (k : Nat) (s : State) : Option State :=
  if k = s.cur then some s
  else
    match swapOut k (s.cur, s.blk) s.others with
    | none => none
    | some (b, others) => some { s with cur := k, blk := b, others := others }

/-- The turn `t` is over. -/
def State.popTurn (s : State) : State := { s with turns := s.turns.tail }

/-- Take the next turn. An engine turn moves that block's engine. A host turn acts on that block, but for an issue to a
busy block: that turn stays, and the engine moves instead (R143). With no turn left the engine in focus moves
(log 15). -/
def takeTurn (s : State) : Host.Outcome State Fault Refusal :=
  match s.turns with
  | [] => engineStep s
  | .engine k :: _ =>
    match focus k s with
    | none => .refused .noSuchBlock
    | some s' => engineStep s'.popTurn
  | .host k a :: _ =>
    match focus k s with
    | none => .refused .noSuchBlock
    | some s' => if waitsForIdle a && s'.blk.busy then engineStep s' else hostAct a s'.popTurn

/-! ### Several instances -/

/-- The start of a run with `extra` instances beside block 0, all idle (60_exceptions.md R133). -/
def State.resetWith (extra : Nat) : State :=
  { State.reset with others := (List.range extra).map fun k => (k + 1, Block.fresh) }

/-! ### Placing an instruction -/

/-- Whether a word is an encode's, whose acceptance reads `ARG`. -/
def readsArg (c : Byte) : Bool :=
  match decode c with
  | .ok op => isEncode op
  | .error _ => false

/-- The block made ready for the issue of `c` (R142): idle, and with `ARG` counted as written by the host if `c`
reads it. -/
def Block.readyFor (c : Byte) (b : Block) : Block :=
  { b with busy := false, phase := .idle, argWritten := b.argWritten || readsArg c }

/-- The issue of `c` to the block in focus, put before every other turn (log 12). -/
def placeIssue (c : Byte) (s : State) : State :=
  { s with blk := s.blk.readyFor c, turns := .host s.cur (.issue c) :: s.turns }

end Sys2Proof.Machine
end

