-- ==== Sys2Proof/Machine/Step.lean ====
section
/-! DEFINITION. One step of the machine, and the placing of an instruction where the next step takes it. -/

namespace Sys2Proof.Machine

/-- One step: the next turn (spec/20_memory.md R51; 92_eei_decisions.md D1). -/
def step (s : State) : Host.Outcome State Fault Refusal := takeTurn s

/-- `s` with the command word `w` of `nbits` bits as the host's very next issue. The block fetches nothing (R55): its
program is the host's sequence of issues, and this stands for the host's next one with what R142 asks of it. Of a word
longer than 8 bits only the low 8 are issued, where `decodeTableWord` knows no such command (DESIGN CHOICE, log 12). -/
def State.withFetchWord (s : State) (nbits w : Nat) : State := placeIssue (BitVec.ofNat 8 (w % 2 ^ nbits)) s

end Sys2Proof.Machine
end

