-- ==== Sys2Proof/Machine/Assembler.lean ====
section
/-! DEFINITION. The assembly syntax (spec/30_encoding.md R73) and the harness directives (R74): from a text to the run it
sets up. White space between words is spaces or tabs, keywords are read letter for letter, and hex digits may be of
either case (DESIGN CHOICE, log 13). -/

namespace Sys2Proof.Machine

/-! ### The abstract syntax -/

/-- A `value` of the grammar. -/
inductive AsmValue where
  | decimal (n : Nat)
  | hex (n : Nat)
  | negative (n : Nat)
  deriving DecidableEq, Repr

/-- A `command` of the grammar. -/
inductive AsmCommand where
  | enc32 (x : AsmValue)
  | enc64 (x : AsmValue)
  | dec32
  | dec64
  | cmd (c : Byte)
  deriving DecidableEq, Repr

/-- A `directive` of the grammar. A failure's name is read as a token (log 7). -/
inductive AsmDirective where
  | source (bs : List Byte)
  | loopback
  | policy (p : OverlongPolicy)
  | sinkfail (k : Nat) (f : SinkFault)
  deriving DecidableEq, Repr

/-- A `line` of the grammar. -/
inductive AsmLine where
  | blank
  | command (c : AsmCommand)
  | directive (d : AsmDirective)
  deriving DecidableEq, Repr

/-! ### From a text to its lines -/

/-- The lines of a text. `NEWLINE`, which the grammar does not define, is the line feed alone: a carriage return is a
character of the line (DESIGN CHOICE, log 13). -/
def splitLines : List Char → List (List Char)
  | [] => [[]]
  | c :: t =>
    if c = '\n' then [] :: splitLines t
    else
      match splitLines t with
      | [] => [[c]]
      | l :: ls => (c :: l) :: ls

/-- The part of a line before its comment, and whether it has one. -/
def stripComment : List Char → List Char × Bool
  | [] => ([], false)
  | c :: t => if c = '#' then ([], true) else ((c :: (stripComment t).1), (stripComment t).2)

/-- Add a word, if any, in front of the words that follow. -/
def pushWord (w : List Char) (ws : List (List Char)) : List (List Char) := if w = [] then ws else w :: ws

/-- The words of a line; brackets and commas are words of their own. `w` is the word being read. -/
def splitWords : List Char → List Char → List (List Char)
  | w, [] => pushWord w []
  | w, c :: t =>
    if c = ' ' ∨ c = '\t' then pushWord w (splitWords [] t)
    else if c = '[' ∨ c = ']' ∨ c = ',' then pushWord w ([c] :: splitWords [] t)
    else splitWords (w ++ [c]) t

/-- The value of a digit in base 16; `none` for any other character. -/
def hexDigit (c : Char) : Option Nat :=
  if 48 ≤ c.toNat ∧ c.toNat ≤ 57 then some (c.toNat - 48)
  else if 65 ≤ c.toNat ∧ c.toNat ≤ 70 then some (c.toNat - 55)
  else if 97 ≤ c.toNat ∧ c.toNat ≤ 102 then some (c.toNat - 87)
  else none

/-- Read digits of a base, most significant first. -/
def readDigits (base : Nat) : Nat → List Char → Option Nat
  | n, [] => some n
  | n, c :: t =>
    match hexDigit c with
    | none => none
    | some d => if d < base then readDigits base (n * base + d) t else none

/-- A number of a base. `decimal` and `hex digits`, which the grammar does not define, are each any non-empty run of digits:
of any length, leading zeros included (DESIGN CHOICE, log 13). -/
def readNumber (base : Nat) (w : List Char) : Option Nat := if w = [] then none else readDigits base 0 w

/-- A `value`: decimal, `0x` and hex digits, or `-` and decimal. -/
def readValue (w : List Char) : Option AsmValue :=
  match w with
  | '-' :: t => (readNumber 10 t).map .negative
  | '0' :: 'x' :: t => (readNumber 16 t).map .hex
  | _ => (readNumber 10 w).map .decimal

/-- A `byte`: `0x` and two hex digits. -/
def readByte (w : List Char) : Option Byte :=
  match w with
  | ['0', 'x', h, l] => (readDigits 16 0 [h, l]).map (BitVec.ofNat 8)
  | _ => none

/-- The bytes of a `.source` list after its first: `{ "," byte } "]"`. -/
def readMoreBytes : List (List Char) → Option (List Byte)
  | [[']']] => some []
  | [','] :: b :: t =>
    match readByte b, readMoreBytes t with
    | some x, some xs => some (x :: xs)
    | _, _ => none
  | _ => none

/-- The bracketed list of a `.source` directive. -/
def readBytes : List (List Char) → Option (List Byte)
  | ['['] :: [']'] :: [] => some []
  | ['['] :: b :: t =>
    match readByte b, readMoreBytes t with
    | some x, some xs => some (x :: xs)
    | _, _ => none
  | _ => none

/-- The token of a failure's name: its characters as digits, so that different names give different tokens. -/
def nameToken (w : List Char) : Nat := w.foldl (fun n c => n * 0x110000 + c.toNat) 1

/-- A `command`. -/
def readCommand (ws : List (List Char)) : Option AsmCommand :=
  match ws with
  | [m] => if m = "DEC32".toList then some .dec32 else if m = "DEC64".toList then some .dec64 else none
  | [m, x] =>
    if m = "ENC32".toList then (readValue x).map .enc32
    else if m = "ENC64".toList then (readValue x).map .enc64
    else if m = "CMD".toList then (readByte x).map .cmd
    else none
  | _ => none

/-- A `name`, which the grammar does not define: any one word but a bracket or a comma, so that no space, tab, bracket,
comma or `#` stands in it (DESIGN CHOICE, log 13). It is read as a token (log 7). -/
def readName (w : List Char) : Option SinkFault :=
  if w = ['['] ∨ w = [']'] ∨ w = [','] then none else some ⟨nameToken w⟩

/-- A `directive`. -/
def readDirective (ws : List (List Char)) : Option AsmDirective :=
  match ws with
  | [] => none
  | m :: t =>
    if m = ".source".toList then (readBytes t).map .source
    else if m = ".loopback".toList then (if t = [] then some .loopback else none)
    else if m = ".policy".toList then
      (if t = ["REJECT".toList] then some (.policy .reject)
       else if t = ["PASS".toList] then some (.policy .pass) else none)
    else if m = ".sinkfail".toList then
      (match t with
       | [k, name] =>
         match readNumber 10 k, readName name with
         | some n, some f => some (.sinkfail n f)
         | _, _ => none
       | _ => none)
    else none

/-- A `line`: a command with or without a comment, a comment alone, nothing, or a directive, which takes no comment. -/
def readLine (l : List Char) : Option AsmLine :=
  let ws := splitWords [] (stripComment l).1
  match ws with
  | [] => some .blank
  | ('.' :: _) :: _ => if (stripComment l).2 then none else (readDirective ws).map .directive
  | _ => (readCommand ws).map .command

/-- The lines of a text, or `none` where one is outside the grammar. -/
def readProgram (text : List Char) : Option (List AsmLine) := (splitLines text).mapM readLine

/-! ### From lines to a run -/

/-- The W-bit pattern of a value, refused outside its range and never truncated (R73). -/
def AsmValue.pattern (W : Nat) : AsmValue → Except Refusal (BitVec W)
  | .decimal n => if n < 2 ^ W then .ok (BitVec.ofNat W n) else .error .valueOutOfRange
  | .hex n => if n < 2 ^ W then .ok (BitVec.ofNat W n) else .error .valueOutOfRange
  | .negative n =>
    if 1 ≤ n ∧ n ≤ 2 ^ (W - 1) then .ok (BitVec.ofInt W (-(n : Int))) else .error .valueOutOfRange

/-- The host actions of `ENCW value`: `ARG <- zext_64(p)`, then the issue (R73). -/
def encodeActions (W : Nat) (c : Byte) (x : AsmValue) : Except Refusal (List HostAction) :=
  match x.pattern W with
  | .ok p => .ok [.writeArg (p.setWidth 64), .issue c]
  | .error r => .error r

/-- The one or two host actions a command is turned into (R73). -/
def AsmCommand.actions : AsmCommand → Except Refusal (List HostAction)
  | .enc32 x => encodeActions 32 (encode .enc32) x
  | .enc64 x => encodeActions 64 (encode .enc64) x
  | .dec32 => .ok [.issue (encode .dec32)]
  | .dec64 => .ok [.issue (encode .dec64)]
  | .cmd c => .ok [.issue c]

/-- What a program sets up: its directives, each at most once, and its actions in text order. -/
structure AsmSetup where
  source : Option (List Byte)
  loopback : Bool
  policy : Option OverlongPolicy
  sinkfail : Option (Nat × SinkFault)
  actions : List HostAction
  deriving DecidableEq, Repr

/-- The set-up of a program with no line. -/
def AsmSetup.empty : AsmSetup where
  source := none
  loopback := false
  policy := none
  sinkfail := none
  actions := []

/-- Add a directive: before the first command, each at most once, `.source` and `.loopback` excluding each other, and
`.sinkfail` counting from 1 (R74). -/
def AsmSetup.directive (d : AsmDirective) (p : AsmSetup) : Except Refusal AsmSetup :=
  if p.actions ≠ [] then .error .badProgram
  else
    match d with
    | .source bs =>
      if p.source.isSome || p.loopback then .error .badProgram else .ok { p with source := some bs }
    | .loopback =>
      if p.source.isSome || p.loopback then .error .badProgram else .ok { p with loopback := true }
    | .policy x => if p.policy.isSome then .error .badProgram else .ok { p with policy := some x }
    | .sinkfail k f =>
      if p.sinkfail.isSome || k == 0 then .error .badProgram else .ok { p with sinkfail := some (k, f) }

/-- Add a line to a set-up. A text may have several reasons to be refused: the first line, in text order, that gives one
names the refusal (DESIGN CHOICE, log 14). -/
def AsmSetup.line (p : AsmSetup) (l : AsmLine) : Except Refusal AsmSetup :=
  match l with
  | .blank => .ok p
  | .command c =>
    match c.actions with
    | .ok as => .ok { p with actions := p.actions ++ as }
    | .error r => .error r
  | .directive d => p.directive d

/-- Assemble a program, refusing what R73 and R74 refuse, line by line in text order (DESIGN CHOICE, log 14). -/
def assemble : AsmSetup → List AsmLine → Except Refusal AsmSetup
  | p, [] => .ok p
  | p, l :: ls =>
    match p.line l with
    | .ok p' => assemble p' ls
    | .error r => .error r

/-- The sink of a program: empty, connected to the source by `.loopback`, its k-th append failing by `.sinkfail` with
`sink.bytes` unchanged, every other append `ok` (R74). `sink.pos` starts at 0 (log 20). -/
def AsmSetup.sink (p : AsmSetup) : Sink where
  bytes := []
  pos := 0
  feeds := if p.loopback then some 0 else none
  answers :=
    match p.sinkfail with
    | none => []
    | some (k, f) => List.replicate (k - 1) .ok ++ [.fail f none]
  thereafter := .ok

/-- The source of a program: the bytes of `.source`, then end of stream; empty without it (R74). `source.pos` starts at
0 (log 20). -/
def AsmSetup.byteSource (p : AsmSetup) : Source where
  rest := p.source.getD []
  beyond := .nothing
  pos := 0
  answers := []
  thereafter := .serve

/-- The host's preparations, in the order of 70_reset_and_hazards.md R142, and then the program's actions. Only an issue
waits for the command before it (R73, R143); the `ARG` write in front of the next issue may land while that command is
still in progress, where R146 allows it and no operation sees it (DESIGN CHOICE, log 21). -/
def AsmSetup.host (p : AsmSetup) : List HostAction :=
  (match p.policy with
   | none => []
   | some x => [.fixPolicy x]) ++ [.attachSink 0, .attachSource 0] ++ p.actions

/-- A set-up's run from reset (R152): its streams supplied, its host's actions the turns of block 0. -/
def AsmSetup.launch (p : AsmSetup) : State :=
  { State.reset with
    sinks := [p.sink]
    sources := [p.byteSource]
    turns := p.host.map (.host 0) }

/-- The run of a program's text, or why there is none (R154). The whole text is held against the grammar before any value's
range or directive's place is tested, so a text outside the grammar is `badProgram` whatever else is wrong with it
(DESIGN CHOICE, log 14). -/
def launch (text : List Char) : Except Refusal State :=
  match readProgram text with
  | none => .error .badProgram
  | some ls =>
    match assemble .empty ls with
    | .ok p => .ok p.launch
    | .error r => .error r

end Sys2Proof.Machine
end

