-- ==== Sys2Proof/Machine/WireFormat.lean ====
section
/-! DEFINITION. The wire format as the spec states it apart from the steps: the encoding of a value and its length
(spec/30_encoding.md R63 to R65), the value of a sequence (R67), canonical sequences (R68), and the functional forms of an
encode (40_encode.md R83) and a decode (41_decode.md R107). The steps are held against these. -/

namespace Sys2Proof.Machine

/-- Group k of a value, `v[7k+6 : 7k]`, bits above W-1 reading 0 (R63). -/
def groupAt {W : Nat} (v : BitVec W) (k : Nat) : Group := (v >>> (7 * k)).setWidth 7

/-- The least number of 7-bit groups, from `n` on and at most `fuel` more, that holds `x`. -/
def leastLen (x : Nat) : Nat → Nat → Nat
  | 0, n => n
  | fuel + 1, n => if x < 2 ^ (7 * n) then n else leastLen x fuel (n + 1)

/-- `n_W(v)`: the number of bytes of an encoding (R64). -/
def encLen {W : Nat} (v : BitVec W) : Nat := leastLen v.toNat (nmax W) 1

/-- `enc_W(v)` in the closed form of R63. -/
def encBytes {W : Nat} (v : BitVec W) : List Byte :=
  (List.range (encLen v - 1)).map (fun k => cont (groupAt v k)) ++ [term (groupAt v (encLen v - 1))]

/-- The loop `go` of R83, with the bound NMAX(W) the rule gives as its fuel. -/
def encodeGo {W : Nat} : Nat → BitVec W → List Byte
  | 0, _ => []
  | fuel + 1, x =>
    if x >>> 7 = 0 then [term (x.setWidth 7)] else cont (x.setWidth 7) :: encodeGo fuel (x >>> 7)

/-- `encode_W(v)`, the functional form of R83. -/
def encodeFn {W : Nat} (v : BitVec W) : List Byte := if v = 0 then [0x00#8] else encodeGo (nmax W) v

/-- `val_W` of a byte sequence from group `k` on: the groups at their places, those bits at W and above lost (R67). -/
def wireValueFrom (W : Nat) : Nat → List Byte → BitVec W
  | _, [] => 0
  | k, b :: t => ((groupOf b).setWidth W <<< (7 * k)) ||| wireValueFrom W (k + 1) t

/-- `val_W` of a byte sequence (R67). -/
def wireValue (W : Nat) (bs : List Byte) : BitVec W := wireValueFrom W 0 bs

/-- A sequence with continuation bytes and then one terminal byte (R66). -/
def wellShaped : List Byte → Bool
  | [] => false
  | [b] => isTerminal b
  | b :: t => !isTerminal b && wellShaped t

/-- Canonical for width W (R68): equal to some `enc_W(v)`. -/
def canonical (W : Nat) (bs : List Byte) : Prop := ∃ v : BitVec W, bs = encBytes v

/-- How a list of byte answers ends (R107): in end of stream or in a failure. -/
inductive DecodeEnd where
  | eos
  | fail (f : SourceFault)
  deriving DecidableEq, Repr

/-- The outcome of a decode as a function (R107). -/
inductive Decoded (W : Nat) where
  | ok (v : BitVec W)
  | sourceExhausted
  | sourceFault (f : SourceFault)
  | malformedVarint
  deriving DecidableEq, Repr

/-- `loop(s, acc, i, c)` of R107: the outcome, and the number of bytes consumed. -/
def decodeLoop (W : Nat) (oc : OverlongCombine W) (p : OverlongPolicy) (e : DecodeEnd) :
    List Byte → BitVec W → Nat → Nat → Decoded W × Nat
  | [], _, _, c =>
    match e with
    | .eos => (.sourceExhausted, c)
    | .fail f => (.sourceFault f, c)
  | b :: t, acc, i, c =>
    if isTerminal b then (.ok (combine W oc acc (groupOf b) i), c + 1)
    else if p = .reject ∧ i = nmax W - 1 then (.malformedVarint, c + 1)
    else decodeLoop W oc p e t (combine W oc acc (groupOf b) i) (i + 1) (c + 1)

/-- `decode_W,P(s, e)` of R107. -/
def decodeFn (W : Nat) (oc : OverlongCombine W) (p : OverlongPolicy) (s : List Byte) (e : DecodeEnd) :
    Decoded W × Nat := decodeLoop W oc p e s 0 0 0

end Sys2Proof.Machine
end

