-- ==== Sys2Proof/Safety.lean ====
section
/-! DEFINITION. What holds of every state a run reaches, and the terms the statements use: a block's and the machine's
invariant, the end of a run (spec/70_reset_and_hazards.md R152), streams that answer. -/

namespace Sys2Proof.Machine

/-- What the rules promise of one block between two steps. -/
structure Block.Inv (b : Block) : Prop where
  /-- `PHASE` is `RUN` exactly when `BUSY == 1` (R28). -/
  busyPhase : b.busy = true ↔ b.phase ≠ .idle
  /-- `STATUS` holds one of the six codes (R24). -/
  statusLegal : b.status.toNat ≤ 5
  /-- `FAULT_INFO` holds a sink's failure exactly when `STATUS` is SINK_FAULT (R25). -/
  sinkInfo : (∃ f, b.faultInfo = .sink f) ↔ b.status = 0x01#8
  /-- `FAULT_INFO` holds a source's failure exactly when `STATUS` is SOURCE_FAULT (R25). -/
  sourceInfo : (∃ f, b.faultInfo = .source f) ↔ b.status = 0x03#8
  /-- An encode runs only with `ARG` written (R37), with a sink attached or not. -/
  encodeArg : encoding b = true → b.argWritten = true
  /-- `V` is a 32-bit value during ENC32 (R29). -/
  v32 : b.phase = .run .enc32 → b.v.toNat < 2 ^ 32
  /-- `ACC` is a 32-bit value during DEC32 (R30). -/
  acc32 : b.phase = .run .dec32 → b.acc.toNat < 2 ^ 32
  /-- Under REJECT `IDX` never exceeds NMAX(32) - 1 in DEC32 (R30, R105). -/
  idx32 : b.phase = .run .dec32 → b.policy = .reject → b.idx ≤ 4
  /-- Under REJECT `IDX` never exceeds NMAX(64) - 1 in DEC64 (R30, R105). -/
  idx64 : b.phase = .run .dec64 → b.policy = .reject → b.idx ≤ 9
  /-- An operation in progress was issued, so the policy is fixed (R142). -/
  busyStarted : b.busy = true → b.started = true

/-- Every block, the one in focus first, under its number. -/
def State.table (s : State) : List (Nat × Block) := (s.cur, s.blk) :: s.others

/-- The block numbered `k`, if the system has it. -/
def State.blockAt (s : State) (k : Nat) : Option Block := s.table.lookup k

/-- The sinks used by operations in progress, one entry per operation (R52). -/
def State.sinksInUse (s : State) : List Nat := s.table.filterMap fun p => p.2.sinkInUse

/-- The sources used by operations in progress, an encode's through its sink's connection (R52, R56, log 19). -/
def State.sourcesInUse (s : State) : List Nat := s.table.filterMap fun p => p.2.sourceInUse s.sinks

/-- What the rules promise of the whole machine between two steps. -/
structure State.Inv (s : State) : Prop where
  /-- Every block keeps its promises. -/
  blocks : ∀ p ∈ s.table, p.2.Inv
  /-- No two blocks have one number (R133). -/
  numbers : (s.table.map Prod.fst).Nodup
  /-- No sink is used by two operations in progress (R52). -/
  sinksExclusive : s.sinksInUse.Nodup
  /-- No source is used by two operations in progress (R52). -/
  sourcesExclusive : s.sourcesInUse.Nodup
  /-- An attached sink exists (R40). -/
  sinkExists : ∀ p ∈ s.table, ∀ id, p.2.sink = some id → id < s.sinks.length
  /-- An attached source exists (R40). -/
  sourceExists : ∀ p ∈ s.table, ∀ id, p.2.source = some id → id < s.sources.length

/-- The end of a run (R152): no turn left and the block in focus idle. R152 says nothing about a run interrupted by reset;
such a run counts as ended too, and only the block in focus is asked to be idle (DESIGN CHOICE, log 22). -/
def State.finished (s : State) : Prop := s.turns = [] ∧ s.blk.busy = false

/-- The block in focus is idle. -/
def State.Idle (s : State) : Prop := s.blk.busy = false ∧ s.blk.phase = .idle

/-- The block in focus is running operation `op`. -/
def State.Running (s : State) (op : Instr) : Prop := s.blk.busy = true ∧ s.blk.phase = .run op

/-- The sink attached to the block in focus is `k`, at number `id`. -/
def State.HasSink (s : State) (id : Nat) (k : Sink) : Prop := s.blk.sink = some id ∧ s.sinks[id]? = some k

/-- The source attached to the block in focus is `q`, at number `id`. -/
def State.HasSource (s : State) (id : Nat) (q : Source) : Prop := s.blk.source = some id ∧ s.sources[id]? = some q

/-- Block `b'` is block `b` with an operation ended in it: `STATUS` and `FAULT_INFO` as given, idle, every other
register as it was but the working registers `V`, `ACC`, `IDX`, of which nothing is said (R120, R32), and the model's
own count of draws. -/
def Block.EndedAs (b : Block) (code : BitVec 8) (info : FaultInfo) (b' : Block) : Prop :=
  b' = { b with status := code, faultInfo := info, phase := .idle, busy := false,
                v := b'.v, acc := b'.acc, idx := b'.idx, draws := b'.draws }

/-- The sources after a sink that feeds `target` has taken byte `b` (R56, log 19). -/
def gainByte (target : Option Nat) (b : Byte) (qs : List Source) : List Source :=
  match target with
  | none => qs
  | some j => qs.modify j fun q => { q with rest := q.rest ++ [b] }

/-- The streams and the history after sink `id` has answered `ok` to byte `b` (R12, R41, R46, R56; logs 19 and 20), `k`
the sink before; the block is left as it is. -/
def State.appended (s : State) (id : Nat) (k : Sink) (b : Byte) : State :=
  { s with
    sinks := s.sinks.set id { k with bytes := k.bytes ++ [b], pos := k.pos + 1, answers := k.answers.tail }
    sources := gainByte k.feeds b s.sources
    history := s.history ++ [⟨s.cur, .append b⟩] }

/-- The streams and the history after sink `id` has refused byte `b` with `f`, `left` what it made of itself, if
anything (R41, R46). -/
def State.refusedAppend (s : State) (id : Nat) (k : Sink) (b : Byte) (f : SinkFault) (left : Option (List Byte × Nat)) :
    State :=
  { s with
    sinks := s.sinks.set id
      { k with bytes := (left.map Prod.fst).getD k.bytes, pos := (left.map Prod.snd).getD k.pos,
               answers := k.answers.tail }
    history := s.history ++ [⟨s.cur, .appendFailed b f⟩] }

/-- The streams and the history after source `id` has given byte `b` (R42, R46), `q` the source before, `rest` what
it has left. -/
def State.consumed (s : State) (id : Nat) (q : Source) (b : Byte) (rest : List Byte) : State :=
  { s with
    sources := s.sources.set id { q with rest := rest, pos := q.pos + 1, answers := q.answers.tail }
    history := s.history ++ [⟨s.cur, .read b⟩] }

/-- Source `id` and the history after it has reported end of stream (R42, R46). `Source.pos` stays: R12 moves it after a
read and the model counts reads of a byte only (DESIGN CHOICE, log 20). -/
def State.sawEos (s : State) (id : Nat) (q : Source) : State :=
  { s with
    sources := s.sources.set id { q with answers := q.answers.tail }
    history := s.history ++ [⟨s.cur, .readEos⟩] }

/-- The streams and the history after source `id` has failed with `f`, `left` what it made of itself, if anything
(R46, R124). -/
def State.refusedRead (s : State) (id : Nat) (q : Source) (f : SourceFault) (left : Option (List Byte × Nat)) : State :=
  { s with
    sources := s.sources.set id
      { q with rest := (left.map Prod.fst).getD q.rest, pos := (left.map Prod.snd).getD q.pos,
               answers := q.answers.tail }
    history := s.history ++ [⟨s.cur, .readFailed f⟩] }

/-- Source `q` has a next byte `b`, after which it lists `rest` (R42): the first byte it lists, or with none listed the
first byte beyond. -/
def Source.Has (q : Source) (b : Byte) (rest : List Byte) : Prop :=
  q.rest = b :: rest ∨
  (q.rest = [] ∧ q.beyond = .cycle b rest) ∨
  (q.rest = [] ∧ rest = [] ∧ ∃ seed, q.beyond = .endless seed ∧ b = Config.endlessByte seed q.pos)

/-- Source `q` has no byte: `source.rest` is empty (R42). -/
def Source.Empty (q : Source) : Prop := q.rest = [] ∧ q.beyond = .nothing

/-- The next answer of a sink. -/
def Sink.next (k : Sink) : SinkAnswer := k.answers.headD k.thereafter

/-- The next answer of a source. -/
def Source.next (q : Source) : SourceAnswer := q.answers.headD q.thereafter

/-- A sink that accepts every append. -/
def Sink.Accepts (k : Sink) : Prop := k.answers = [] ∧ k.thereafter = .ok

/-- A source that serves every read: its bytes, then end of stream. -/
def Source.Serves (q : Source) : Prop := q.answers = [] ∧ q.thereafter = .serve ∧ q.beyond = .nothing

/-- A source that answers with the bytes `bs` and then with the end `e` (41_decode.md R107). -/
def Source.Plays (q : Source) (bs : List Byte) (e : DecodeEnd) : Prop :=
  q.rest = bs ∧ q.beyond = .nothing ∧
  match e with
  | .eos => q.answers = [] ∧ q.thereafter = .serve
  | .fail f => ∃ left, q.answers = List.replicate bs.length .serve ++ [.fail f left]

/-- The source after its first `n` listed bytes have been read (R42). -/
def Source.readOff (n : Nat) (q : Source) : Source :=
  { q with rest := q.rest.drop n, pos := q.pos + n, answers := q.answers.drop n }

/-- `t` is how the run of a decode issued in `s` ends after `n` steps, on source `q` at number `id` which lists `bs`, when
the functional form (41_decode.md R107) gives that outcome after `c` bytes: the steps, the block's registers, the
accesses, and what the source has left. Only an OK writes `RESULT`. `Source.pos` counts the bytes read, so the read that
meets end of stream adds nothing to it (DESIGN CHOICE, log 20). -/
def DecodeEnds {W : Nat} (s : State) (id : Nat) (q : Source) (bs : List Byte) (n : Nat) (t : State) :
    Decoded W × Nat → Prop
  | (.ok v, c) => n = 1 + c ∧
      { s.blk with started := true, result := v.setWidth 64, resultWritten := true }.EndedAs 0x00#8 .none t.blk ∧
      t.history = s.history ++ ((bs.take c).map fun b => ⟨s.cur, .read b⟩) ∧
      t.sources = s.sources.set id (q.readOff c)
  | (.malformedVarint, c) => n = 1 + c ∧ { s.blk with started := true }.EndedAs 0x04#8 .none t.blk ∧
      t.history = s.history ++ ((bs.take c).map fun b => ⟨s.cur, .read b⟩) ∧
      t.sources = s.sources.set id (q.readOff c)
  | (.sourceExhausted, c) => n = 1 + c + 1 ∧ { s.blk with started := true }.EndedAs 0x02#8 .none t.blk ∧
      t.history = s.history ++ ((bs.take c).map fun b => ⟨s.cur, .read b⟩) ++ [⟨s.cur, .readEos⟩] ∧
      t.sources = s.sources.set id (q.readOff c)
  | (.sourceFault f, c) => n = 1 + c + 1 ∧ { s.blk with started := true }.EndedAs 0x03#8 (.source f) t.blk ∧
      t.history = s.history ++ ((bs.take c).map fun b => ⟨s.cur, .read b⟩) ++ [⟨s.cur, .readFailed f⟩] ∧
      ∀ left, q.answers = List.replicate bs.length .serve ++ [.fail f left] →
        t.sources = s.sources.set id { q with
          rest := (left.map Prod.fst).getD (q.rest.drop c)
          pos := (left.map Prod.snd).getD (q.pos + c)
          answers := [] }

/-- `n` steps of the machine. -/
def runs (n : Nat) (s : State) : Host.Outcome State Fault Refusal := Host.Core.run core n s

end Sys2Proof.Machine
end

