-- ==== Sys2Proof/Certificates/Slice0/Obligations.lean ====
section
/-! DEFINITION. The statements for the provers. Each one's docstring names the rule of spec/ it is about. -/

open Sys2Proof Sys2Proof.Machine

/-! ### The command word -/

/-- 30_encoding.md R70: the four words, bit by bit, the operations they select and their widths. -/
def Obligations.TableWordsDecodeAsWritten : Prop :=
  decode 0b00000000#8 = .ok .enc32 ∧ decode 0b00000001#8 = .ok .enc64 ∧
  decode 0b00000010#8 = .ok .dec32 ∧ decode 0b00000011#8 = .ok .dec64 ∧
  width .enc32 = 32 ∧ width .enc64 = 64 ∧ width .dec32 = 32 ∧ width .dec64 = 64 ∧
  ∀ i, isEncode i = true ↔ i = .enc32 ∨ i = .enc64

/-- 30_encoding.md R69, R70: a word decodes to an operation exactly when it is that operation's word. -/
def Obligations.DecodeInvertsEncode : Prop :=
  ∀ (c : Byte) (i : Instr), decode c = .ok i ↔ encode i = c

/-- 30_encoding.md R71: the illegal words are those with a reserved bit set, `0x04` to `0xFF`, and the decoder names
the reserved bits it found. -/
def Obligations.ReservedWordsAreRejected : Prop :=
  ∀ c : Byte,
    (c.extractLsb' 2 6 ≠ 0#6 ↔ 0x04 ≤ c.toNat) ∧
    (c.extractLsb' 2 6 ≠ 0#6 ↔ decode c = .error (.reservedBits (c.extractLsb' 2 6)))

/-! ### Steps, issues and turns -/

/-- 70_reset_and_hazards.md R143: an enabled issue of a legal word runs the decoded operation, the issue taken from
the turns and the run marked as started (the model's fields, logs 8 and 12). The turn is one of the block in focus; what
a turn of another block does is `TurnActsOnItsOwnBlock`. -/
def Obligations.StepRunsIssuedCommand : Prop :=
  ∀ (s : State) (c : Byte) (op : Instr) (rest : List Turn),
    s.turns = .host s.cur (.issue c) :: rest → s.blk.busy = false → decode c = .ok op →
    step s = exec op { s with turns := rest, blk := { s.blk with started := true } }

/-- 10_state.md R28 and 70_reset_and_hazards.md R143: while an operation is in progress a step of the block's engine
is that operation's next transition, and an issue waits. Which agent moves is the model's choice (DESIGN CHOICE, log 15):
the held issue keeps its turn while the engine moves, and with no turn left the engine in focus moves. -/
def Obligations.StepRunsOperationInProgress : Prop :=
  ∀ (s : State) (op : Instr), s.Running op →
    (s.turns = [] → step s = exec op s) ∧
    (∀ rest, s.turns = .engine s.cur :: rest → step s = exec op { s with turns := rest }) ∧
    (∀ c rest, s.turns = .host s.cur (.issue c) :: rest → step s = exec op s)

/-- 60_exceptions.md R126, 30_encoding.md R71: the words `0x04` to `0xFF` are illegal; one completes at its issue,
writing `STATUS` and `FAULT_INFO` only, beside the turn taken and the mark of a started run, which is the model's own
(log 8). While the block is busy the issue is not accepted (70_reset_and_hazards.md R143); that the held issue keeps its
turn and the running operation moves instead is the model's choice (log 15). -/
def Obligations.IllegalWordCompletesAtOnce : Prop :=
  (∀ c : Byte, c.extractLsb' 2 6 ≠ 0#6 ↔ 0x04 ≤ c.toNat) ∧
  ∀ (s : State) (c : Byte) (rest : List Turn),
    s.turns = .host s.cur (.issue c) :: rest → c.extractLsb' 2 6 ≠ 0#6 →
    (s.Idle → step s = .next { s with
      turns := rest
      blk := { s.blk with started := true, status := 0x05#8, faultInfo := .none } }) ∧
    (∀ op, s.Running op → step s = exec op s)

/-- 70_reset_and_hazards.md R140, R143: an idle block's engine waits, and on a busy block no operation but the one in
progress has a move. -/
def Obligations.NothingMovesWithoutItsTurn : Prop :=
  (∀ s : State, s.Idle → s.turns = [] → step s = .next s) ∧
  (∀ (s : State) (op : Instr), s.blk.busy = true → s.blk.phase ≠ .run op → exec op s = .next s)

/-- What a state with a command word placed in it does next: exactly the decoded operation, with `ARG` counted as
written if the operation reads it. The placing is the model's choice (log 12). -/
def Obligations.PlacedWordRunsNext : Prop :=
  ∀ (s : State) (w : Nat) (op : Instr), decode (BitVec.ofNat 8 (w % 2 ^ 8)) = .ok op →
    step (s.withFetchWord 8 w) = exec op { s with blk := { s.blk with
      busy := false, phase := .idle, started := true, argWritten := s.blk.argWritten || isEncode op } }

/-! ### Encode: acceptance and steps -/

/-- 40_encode.md R80: on acceptance `V <- ARG[W-1:0]`, `PHASE <- RUN(ENCW)` and `BUSY <- 1`, in one transition and with
no stream access; and only when `BUSY == 0`. `ARG` must have been written (10_state.md R37), and the sink must be free
(20_memory.md R52). `V`'s 64-bit field is the model's choice (log 4), and so is that the running operation moves while an
issue is held (log 15). -/
def Obligations.EncodeAcceptanceLoadsV : Prop :=
  (∀ (s : State) (op : Instr), isEncode op = true → s.Idle → s.blk.argWritten = true → sharesSink s = false →
    exec op s = .next { s with blk := { s.blk with
      v := (s.blk.arg.setWidth (width op)).setWidth 64, phase := .run op, busy := true } }) ∧
  (∀ (s : State) (op running : Instr) (rest : List Turn), isEncode op = true → s.Running running →
    s.turns = .host s.cur (.issue (encode op)) :: rest → step s = exec running s)

/-- 10_state.md R37 and 70_reset_and_hazards.md R154: an encode accepted while `ARG` is unwritten is a model fault;
20_memory.md R52: a launch that would share a stream in use is refused, which is tested first (the
model's choice, log 14). That a sink and the source it is connected to (R56), and two sinks connected to one source, count
as one stream is DEDUCED (log 19). -/
def Obligations.LaunchStopsByName : Prop :=
  (∀ (s : State) (op : Instr), isEncode op = true → s.Idle → s.blk.argWritten = false → sharesSink s = false →
    exec op s = .fault .argUnwritten) ∧
  (∀ (s : State) (op : Instr) (id j : Nat) (b : Block), isEncode op = true → s.Idle → s.blk.sink = some id →
    (j, b) ∈ s.others → b.sinkInUse = some id → exec op s = .refused .streamShared) ∧
  (∀ (s : State) (op : Instr) (id j : Nat) (b : Block), isEncode op = false → s.Idle → s.blk.source = some id →
    (j, b) ∈ s.others → b.sourceInUse s.sinks = some id → exec op s = .refused .streamShared) ∧
  (∀ (s : State) (op other : Instr) (id n j : Nat) (k : Sink) (b : Block), isEncode op = true → s.Idle →
    s.HasSink id k → k.feeds = some n → (j, b) ∈ s.others → b.phase = .run other →
    (isEncode other = false → b.source = some n → exec op s = .refused .streamShared) ∧
    (∀ i x, isEncode other = true → b.sink = some i → s.sinks[i]? = some x → x.feeds = some n →
      exec op s = .refused .streamShared)) ∧
  (∀ (s : State) (op other : Instr) (id i j : Nat) (x : Sink) (b : Block), isEncode op = false → s.Idle →
    s.blk.source = some id → (j, b) ∈ s.others → b.phase = .run other → isEncode other = true → b.sink = some i →
    s.sinks[i]? = some x → x.feeds = some id → exec op s = .refused .streamShared)

/-- 40_encode.md R81: with `V == 0` the step appends `0x00` and completes, OK or with the sink's fault; and an encode
step that goes on leaves the block as it was (held) or with `V != 0`, so that `V == 0` can hold only at the first step,
and only when the operand was 0. -/
def Obligations.EncodeZeroStepAppendsZero : Prop :=
  (∀ (s : State) (op : Instr), isEncode op = true → s.Running op →
    (∀ id k, s.HasSink id k → s.blk.v.setWidth (width op) = 0 →
      (k.next = .ok → ∃ t, exec op s = .next t ∧ s.blk.EndedAs 0x00#8 .none t.blk ∧
        t = { s.appended id k 0x00#8 with blk := t.blk }) ∧
      (∀ f left, k.next = .fail f left → ∃ t, exec op s = .next t ∧ s.blk.EndedAs 0x01#8 (.sink f) t.blk ∧
        t = { s.refusedAppend id k 0x00#8 f left with blk := t.blk })) ∧
    (∀ t, exec op s = .next t → t.blk.phase = .run op → t.blk = s.blk ∨ t.blk.v.setWidth (width op) ≠ 0)) ∧
  (∀ (s t : State) (op : Instr), isEncode op = true → s.Idle → exec op s = .next t →
    (t.blk.v.setWidth (width op) = 0 ↔ s.blk.arg.setWidth (width op) = 0))

/-- 40_encode.md R82: with `V != 0` the step appends the low 7 bits of `V`, plainly if nothing is left of `V >>> 7`
and complemented otherwise; it then completes, or writes `V`, or ends with the sink's fault and `V` not written on. -/
def Obligations.EncodeIterationAppendsGroup : Prop :=
  ∀ (s : State) (op : Instr) (id : Nat) (k : Sink), isEncode op = true → s.Running op → s.HasSink id k →
    s.blk.v.setWidth (width op) ≠ 0 →
    (s.blk.v.setWidth (width op) >>> 7 = 0 →
      (k.next = .ok → ∃ t, exec op s = .next t ∧ s.blk.EndedAs 0x00#8 .none t.blk ∧
        t = { s.appended id k ((s.blk.v.setWidth 7).setWidth 8) with blk := t.blk }) ∧
      (∀ f left, k.next = .fail f left → ∃ t, exec op s = .next t ∧ s.blk.EndedAs 0x01#8 (.sink f) t.blk ∧
        t = { s.refusedAppend id k ((s.blk.v.setWidth 7).setWidth 8) f left with blk := t.blk })) ∧
    (s.blk.v.setWidth (width op) >>> 7 ≠ 0 →
      (k.next = .ok → exec op s = .next { s.appended id k (0xFF#8 ^^^ (s.blk.v.setWidth 7).setWidth 8) with
        blk := { s.blk with v := (s.blk.v.setWidth (width op) >>> 7).setWidth 64 } }) ∧
      (∀ f left, k.next = .fail f left → ∃ t, exec op s = .next t ∧ s.blk.EndedAs 0x01#8 (.sink f) t.blk ∧
        t = { s.refusedAppend id k (0xFF#8 ^^^ (s.blk.v.setWidth 7).setWidth 8) f left with blk := t.blk }))

/-- 40_encode.md R88: the iteration's formulas, applied to `V == 0`, give the zero step. -/
def Obligations.ZeroCaseIsTheGeneralCase : Prop :=
  ∀ (s : State) (op : Instr), isEncode op = true → s.Running op → s.blk.v.setWidth (width op) = 0 →
    exec op s = appendStep (term (s.blk.v.setWidth 7)) (complete .ok) s ∧
    s.blk.v.setWidth (width op) >>> 7 = 0 ∧ term (s.blk.v.setWidth 7) = 0x00#8

/-- 20_memory.md R57: an access waits as long as its stream does not answer. That the hold is a step in which only the
stream's wait is used up is the model's choice (log 6), and so is that with no stream attached nothing changes at all
(log 10). -/
def Obligations.UnansweredAccessHolds : Prop :=
  ∀ (s : State) (op : Instr), s.Running op →
    (∀ id k, isEncode op = true → s.HasSink id k → k.next = .wait →
      exec op s = .next { s with sinks := s.sinks.set id { k with answers := k.answers.tail } }) ∧
    (∀ id q, isEncode op = false → s.HasSource id q → q.next = .wait →
      exec op s = .next { s with sources := s.sources.set id { q with answers := q.answers.tail } }) ∧
    (isEncode op = true → s.blk.sink = none → exec op s = .next s) ∧
    (isEncode op = false → s.blk.source = none → exec op s = .next s)

/-! ### Decode: acceptance and steps -/

/-- 41_decode.md R100: on acceptance `ACC <- 0`, `IDX <- 0`, `PHASE <- RUN(DECW)` and `BUSY <- 1`, in one transition,
with no stream access, whether `ARG` is written or not; and only when `BUSY == 0`. The source must be free
(20_memory.md R52). That the running operation moves while an issue is held is the model's choice (log 15). -/
def Obligations.DecodeAcceptanceClearsAcc : Prop :=
  (∀ (s : State) (op : Instr), isEncode op = false → s.Idle → sharesSource s = false →
    exec op s = .next { s with blk := { s.blk with acc := 0, idx := 0, phase := .run op, busy := true } }) ∧
  (∀ (s : State) (op running : Instr) (rest : List Turn), isEncode op = false → s.Running running →
    s.turns = .host s.cur (.issue (encode op)) :: rest → step s = exec running s)

/-- 41_decode.md R102, R104: a terminal byte ends the decode OK, its group combined at `7 * IDX` and the value
zero-extended into `RESULT`; past the bound the value is the opaque `OVERLONG_COMBINE_W`'s (R106), of which nothing
more is known. -/
def Obligations.TerminalByteWritesResult : Prop :=
  ∀ (s : State) (op : Instr) (id : Nat) (q : Source) (b : Byte) (rest : List Byte), isEncode op = false →
    s.Running op → s.HasSource id q → q.next = .serve → q.Has b rest → b.toNat < 0x80 →
    ∃ t, exec op s = .next t ∧ t = { s.consumed id q b rest with blk := t.blk } ∧
      { s.blk with result := t.blk.result, resultWritten := true }.EndedAs 0x00#8 .none t.blk ∧
      t.blk.result.toNat < 2 ^ width op ∧
      (s.blk.idx < nmax (width op) → t.blk.result =
        (s.blk.acc.setWidth (width op) ||| (b.setWidth 7).setWidth (width op) <<< (7 * s.blk.idx)).setWidth 64) ∧
      (nmax (width op) ≤ s.blk.idx →
        (op = .dec32 → t.blk.result =
          (Config.overlongCombine32 (s.blk.acc.setWidth 32) (b.setWidth 7) s.blk.idx).setWidth 64) ∧
        (op = .dec64 → t.blk.result = Config.overlongCombine64 s.blk.acc (b.setWidth 7) s.blk.idx))

/-- 41_decode.md R103, R104, R105: a continuation byte is combined, complemented, at `7 * IDX` and `IDX` grows by 1;
at the bound under REJECT it ends the decode with MALFORMED_VARINT instead; past the bound under PASS `ACC` is the opaque
`OVERLONG_COMBINE_W`'s value. -/
def Obligations.ContinuationByteCombines : Prop :=
  ∀ (s : State) (op : Instr) (id : Nat) (q : Source) (b : Byte) (rest : List Byte), isEncode op = false →
    s.Running op → s.HasSource id q → q.next = .serve → q.Has b rest → 0x80 ≤ b.toNat →
    (s.blk.policy = .reject → s.blk.idx = nmax (width op) - 1 →
      ∃ t, exec op s = .next t ∧ s.blk.EndedAs 0x04#8 .none t.blk ∧ t = { s.consumed id q b rest with blk := t.blk }) ∧
    (¬(s.blk.policy = .reject ∧ s.blk.idx = nmax (width op) - 1) →
      ∃ t, exec op s = .next t ∧ t = { s.consumed id q b rest with
          blk := { s.blk with acc := t.blk.acc, idx := s.blk.idx + 1 } } ∧
        t.blk.acc.toNat < 2 ^ width op ∧
        (s.blk.idx < nmax (width op) → t.blk.acc = (s.blk.acc.setWidth (width op) |||
          ((b ^^^ 0xFF#8).setWidth 7).setWidth (width op) <<< (7 * s.blk.idx)).setWidth 64) ∧
        (nmax (width op) ≤ s.blk.idx →
          (op = .dec32 → t.blk.acc =
            (Config.overlongCombine32 (s.blk.acc.setWidth 32) ((b ^^^ 0xFF#8).setWidth 7) s.blk.idx).setWidth 64) ∧
          (op = .dec64 → t.blk.acc =
            Config.overlongCombine64 s.blk.acc ((b ^^^ 0xFF#8).setWidth 7) s.blk.idx)))

/-- 60_exceptions.md R123: end of stream, at whatever byte, ends the decode with SOURCE_EXHAUSTED and `RESULT` as it
was. That the read leaves `Source.pos` as it was is the model's choice (log 20; R12 moves it after a read). -/
def Obligations.EndOfStreamIsExhausted : Prop :=
  ∀ (s : State) (op : Instr) (id : Nat) (q : Source), isEncode op = false → s.Running op → s.HasSource id q →
    q.next = .serve → q.rest = [] → q.beyond = .nothing →
    ∃ t, exec op s = .next t ∧ s.blk.EndedAs 0x02#8 .none t.blk ∧ t = { s.sawEos id q with blk := t.blk }

/-- 60_exceptions.md R124: a failed read ends the decode with SOURCE_FAULT and the failure unchanged in `FAULT_INFO`;
what the source makes of itself is its own affair. -/
def Obligations.SourceFailureIsPassedOn : Prop :=
  ∀ (s : State) (op : Instr) (id : Nat) (q : Source) (f : SourceFault) (left : Option (List Byte × Nat)),
    isEncode op = false → s.Running op → s.HasSource id q → q.next = .fail f left →
    ∃ t, exec op s = .next t ∧ s.blk.EndedAs 0x03#8 (.source f) t.blk ∧ t = { s.refusedRead id q f left with blk :=
        t.blk }

/-- 41_decode.md R106: under PASS no decode ever completes with MALFORMED_VARINT. -/
def Obligations.PassNeverReportsMalformed : Prop :=
  ∀ (s t : State) (op : Instr), s.Running op → s.blk.policy = .pass → exec op s = .next t → t.blk.phase = .idle →
    t.blk.status ≠ 0x04#8

/-- 41_decode.md R104: in range the decode's combine is the group shifted to its place, within the width, and then `|`,
and for an accumulator below that place `xor` and `+` give the same; the opaque `OVERLONG_COMBINE_W`, here any `oc`, has
no part in it. -/
def Obligations.InRangeCombinesAgree : Prop :=
  (∀ (oc : OverlongCombine 32) (acc : BitVec 32) (g : Group) (i : Nat), i < nmax 32 → acc.toNat < 2 ^ (7 * i) →
    7 * i < 32 ∧ combine 32 oc acc g i = acc ||| g.setWidth 32 <<< (7 * i) ∧
    combine 32 oc acc g i = acc ^^^ g.setWidth 32 <<< (7 * i) ∧
    combine 32 oc acc g i = acc + g.setWidth 32 <<< (7 * i)) ∧
  (∀ (oc : OverlongCombine 64) (acc : BitVec 64) (g : Group) (i : Nat), i < nmax 64 → acc.toNat < 2 ^ (7 * i) →
    7 * i < 64 ∧ combine 64 oc acc g i = acc ||| g.setWidth 64 <<< (7 * i) ∧
    combine 64 oc acc g i = acc ^^^ g.setWidth 64 <<< (7 * i) ∧
    combine 64 oc acc g i = acc + g.setWidth 64 <<< (7 * i))

/-! ### Frames and whole-machine rules -/

/-- The frame of ENC32 and ENC64 (40_encode.md R84, R85): what a transition of an encode leaves as it was. `V` and, at
a completion, `STATUS`, `FAULT_INFO`, `BUSY` and `PHASE` may change, and at a completion `ACC` and `IDX` become
unspecified (R120). No sink but the attached one changes, and no source but the one it feeds. That both attachments stay
at a completion too is the model's choice (DESIGN CHOICE, log 11). -/
def Obligations.EncodeFrame : Prop :=
  ∀ (s t : State) (op : Instr), isEncode op = true → exec op s = .next t →
    (t.cur = s.cur ∧ t.others = s.others ∧ t.turns = s.turns ∧ t.hostGot = s.hostGot) ∧
    (t.blk.arg = s.blk.arg ∧ t.blk.argWritten = s.blk.argWritten ∧ t.blk.result = s.blk.result ∧
      t.blk.resultWritten = s.blk.resultWritten ∧ t.blk.sink = s.blk.sink ∧ t.blk.source = s.blk.source ∧
      t.blk.policy = s.blk.policy ∧ t.blk.started = s.blk.started) ∧
    (t.blk.phase = .run op → t.blk.acc = s.blk.acc ∧ t.blk.idx = s.blk.idx ∧ t.blk.status = s.blk.status ∧
      t.blk.faultInfo = s.blk.faultInfo) ∧
    (∀ j, s.blk.sink ≠ some j → t.sinks[j]? = s.sinks[j]?) ∧
    (∀ j, (∀ id k, s.HasSink id k → k.feeds ≠ some j) → t.sources[j]? = s.sources[j]?)

/-- The frame of DEC32 and DEC64 (41_decode.md R108, R109): what a transition of a decode leaves as it was. `ACC`, `IDX`
and, at a completion, `RESULT`, `STATUS`, `FAULT_INFO`, `BUSY` and `PHASE` may change, and at a completion `V` becomes
unspecified (R120). No sink changes, and no source but the attached one. That both attachments stay at a completion too
is the model's choice (DESIGN CHOICE, log 11). -/
def Obligations.DecodeFrame : Prop :=
  ∀ (s t : State) (op : Instr), isEncode op = false → exec op s = .next t →
    (t.cur = s.cur ∧ t.others = s.others ∧ t.turns = s.turns ∧ t.hostGot = s.hostGot) ∧
    (t.blk.arg = s.blk.arg ∧ t.blk.argWritten = s.blk.argWritten ∧ t.blk.sink = s.blk.sink ∧
      t.blk.source = s.blk.source ∧ t.blk.policy = s.blk.policy ∧ t.blk.started = s.blk.started) ∧
    (t.blk.phase = .run op → t.blk.v = s.blk.v ∧ t.blk.result = s.blk.result ∧
      t.blk.resultWritten = s.blk.resultWritten ∧ t.blk.status = s.blk.status ∧ t.blk.faultInfo = s.blk.faultInfo) ∧
    t.sinks = s.sinks ∧
    (∀ j, s.blk.source ≠ some j → t.sources[j]? = s.sources[j]?)

/-- Ordinary data never ends a run: the step of an operation in progress always has a next state, whatever the
registers, the streams and their answers hold (60_exceptions.md R121: every failure is a completion). -/
def Obligations.OperationInProgressNeverStops : Prop :=
  ∀ (s : State) (op : Instr), s.blk.phase = .run op → ∃ t, exec op s = .next t

/-- 10_state.md R26, R120 and 70_reset_and_hazards.md R144: a step of an operation either leaves the block busy with
every outcome register as it was, or completes it: idle, not busy, a code of R121 in `STATUS`, and `RESULT` written
only by a decode's OK. -/
def Obligations.StepGoesOnOrCompletes : Prop :=
  ∀ (s t : State) (op : Instr), s.Running op → exec op s = .next t →
    (t.blk.phase = .run op ∧ t.blk.busy = true ∧ t.blk.status = s.blk.status ∧ t.blk.faultInfo = s.blk.faultInfo ∧
      t.blk.result = s.blk.result ∧ t.blk.resultWritten = s.blk.resultWritten) ∨
    (∃ code info, s.blk.EndedAs code info t.blk ∧
      (isEncode op = true → code = 0x00#8 ∨ code = 0x01#8) ∧
      (isEncode op = false → code = 0x02#8 ∨ code = 0x03#8 ∨ code = 0x04#8)) ∨
    (isEncode op = false ∧
      { s.blk with result := t.blk.result, resultWritten := true }.EndedAs 0x00#8 .none t.blk)

/-- 20_memory.md R46 and 70_reset_and_hazards.md R151: a step of an operation whose stream answers performs exactly one
access, recorded under its block, and no step performs more than one. -/
def Obligations.OneAccessPerStep : Prop :=
  ∀ (s t : State) (op : Instr), exec op s = .next t →
    (t.history = s.history ∨ ∃ a, t.history = s.history ++ [⟨s.cur, a⟩]) ∧
    (s.Running op →
      (∀ id k, isEncode op = true → s.HasSink id k → k.next ≠ .wait → ∃ a, t.history = s.history ++ [⟨s.cur, a⟩]) ∧
      (∀ id q, isEncode op = false → s.HasSource id q → q.next ≠ .wait → ∃ a, t.history = s.history ++ [⟨s.cur, a⟩]))

/-- 10_state.md R23: over any step of the machine, a block whose `RESULT` counts as written had it written before
with the same value, or has just completed a decode OK. -/
def Obligations.ResultComesOnlyFromDecode : Prop :=
  ∀ (s t : State) (k : Nat) (b b' : Block), s.Inv → step s = .next t → s.blockAt k = some b →
    t.blockAt k = some b' → b'.resultWritten = true →
    (b.resultWritten = true ∧ b'.result = b.result) ∨
    (∃ op, isEncode op = false ∧ b.phase = .run op ∧ b'.phase = .idle ∧ b'.status = 0x00#8)

/-- 10_state.md R22 (the block never writes `ARG`): over any step, a block's `ARG` changes only by the host's write of
it or by a reset (whose value for `ARG` is the model's choice, log 1). -/
def Obligations.BlockNeverWritesArg : Prop :=
  ∀ (s t : State) (k : Nat) (b b' : Block), s.Inv → step s = .next t → s.blockAt k = some b →
    t.blockAt k = some b' → b'.arg ≠ b.arg →
    (∃ rest, s.turns = .host k (.writeArg b'.arg) :: rest) ∨ (∃ rest, s.turns = .host k .reset :: rest)

/-- 70_reset_and_hazards.md R146 and 10_state.md R22: `ARG` is sampled once, into `V` when an encode is accepted. The
host may write `ARG` while the block is busy; an operation in progress, and any decode, takes the same transition
whatever `ARG` holds. -/
def Obligations.ArgIsSampledOnce : Prop :=
  (∀ (s t : State) (op : Instr), isEncode op = true → s.Idle → exec op s = .next t →
    t.blk.v = (s.blk.arg.setWidth (width op)).setWidth 64) ∧
  (∀ (s : State) (x : Word64) (rest : List Turn), s.blk.busy = true → s.turns = .host s.cur (.writeArg x) :: rest →
    step s = .next { s with turns := rest, blk := { s.blk with arg := x, argWritten := true } }) ∧
  (∀ (s t : State) (op : Instr) (x : Word64), s.Running op ∨ isEncode op = false → exec op s = .next t →
    exec op { s with blk := { s.blk with arg := x } } = .next { t with blk := { t.blk with arg := x } })

/-- 10_state.md R22: ENC32 ignores `ARG[63:32]`. -/
def Obligations.Enc32IgnoresUpperArg : Prop :=
  ∀ (s t : State) (x : Word64), x.setWidth 32 = s.blk.arg.setWidth 32 → exec .enc32 s = .next t →
    exec .enc32 { s with blk := { s.blk with arg := x } } = .next { t with blk := { t.blk with arg := x } }

/-- 70_reset_and_hazards.md R147 and R142: while an operation goes on, its stream stays attached over every step, and
the policy of a block whose run has started never changes (over a reset too: the model's choice, log 8). -/
def Obligations.StreamsAndPolicyStayFixed : Prop :=
  ∀ (s t : State) (k : Nat) (b b' : Block), s.Inv → step s = .next t → s.blockAt k = some b →
    t.blockAt k = some b' →
    (b.started = true → b'.started = true ∧ b'.policy = b.policy) ∧
    (∀ op, b.phase = .run op → b'.phase = .run op →
      (isEncode op = true → b'.sink = b.sink) ∧ (isEncode op = false → b'.source = b.source))

/-! ### The host and reset -/

/-- 70_reset_and_hazards.md R141: reset, at any time, leaves every stream and the history as they are and the block
idle, `STATUS` 0x00, `FAULT_INFO` none, `RESULT` and `ARG` unwritten, nothing attached, at a step that makes no access;
nothing is said of the values the spec leaves unspecified. -/
def Obligations.ResetLeavesStreamsAlone : Prop :=
  ∀ (s : State) (rest : List Turn), s.turns = .host s.cur .reset :: rest →
    ∃ t, step s = .next t ∧ t = { s with
      turns := rest
      blk := { s.blk with
        busy := false, phase := .idle, status := 0x00#8, faultInfo := .none, argWritten := false
        resultWritten := false, sink := none, source := none
        arg := t.blk.arg, result := t.blk.result, v := t.blk.v, acc := t.blk.acc, idx := t.blk.idx
        policy := t.blk.policy, started := t.blk.started, draws := t.blk.draws } }

/-- 70_reset_and_hazards.md R153, R145: what a register read gives the host; it has no side effect, at any time, and a
read of an unwritten `RESULT` is a model fault. `hostGot` is the model's field (log 16), and an unwritten `ARG` reads as
the value the model names (log 1). -/
def Obligations.HostReadsRegisters : Prop :=
  ∀ (s : State) (rest : List Turn),
    (s.turns = .host s.cur (.read .status) :: rest →
      step s = .next { s with turns := rest, hostGot := some (.status s.blk.status) }) ∧
    (s.turns = .host s.cur (.read .faultInfo) :: rest →
      step s = .next { s with turns := rest, hostGot := some (.faultInfo s.blk.faultInfo) }) ∧
    (s.turns = .host s.cur (.read .busy) :: rest →
      step s = .next { s with turns := rest, hostGot := some (.busy s.blk.busy) }) ∧
    (s.turns = .host s.cur (.read .arg) :: rest →
      step s = .next { s with turns := rest, hostGot := some (.arg s.blk.arg) }) ∧
    (s.turns = .host s.cur (.read .result) :: rest → s.blk.resultWritten = true →
      step s = .next { s with turns := rest, hostGot := some (.result s.blk.result) }) ∧
    (s.turns = .host s.cur (.read .result) :: rest → s.blk.resultWritten = false →
      step s = .fault .resultUnwritten)

/-- 70_reset_and_hazards.md R146, R153: the host may write `ARG` at any time, and nothing else changes. -/
def Obligations.HostWritesArgAnyTime : Prop :=
  ∀ (s : State) (x : Word64) (rest : List Turn), s.turns = .host s.cur (.writeArg x) :: rest →
    step s = .next { s with turns := rest, blk := { s.blk with arg := x, argWritten := true } }

/-- 70_reset_and_hazards.md R147, R153: attaching a stream that exists works on a block that is idle or whose operation
uses the other kind of stream, as long as no other block's operation uses the stream; otherwise it is refused. Detaching
works on such a block too, and is refused while the operation uses that kind. The model's choices: how long an attachment
lasts (log 11), that a stream in use elsewhere is tested after the operation in progress here, and a missing one before
both (log 14), the refusal of a missing one (log 9), and what counts as one stream (log 19). -/
def Obligations.AttachmentRules : Prop :=
  ∀ (s : State) (id : Nat) (rest : List Turn),
    (s.turns = .host s.cur (.attachSink id) :: rest →
      (s.sinks.length ≤ id → step s = .refused .noSuchStream) ∧
      (id < s.sinks.length → s.Running .enc32 ∨ s.Running .enc64 → step s = .refused .streamSwapped) ∧
      (id < s.sinks.length → s.Idle ∨ s.Running .dec32 ∨ s.Running .dec64 →
        (sinkUsedElsewhere id s = false →
          step s = .next { s with turns := rest, blk := { s.blk with sink := some id } }) ∧
        (sinkUsedElsewhere id s = true → step s = .refused .streamShared))) ∧
    (s.turns = .host s.cur (.attachSource id) :: rest →
      (s.sources.length ≤ id → step s = .refused .noSuchStream) ∧
      (id < s.sources.length → s.Running .dec32 ∨ s.Running .dec64 → step s = .refused .streamSwapped) ∧
      (id < s.sources.length → s.Idle ∨ s.Running .enc32 ∨ s.Running .enc64 →
        (sourceUsedElsewhere id s = false →
          step s = .next { s with turns := rest, blk := { s.blk with source := some id } }) ∧
        (sourceUsedElsewhere id s = true → step s = .refused .streamShared))) ∧
    (s.turns = .host s.cur .detachSink :: rest →
      (s.Running .enc32 ∨ s.Running .enc64 → step s = .refused .streamDetached) ∧
      (s.Idle ∨ s.Running .dec32 ∨ s.Running .dec64 →
        step s = .next { s with turns := rest, blk := { s.blk with sink := none } })) ∧
    (s.turns = .host s.cur .detachSource :: rest →
      (s.Running .dec32 ∨ s.Running .dec64 → step s = .refused .streamDetached) ∧
      (s.Idle ∨ s.Running .enc32 ∨ s.Running .enc64 →
        step s = .next { s with turns := rest, blk := { s.blk with source := none } }))

/-- 70_reset_and_hazards.md R142, R153: the policy is fixed before the first issue and refused a change after it. -/
def Obligations.PolicyIsFixedBeforeFirstIssue : Prop :=
  ∀ (s : State) (p : OverlongPolicy) (rest : List Turn), s.turns = .host s.cur (.fixPolicy p) :: rest →
    (s.blk.started = false → step s = .next { s with turns := rest, blk := { s.blk with policy := p } }) ∧
    (s.blk.started = true → step s = .refused .policyChanged)

/-! ### The invariant -/

/-- Every start of a run has the invariant, with any number of instances (60_exceptions.md R133); that `State.reset`
has one is the model's choice (log 9). -/
def Obligations.ResetHasInvariant : Prop := State.reset.Inv ∧ ∀ n, (State.resetWith n).Inv

/-- Every step keeps the invariant: `BUSY` and `PHASE` agree (10_state.md R28), `STATUS` is a legal code (R24) that
`FAULT_INFO` agrees with (R25), `V` and `ACC` are W-bit values (R29, R30), `IDX` stays within the bound under REJECT
(41_decode.md R105), an encode runs only with `ARG` written (R37), no stream is used by two operations in progress
(20_memory.md R52), a connected pair counting as one stream (DEDUCED, log 19). -/
def Obligations.StepKeepsInvariant : Prop := ∀ s t : State, s.Inv → step s = .next t → t.Inv

/-! ### Several instances -/

/-- 60_exceptions.md R133 and 20_memory.md R51: a turn of one block leaves every other block as it is, and every stream
but its own and the source its sink feeds. -/
def Obligations.OtherBlocksAreUntouched : Prop :=
  ∀ (s t : State) (j k : Nat) (b : Block) (rest : List Turn), s.Inv →
    (s.turns = .engine j :: rest ∨ ∃ a, s.turns = .host j a :: rest) → step s = .next t → k ≠ j →
    t.blockAt k = s.blockAt k ∧
    (s.blockAt j = some b →
      (∀ i, b.sink ≠ some i → t.sinks[i]? = s.sinks[i]?) ∧
      (∀ i, b.source ≠ some i → (∀ id x, b.sink = some id → s.sinks[id]? = some x → x.feeds ≠ some i) →
        t.sources[i]? = s.sources[i]?))

/-- 20_memory.md R51: engine steps of two blocks may be taken in either order; every block and every stream ends the
same. The invariant says that operations in progress use independent streams (R52), an encode also the source its sink is
connected to (log 19), and nothing else is asked of the streams. -/
def Obligations.IndependentBlocksCommute : Prop :=
  ∀ (s : State) (i j : Nat) (a b : Block) (rest : List Turn), s.Inv → i ≠ j →
    s.blockAt i = some a → s.blockAt j = some b →
    ∃ t u, runs 2 { s with turns := .engine i :: .engine j :: rest } = .next t ∧
      runs 2 { s with turns := .engine j :: .engine i :: rest } = .next u ∧
      (∀ k, t.blockAt k = u.blockAt k) ∧ t.sinks = u.sinks ∧ t.sources = u.sources

/-! ### The wire format -/

/-- 30_encoding.md R60 to R62: the two kinds of byte, told apart by the sign. Every byte is the terminal or the
continuation byte of the group it carries, and each group has one byte of each kind. -/
def Obligations.EveryByteIsOneOfTwoKinds : Prop :=
  (∀ b : Byte, (isTerminal b = true ↔ b.toNat < 0x80) ∧ (isTerminal b = true ↔ 0 ≤ b.toInt) ∧
    (isTerminal b = true → b = term (groupOf b) ∧ (groupOf b).toNat = b.toNat) ∧
    (isTerminal b = false → b = cont (groupOf b) ∧ (groupOf b).toNat = (b ^^^ 0xFF#8).toNat)) ∧
  (∀ g : Group, isTerminal (term g) = true ∧ groupOf (term g) = g ∧ isTerminal (cont g) = false ∧ groupOf (cont g) = g)

/-- 30_encoding.md R64: the length is the number of bytes in the encoding and the least number of groups that holds the
value, between 1 and NMAX(W), which is 5 and 10. -/
def Obligations.LengthIsLeast : Prop :=
  (∀ v : BitVec 32, (encBytes v).length = encLen v ∧ 1 ≤ encLen v ∧ encLen v ≤ 5 ∧ v.toNat < 2 ^ (7 * encLen v) ∧
    ∀ m, 1 ≤ m → v.toNat < 2 ^ (7 * m) → encLen v ≤ m) ∧
  (∀ v : BitVec 64, (encBytes v).length = encLen v ∧ 1 ≤ encLen v ∧ encLen v ≤ 10 ∧ v.toNat < 2 ^ (7 * encLen v) ∧
    ∀ m, 1 ≤ m → v.toNat < 2 ^ (7 * m) → encLen v ≤ m)

/-- 40_encode.md R83: the loop gives exactly the closed form `enc_W(v)`. -/
def Obligations.EncodeLoopGivesClosedForm : Prop :=
  (∀ v : BitVec 32, encodeFn v = encBytes v) ∧ (∀ v : BitVec 64, encodeFn v = encBytes v)

/-- 40_encode.md R86 (a), (b), (d), (e), (g): length, shape, injective, no proper prefix,
    and agreement of the widths. -/
def Obligations.EncodingIsPrefixFree : Prop :=
  (∀ v : BitVec 32, (encBytes v).length = encLen v ∧ wellShaped (encBytes v) = true ∧
    encBytes v = encBytes (v.setWidth 64)) ∧
  (∀ v : BitVec 64, (encBytes v).length = encLen v ∧ wellShaped (encBytes v) = true) ∧
  (∀ v w : BitVec 32, encBytes v <+: encBytes w → v = w) ∧
  (∀ v w : BitVec 64, encBytes v <+: encBytes w → v = w)

/-- 30_encoding.md R68: exactly which sequences are canonical. -/
def Obligations.CanonicalSequences : Prop :=
  (∀ bs : List Byte, canonical 32 bs ↔ wellShaped bs = true ∧ bs.length ≤ 5 ∧
    (2 ≤ bs.length → bs.getLast? ≠ some 0x00#8) ∧
    (bs.length = 5 → ∀ b, bs.getLast? = some b → b.toNat < 0x10)) ∧
  (∀ bs : List Byte, canonical 64 bs ↔ wellShaped bs = true ∧ bs.length ≤ 10 ∧
    (2 ≤ bs.length → bs.getLast? ≠ some 0x00#8) ∧
    (bs.length = 10 → ∀ b, bs.getLast? = some b → b.toNat < 0x02))

/-- 30_encoding.md R67 and 41_decode.md R107: a sequence of at most NMAX(W) bytes with one terminal byte, its last,
decodes OK under either policy to the value it denotes, canonical or not, and nothing after it is read. -/
def Obligations.ShortSequencesDecode : Prop :=
  (∀ (oc : OverlongCombine 32) (p : OverlongPolicy) (bs t : List Byte) (e : DecodeEnd), wellShaped bs = true →
    bs.length ≤ 5 → decodeFn 32 oc p (bs ++ t) e = (.ok (wireValue 32 bs), bs.length)) ∧
  (∀ (oc : OverlongCombine 64) (p : OverlongPolicy) (bs t : List Byte) (e : DecodeEnd), wellShaped bs = true →
    bs.length ≤ 10 → decodeFn 64 oc p (bs ++ t) e = (.ok (wireValue 64 bs), bs.length))

/-- 41_decode.md R110: a decode of an encoding, whatever follows it, gives the value back after exactly its bytes,
under either policy and any `OVERLONG_COMBINE_W`. -/
def Obligations.RoundTrip : Prop :=
  (∀ (oc : OverlongCombine 32) (p : OverlongPolicy) (v : BitVec 32) (t : List Byte) (e : DecodeEnd),
    decodeFn 32 oc p (encBytes v ++ t) e = (.ok v, encLen v)) ∧
  (∀ (oc : OverlongCombine 64) (p : OverlongPolicy) (v : BitVec 64) (t : List Byte) (e : DecodeEnd),
    decodeFn 64 oc p (encBytes v ++ t) e = (.ok v, encLen v))

/-! ### Whole operations -/

/-- 40_encode.md R83 to R85: an encode issued to an idle block whose sink accepts every append takes one accepting step
and then `n_W(v)` steps, appends exactly `enc_W(v)`, and completes OK with `RESULT` as it was. A source connected to the
sink (20_memory.md R56) gains exactly these bytes, no other source changes, and `sink.pos` grows by their number (log 20). -/
def Obligations.EncodeAppendsItsEncoding : Prop :=
  ∀ (s : State) (op : Instr) (id : Nat) (k : Sink), isEncode op = true →
    s.turns = [.host s.cur (.issue (encode op))] → s.Idle → s.blk.argWritten = true → sharesSink s = false →
    s.HasSink id k → k.Accepts →
    ∃ t, runs (1 + encLen (s.blk.arg.setWidth (width op))) s = .next t ∧ t.finished ∧
      { s.blk with started := true }.EndedAs 0x00#8 .none t.blk ∧
      t.sinks = s.sinks.set id { k with
        bytes := k.bytes ++ encBytes (s.blk.arg.setWidth (width op))
        pos := k.pos + encLen (s.blk.arg.setWidth (width op)) } ∧
      (∀ j, k.feeds ≠ some j → t.sources[j]? = s.sources[j]?) ∧
      (∀ j q, k.feeds = some j → s.sources[j]? = some q →
        t.sources[j]? = some { q with rest := q.rest ++ encBytes (s.blk.arg.setWidth (width op)) }) ∧
      t.history = s.history ++ (encBytes (s.blk.arg.setWidth (width op))).map fun b => ⟨s.cur, .append b⟩

/-- 40_encode.md R87: when the sink accepts `n` bytes and refuses the next, the first `n` bytes of the encoding stay
appended, the failure is in `FAULT_INFO` unchanged and nothing is retried. What the refused append itself makes of the
sink is the sink's own affair, here any `left` (R41). A source connected to the sink (20_memory.md R56) gains the first
`n` bytes and nothing by the refused append (log 19), and `sink.pos` grows by `n` (log 20). -/
def Obligations.SinkFaultKeepsFirstBytes : Prop :=
  ∀ (s : State) (op : Instr) (id n : Nat) (k : Sink) (f : SinkFault) (left : Option (List Byte × Nat)),
    isEncode op = true → s.turns = [.host s.cur (.issue (encode op))] → s.Idle → s.blk.argWritten = true →
    sharesSink s = false → s.HasSink id k → n < encLen (s.blk.arg.setWidth (width op)) →
    k.answers = List.replicate n .ok ++ [.fail f left] →
    ∃ t, runs (1 + n + 1) s = .next t ∧ t.finished ∧
      { s.blk with started := true }.EndedAs 0x01#8 (.sink f) t.blk ∧
      t.sinks = s.sinks.set id { k with
        bytes := (left.map Prod.fst).getD (k.bytes ++ (encBytes (s.blk.arg.setWidth (width op))).take n)
        pos := (left.map Prod.snd).getD (k.pos + n)
        answers := [] } ∧
      (∀ j, k.feeds ≠ some j → t.sources[j]? = s.sources[j]?) ∧
      (∀ j q, k.feeds = some j → s.sources[j]? = some q →
        t.sources[j]? = some { q with rest := q.rest ++ (encBytes (s.blk.arg.setWidth (width op))).take n })

/-- 41_decode.md R107 to R109: a decode issued to an idle block behaves as the functional form says of the answers its
source gives: the outcome, the bytes consumed, `RESULT` written on OK only. `e` is how the source's bytes end. The source
has lost its first `c` bytes, the `c` of the functional form, and its `pos` has moved by `c`: that the read which meets end
of stream adds nothing is the model's choice (log 20). After a failure the source is as its own answer says (R124). -/
def Obligations.DecodeFollowsFunctionalForm : Prop :=
  (∀ (s : State) (id : Nat) (q : Source) (bs : List Byte) (e : DecodeEnd),
    s.turns = [.host s.cur (.issue 0x02#8)] → s.Idle → sharesSource s = false → s.HasSource id q → q.Plays bs e →
    ∃ n t, runs n s = .next t ∧ t.finished ∧ t.sinks = s.sinks ∧
      DecodeEnds s id q bs n t (decodeFn 32 Config.overlongCombine32 s.blk.policy bs e)) ∧
  (∀ (s : State) (id : Nat) (q : Source) (bs : List Byte) (e : DecodeEnd),
    s.turns = [.host s.cur (.issue 0x03#8)] → s.Idle → sharesSource s = false → s.HasSource id q → q.Plays bs e →
    ∃ n t, runs n s = .next t ∧ t.finished ∧ t.sinks = s.sinks ∧
      DecodeEnds s id q bs n t (decodeFn 64 Config.overlongCombine64 s.blk.policy bs e))

/-- 41_decode.md R105: under REJECT, when the first NMAX(W) bytes are all continuation bytes, the decode completes with
MALFORMED_VARINT after exactly NMAX(W) reads, the next byte unread and `RESULT` as it was. -/
def Obligations.OverlongInputIsRejectedAtTheBound : Prop :=
  ∀ (s : State) (op : Instr) (id : Nat) (q : Source) (bs rest : List Byte), isEncode op = false →
    s.turns = [.host s.cur (.issue (encode op))] → s.Idle → s.blk.policy = .reject → sharesSource s = false →
    s.HasSource id q → q.Serves → q.rest = bs ++ rest → bs.length = nmax (width op) →
    (∀ b ∈ bs, isTerminal b = false) →
    ∃ t, runs (1 + nmax (width op)) s = .next t ∧ t.finished ∧
      { s.blk with started := true }.EndedAs 0x04#8 .none t.blk ∧
      t.sources = s.sources.set id { q with rest := rest, pos := q.pos + nmax (width op) }

/-- 41_decode.md R111, 70_reset_and_hazards.md R151: under REJECT a decode in progress whose source answers every read
completes within NMAX(W) reads, whatever the source holds or answers. -/
def Obligations.RejectDecodesTerminate : Prop :=
  ∀ (s : State) (op : Instr) (id : Nat) (q : Source), isEncode op = false → s.Running op → s.turns = [] →
    s.blk.policy = .reject → s.blk.idx ≤ nmax (width op) - 1 → s.HasSource id q →
    (∀ a ∈ q.answers, a ≠ .wait) → q.thereafter ≠ .wait →
    ∃ n t, n ≤ nmax (width op) - s.blk.idx ∧ runs n s = .next t ∧ t.blk.phase = .idle

/-- 20_memory.md R56, 41_decode.md R110: on a sink connected to an empty source, an encode and then a decode of the same
width complete OK and give the operand back in `RESULT`, zero-extended, with the source empty again. -/
def Obligations.LoopbackRoundTrip : Prop :=
  ∀ (s : State) (enc dec : Instr) (i j : Nat) (k : Sink) (q : Source),
    (enc = .enc32 ∧ dec = .dec32) ∨ (enc = .enc64 ∧ dec = .dec64) →
    s.turns = [.host s.cur (.issue (encode enc)), .host s.cur (.issue (encode dec))] → s.Idle →
    s.blk.argWritten = true → sharesSink s = false → sharesSource s = false →
    s.HasSink i k → s.HasSource j q → k.Accepts → q.Serves → k.feeds = some j → q.rest = [] →
    ∃ n t, runs n s = .next t ∧ t.finished ∧ t.blk.status = 0x00#8 ∧ t.blk.faultInfo = .none ∧
      t.blk.resultWritten = true ∧ t.blk.result = (s.blk.arg.setWidth (width enc)).setWidth 64 ∧
      t.sinks = s.sinks.set i { k with
        bytes := k.bytes ++ encBytes (s.blk.arg.setWidth (width enc))
        pos := k.pos + encLen (s.blk.arg.setWidth (width enc)) } ∧
      ∃ q', t.sources[j]? = some q' ∧ q'.rest = []

/-! ### The assembler -/

/-- 30_encoding.md R73: the pattern of a value at each width, refused outside its range and never truncated. That a
hex value has a decimal's range is the model's reading (log 13). -/
def Obligations.AssemblerValuesAreNeverTruncated : Prop :=
  ∀ W, W = 32 ∨ W = 64 → ∀ n : Nat,
    ((AsmValue.decimal n).pattern W = if n < 2 ^ W then .ok (BitVec.ofNat W n) else .error .valueOutOfRange) ∧
    ((AsmValue.hex n).pattern W = if n < 2 ^ W then .ok (BitVec.ofNat W n) else .error .valueOutOfRange) ∧
    (1 ≤ n → n ≤ 2 ^ (W - 1) → ∃ p, (AsmValue.negative n).pattern W = .ok p ∧ p.toInt = -(n : Int)) ∧
    (n = 0 ∨ 2 ^ (W - 1) < n → (AsmValue.negative n).pattern W = .error .valueOutOfRange)

/-- 30_encoding.md R73: what each command is turned into. -/
def Obligations.CommandsBecomeHostActions : Prop :=
  (∀ x p, x.pattern 32 = .ok p → (AsmCommand.enc32 x).actions = .ok [.writeArg (p.setWidth 64), .issue 0x00#8]) ∧
  (∀ x p, x.pattern 64 = .ok p → (AsmCommand.enc64 x).actions = .ok [.writeArg p, .issue 0x01#8]) ∧
  AsmCommand.dec32.actions = .ok [.issue 0x02#8] ∧ AsmCommand.dec64.actions = .ok [.issue 0x03#8] ∧
  (∀ c, (AsmCommand.cmd c).actions = .ok [.issue c])

/-- 30_encoding.md R74: what a program's directives set up. In an assembled program each directive line gives its
field, and a field is set by no other line; `.source` and `.loopback` exclude each other; the failing append is counted
from 1. The source holds the bytes of `.source` and then end of stream, or nothing; the sink starts empty, is connected
under `.loopback`, and accepts every append but the k-th of `.sinkfail k name`, which leaves it unchanged. The run starts
from reset with these two streams and one block; its turns are that block's: the policy if one is set, the two
attachments, then the commands' actions in text order (the order of 70_reset_and_hazards.md R142). A directive is refused
after the first command and a second time, and so is `.sinkfail 0` (DEDUCED, log 13). That both `pos` start at 0 is the
model's choice (log 20), and so are the turns (logs 15 and 21). -/
def Obligations.DirectivesSetUpTheStreams : Prop :=
  (∀ ls p, assemble .empty ls = .ok p →
    (∀ bs, p.source = some bs ↔ .directive (.source bs) ∈ ls) ∧
    (p.loopback = true ↔ .directive .loopback ∈ ls) ∧
    (∀ x, p.policy = some x ↔ .directive (.policy x) ∈ ls) ∧
    (∀ k f, p.sinkfail = some (k, f) ↔ .directive (.sinkfail k f) ∈ ls) ∧
    ¬(p.source.isSome = true ∧ p.loopback = true) ∧ (∀ k f, p.sinkfail = some (k, f) → 1 ≤ k) ∧
    (∀ c as, c.actions = .ok as →
      assemble .empty (ls ++ [.command c]) = .ok { p with actions := p.actions ++ as })) ∧
  (∀ p : AsmSetup, p.byteSource = ⟨p.source.getD [], .nothing, 0, [], .serve⟩ ∧ p.byteSource.Serves ∧
    p.sink.bytes = [] ∧ p.sink.pos = 0 ∧ (p.loopback = true → p.sink.feeds = some 0) ∧
    (p.loopback = false → p.sink.feeds = none) ∧ (p.sinkfail = none → p.sink.Accepts) ∧
    p.launch = { State.reset with
      sinks := [p.sink]
      sources := [p.byteSource]
      turns := (p.policy.toList.map HostAction.fixPolicy ++ [HostAction.attachSink 0, HostAction.attachSource 0] ++
        p.actions).map (Turn.host 0) }) ∧
  (∀ (p : AsmSetup) (k : Nat) (f : SinkFault), p.sinkfail = some (k, f) → 1 ≤ k →
    ∀ n, p.sink.answers[n]?.getD p.sink.thereafter = if n + 1 = k then .fail f none else .ok) ∧
  (∀ (p : AsmSetup) (d : AsmDirective), p.actions ≠ [] → p.directive d = .error .badProgram) ∧
  (∀ (p : AsmSetup) (bs : List Byte) (x : OverlongPolicy) (k : Nat) (f : SinkFault),
    (p.source.isSome = true ∨ p.loopback = true →
      p.directive (.source bs) = .error .badProgram ∧ p.directive .loopback = .error .badProgram) ∧
    (p.policy.isSome = true → p.directive (.policy x) = .error .badProgram) ∧
    (p.sinkfail.isSome = true → p.directive (.sinkfail k f) = .error .badProgram) ∧
    p.directive (.sinkfail 0 f) = .error .badProgram)

/-! ### Turns of every block -/

/-- 60_exceptions.md R133 and 20_memory.md R51: a turn acts on the block it names. Its step is the step of the same
machine with that block in focus, of which the statements about the block in focus speak; every block, stream and turn is
as it was. A turn that names no block is refused (the model's choice, log 9; turns are log 15's). -/
def Obligations.TurnActsOnItsOwnBlock : Prop :=
  ∀ (s : State) (k : Nat) (rest : List Turn),
    (s.turns = .engine k :: rest ∨ ∃ a, s.turns = .host k a :: rest) →
    (∀ b, s.Inv → s.blockAt k = some b →
      ∃ m : State, m.cur = k ∧ m.blk = b ∧ (∀ j, m.blockAt j = s.blockAt j) ∧ m.sinks = s.sinks ∧
        m.sources = s.sources ∧ m.turns = s.turns ∧ m.history = s.history ∧ m.hostGot = s.hostGot ∧ m.Inv ∧
        step s = step m) ∧
    (s.blockAt k = none → step s = .refused .noSuchBlock)
end

