-- ==== Sys2Proof/Laws/State.lean ====
section
/-! SUPPORT. One lemma per field per update of the state and of a block, each true by `rfl`, so that no proof unfolds a
record update. -/

namespace Sys2Proof.Machine

/-! ### Updates of the state -/

/-! #### `State.onBlk` -/

@[simp] theorem State.onBlk_cur (f : Block → Block) (s : State) : (s.onBlk f).cur = s.cur := rfl
@[simp] theorem State.onBlk_blk (f : Block → Block) (s : State) : (s.onBlk f).blk = f s.blk := rfl
@[simp] theorem State.onBlk_others (f : Block → Block) (s : State) : (s.onBlk f).others = s.others := rfl
@[simp] theorem State.onBlk_sinks (f : Block → Block) (s : State) : (s.onBlk f).sinks = s.sinks := rfl
@[simp] theorem State.onBlk_sources (f : Block → Block) (s : State) : (s.onBlk f).sources = s.sources := rfl
@[simp] theorem State.onBlk_turns (f : Block → Block) (s : State) : (s.onBlk f).turns = s.turns := rfl
@[simp] theorem State.onBlk_history (f : Block → Block) (s : State) : (s.onBlk f).history = s.history := rfl
@[simp] theorem State.onBlk_hostGot (f : Block → Block) (s : State) : (s.onBlk f).hostGot = s.hostGot := rfl

/-! #### `State.putSink` -/

@[simp] theorem State.putSink_cur (id : Nat) (k : Sink) (s : State) : (s.putSink id k).cur = s.cur := rfl
@[simp] theorem State.putSink_blk (id : Nat) (k : Sink) (s : State) : (s.putSink id k).blk = s.blk := rfl
@[simp] theorem State.putSink_others (id : Nat) (k : Sink) (s : State) : (s.putSink id k).others = s.others := rfl
@[simp] theorem State.putSink_sinks (id : Nat) (k : Sink) (s : State) : (s.putSink id k).sinks = s.sinks.set id k := rfl
@[simp] theorem State.putSink_sources (id : Nat) (k : Sink) (s : State) : (s.putSink id k).sources = s.sources := rfl
@[simp] theorem State.putSink_turns (id : Nat) (k : Sink) (s : State) : (s.putSink id k).turns = s.turns := rfl
@[simp] theorem State.putSink_history (id : Nat) (k : Sink) (s : State) : (s.putSink id k).history = s.history := rfl
@[simp] theorem State.putSink_hostGot (id : Nat) (k : Sink) (s : State) : (s.putSink id k).hostGot = s.hostGot := rfl

/-! #### `State.putSource` -/

@[simp] theorem State.putSource_cur (id : Nat) (q : Source) (s : State) : (s.putSource id q).cur = s.cur := rfl
@[simp] theorem State.putSource_blk (id : Nat) (q : Source) (s : State) : (s.putSource id q).blk = s.blk := rfl
@[simp] theorem State.putSource_others (id : Nat) (q : Source) (s : State) : (s.putSource id q).others = s.others := rfl
@[simp] theorem State.putSource_sinks (id : Nat) (q : Source) (s : State) : (s.putSource id q).sinks = s.sinks := rfl
@[simp] theorem State.putSource_sources (id : Nat) (q : Source) (s : State) :
    (s.putSource id q).sources = s.sources.set id q := rfl
@[simp] theorem State.putSource_turns (id : Nat) (q : Source) (s : State) : (s.putSource id q).turns = s.turns := rfl
@[simp] theorem State.putSource_history (id : Nat) (q : Source) (s : State) : (s.putSource id q).history = s.history :=
    rfl
@[simp] theorem State.putSource_hostGot (id : Nat) (q : Source) (s : State) : (s.putSource id q).hostGot = s.hostGot :=
    rfl

/-! #### `State.record` -/

@[simp] theorem State.record_cur (a : Access) (s : State) : (s.record a).cur = s.cur := rfl
@[simp] theorem State.record_blk (a : Access) (s : State) : (s.record a).blk = s.blk := rfl
@[simp] theorem State.record_others (a : Access) (s : State) : (s.record a).others = s.others := rfl
@[simp] theorem State.record_sinks (a : Access) (s : State) : (s.record a).sinks = s.sinks := rfl
@[simp] theorem State.record_sources (a : Access) (s : State) : (s.record a).sources = s.sources := rfl
@[simp] theorem State.record_turns (a : Access) (s : State) : (s.record a).turns = s.turns := rfl
@[simp] theorem State.record_history (a : Access) (s : State) : (s.record a).history = s.history ++ [⟨s.cur, a⟩] := rfl
@[simp] theorem State.record_hostGot (a : Access) (s : State) : (s.record a).hostGot = s.hostGot := rfl

/-! #### `State.popTurn` -/

@[simp] theorem State.popTurn_cur (s : State) : (s.popTurn).cur = s.cur := rfl
@[simp] theorem State.popTurn_blk (s : State) : (s.popTurn).blk = s.blk := rfl
@[simp] theorem State.popTurn_others (s : State) : (s.popTurn).others = s.others := rfl
@[simp] theorem State.popTurn_sinks (s : State) : (s.popTurn).sinks = s.sinks := rfl
@[simp] theorem State.popTurn_sources (s : State) : (s.popTurn).sources = s.sources := rfl
@[simp] theorem State.popTurn_turns (s : State) : (s.popTurn).turns = s.turns.tail := rfl
@[simp] theorem State.popTurn_history (s : State) : (s.popTurn).history = s.history := rfl
@[simp] theorem State.popTurn_hostGot (s : State) : (s.popTurn).hostGot = s.hostGot := rfl

/-! #### `State.give` -/

@[simp] theorem State.give_cur (x : HostValue) (s : State) : (s.give x).cur = s.cur := rfl
@[simp] theorem State.give_blk (x : HostValue) (s : State) : (s.give x).blk = s.blk := rfl
@[simp] theorem State.give_others (x : HostValue) (s : State) : (s.give x).others = s.others := rfl
@[simp] theorem State.give_sinks (x : HostValue) (s : State) : (s.give x).sinks = s.sinks := rfl
@[simp] theorem State.give_sources (x : HostValue) (s : State) : (s.give x).sources = s.sources := rfl
@[simp] theorem State.give_turns (x : HostValue) (s : State) : (s.give x).turns = s.turns := rfl
@[simp] theorem State.give_history (x : HostValue) (s : State) : (s.give x).history = s.history := rfl
@[simp] theorem State.give_hostGot (x : HostValue) (s : State) : (s.give x).hostGot = some x := rfl

/-! #### `complete` -/

@[simp] theorem complete_cur (c : Completion) (s : State) : (complete c s).cur = s.cur := rfl
@[simp] theorem complete_blk (c : Completion) (s : State) : (complete c s).blk = s.blk.completed c s.cur := rfl
@[simp] theorem complete_others (c : Completion) (s : State) : (complete c s).others = s.others := rfl
@[simp] theorem complete_sinks (c : Completion) (s : State) : (complete c s).sinks = s.sinks := rfl
@[simp] theorem complete_sources (c : Completion) (s : State) : (complete c s).sources = s.sources := rfl
@[simp] theorem complete_turns (c : Completion) (s : State) : (complete c s).turns = s.turns := rfl
@[simp] theorem complete_history (c : Completion) (s : State) : (complete c s).history = s.history := rfl
@[simp] theorem complete_hostGot (c : Completion) (s : State) : (complete c s).hostGot = s.hostGot := rfl

/-! #### `completeDecode` -/

@[simp] theorem completeDecode_cur (r : Word64) (s : State) : (completeDecode r s).cur = s.cur := rfl
@[simp] theorem completeDecode_blk (r : Word64) (s : State) :
    (completeDecode r s).blk = { s.blk.completed .ok s.cur with result := r, resultWritten := true } := rfl
@[simp] theorem completeDecode_others (r : Word64) (s : State) : (completeDecode r s).others = s.others := rfl
@[simp] theorem completeDecode_sinks (r : Word64) (s : State) : (completeDecode r s).sinks = s.sinks := rfl
@[simp] theorem completeDecode_sources (r : Word64) (s : State) : (completeDecode r s).sources = s.sources := rfl
@[simp] theorem completeDecode_turns (r : Word64) (s : State) : (completeDecode r s).turns = s.turns := rfl
@[simp] theorem completeDecode_history (r : Word64) (s : State) : (completeDecode r s).history = s.history := rfl
@[simp] theorem completeDecode_hostGot (r : Word64) (s : State) : (completeDecode r s).hostGot = s.hostGot := rfl

/-! #### `illegalCommand` -/

@[simp] theorem illegalCommand_cur (s : State) : (illegalCommand s).cur = s.cur := rfl
@[simp] theorem illegalCommand_blk (s : State) : (illegalCommand s).blk = { s.blk with status := 0x05#8, faultInfo :=
    .none } := rfl
@[simp] theorem illegalCommand_others (s : State) : (illegalCommand s).others = s.others := rfl
@[simp] theorem illegalCommand_sinks (s : State) : (illegalCommand s).sinks = s.sinks := rfl
@[simp] theorem illegalCommand_sources (s : State) : (illegalCommand s).sources = s.sources := rfl
@[simp] theorem illegalCommand_turns (s : State) : (illegalCommand s).turns = s.turns := rfl
@[simp] theorem illegalCommand_history (s : State) : (illegalCommand s).history = s.history := rfl
@[simp] theorem illegalCommand_hostGot (s : State) : (illegalCommand s).hostGot = s.hostGot := rfl

/-! #### `resetBlock` -/

@[simp] theorem resetBlock_cur (s : State) : (resetBlock s).cur = s.cur := rfl
@[simp] theorem resetBlock_blk (s : State) : (resetBlock s).blk = s.blk.afterReset := rfl
@[simp] theorem resetBlock_others (s : State) : (resetBlock s).others = s.others := rfl
@[simp] theorem resetBlock_sinks (s : State) : (resetBlock s).sinks = s.sinks := rfl
@[simp] theorem resetBlock_sources (s : State) : (resetBlock s).sources = s.sources := rfl
@[simp] theorem resetBlock_turns (s : State) : (resetBlock s).turns = s.turns := rfl
@[simp] theorem resetBlock_history (s : State) : (resetBlock s).history = s.history := rfl
@[simp] theorem resetBlock_hostGot (s : State) : (resetBlock s).hostGot = s.hostGot := rfl

/-! #### `placeIssue` -/

@[simp] theorem placeIssue_cur (c : Byte) (s : State) : (placeIssue c s).cur = s.cur := rfl
@[simp] theorem placeIssue_blk (c : Byte) (s : State) : (placeIssue c s).blk = s.blk.readyFor c := rfl
@[simp] theorem placeIssue_others (c : Byte) (s : State) : (placeIssue c s).others = s.others := rfl
@[simp] theorem placeIssue_sinks (c : Byte) (s : State) : (placeIssue c s).sinks = s.sinks := rfl
@[simp] theorem placeIssue_sources (c : Byte) (s : State) : (placeIssue c s).sources = s.sources := rfl
@[simp] theorem placeIssue_turns (c : Byte) (s : State) : (placeIssue c s).turns = .host s.cur (.issue c) :: s.turns :=
    rfl
@[simp] theorem placeIssue_history (c : Byte) (s : State) : (placeIssue c s).history = s.history := rfl
@[simp] theorem placeIssue_hostGot (c : Byte) (s : State) : (placeIssue c s).hostGot = s.hostGot := rfl

/-! ### Updates of a block -/

/-! #### `Block.completed` -/

@[simp] theorem Block.completed_arg (c : Completion) (me : Nat) (b : Block) : (b.completed c me).arg = b.arg := rfl
@[simp] theorem Block.completed_argWritten (c : Completion) (me : Nat) (b : Block) :
    (b.completed c me).argWritten = b.argWritten := rfl
@[simp] theorem Block.completed_result (c : Completion) (me : Nat) (b : Block) :
    (b.completed c me).result = b.result := rfl
@[simp] theorem Block.completed_resultWritten (c : Completion) (me : Nat) (b : Block) :
    (b.completed c me).resultWritten = b.resultWritten := rfl
@[simp] theorem Block.completed_status (c : Completion) (me : Nat) (b : Block) :
    (b.completed c me).status = statusCode c := rfl
@[simp] theorem Block.completed_faultInfo (c : Completion) (me : Nat) (b : Block) :
    (b.completed c me).faultInfo = completionInfo c := rfl
@[simp] theorem Block.completed_busy (c : Completion) (me : Nat) (b : Block) : (b.completed c me).busy = false := rfl
@[simp] theorem Block.completed_phase (c : Completion) (me : Nat) (b : Block) : (b.completed c me).phase = .idle := rfl
@[simp] theorem Block.completed_v (c : Completion) (me : Nat) (b : Block) :
    (b.completed c me).v = Config.freeV me b.draws := rfl
@[simp] theorem Block.completed_acc (c : Completion) (me : Nat) (b : Block) :
    (b.completed c me).acc = Config.freeAcc me b.draws := rfl
@[simp] theorem Block.completed_idx (c : Completion) (me : Nat) (b : Block) :
    (b.completed c me).idx = Config.freeIdx me b.draws := rfl
@[simp] theorem Block.completed_sink (c : Completion) (me : Nat) (b : Block) : (b.completed c me).sink = b.sink := rfl
@[simp] theorem Block.completed_source (c : Completion) (me : Nat) (b : Block) :
    (b.completed c me).source = b.source := rfl
@[simp] theorem Block.completed_policy (c : Completion) (me : Nat) (b : Block) :
    (b.completed c me).policy = b.policy := rfl
@[simp] theorem Block.completed_started (c : Completion) (me : Nat) (b : Block) :
    (b.completed c me).started = b.started := rfl
@[simp] theorem Block.completed_draws (c : Completion) (me : Nat) (b : Block) :
    (b.completed c me).draws = b.draws + 1 := rfl

/-! #### `Block.encodeAccepted` -/

@[simp] theorem Block.encodeAccepted_arg (W : Nat) (op : Instr) (b : Block) : (b.encodeAccepted W op).arg = b.arg := rfl
@[simp] theorem Block.encodeAccepted_argWritten (W : Nat) (op : Instr) (b : Block) :
    (b.encodeAccepted W op).argWritten = b.argWritten := rfl
@[simp] theorem Block.encodeAccepted_result (W : Nat) (op : Instr) (b : Block) :
    (b.encodeAccepted W op).result = b.result := rfl
@[simp] theorem Block.encodeAccepted_resultWritten (W : Nat) (op : Instr) (b : Block) :
    (b.encodeAccepted W op).resultWritten = b.resultWritten := rfl
@[simp] theorem Block.encodeAccepted_status (W : Nat) (op : Instr) (b : Block) :
    (b.encodeAccepted W op).status = b.status := rfl
@[simp] theorem Block.encodeAccepted_faultInfo (W : Nat) (op : Instr) (b : Block) :
    (b.encodeAccepted W op).faultInfo = b.faultInfo := rfl
@[simp] theorem Block.encodeAccepted_busy (W : Nat) (op : Instr) (b : Block) : (b.encodeAccepted W op).busy = true :=
    rfl
@[simp] theorem Block.encodeAccepted_phase (W : Nat) (op : Instr) (b : Block) :
    (b.encodeAccepted W op).phase = .run op := rfl
@[simp] theorem Block.encodeAccepted_v (W : Nat) (op : Instr) (b : Block) : (b.encodeAccepted W op).v =
    (operand W b.arg).setWidth 64 := rfl
@[simp] theorem Block.encodeAccepted_acc (W : Nat) (op : Instr) (b : Block) : (b.encodeAccepted W op).acc = b.acc := rfl
@[simp] theorem Block.encodeAccepted_idx (W : Nat) (op : Instr) (b : Block) : (b.encodeAccepted W op).idx = b.idx := rfl
@[simp] theorem Block.encodeAccepted_sink (W : Nat) (op : Instr) (b : Block) : (b.encodeAccepted W op).sink = b.sink :=
    rfl
@[simp] theorem Block.encodeAccepted_source (W : Nat) (op : Instr) (b : Block) :
    (b.encodeAccepted W op).source = b.source := rfl
@[simp] theorem Block.encodeAccepted_policy (W : Nat) (op : Instr) (b : Block) :
    (b.encodeAccepted W op).policy = b.policy := rfl
@[simp] theorem Block.encodeAccepted_started (W : Nat) (op : Instr) (b : Block) :
    (b.encodeAccepted W op).started = b.started := rfl
@[simp] theorem Block.encodeAccepted_draws (W : Nat) (op : Instr) (b : Block) :
    (b.encodeAccepted W op).draws = b.draws := rfl

/-! #### `Block.decodeAccepted` -/

@[simp] theorem Block.decodeAccepted_arg (op : Instr) (b : Block) : (b.decodeAccepted op).arg = b.arg := rfl
@[simp] theorem Block.decodeAccepted_argWritten (op : Instr) (b : Block) :
    (b.decodeAccepted op).argWritten = b.argWritten := rfl
@[simp] theorem Block.decodeAccepted_result (op : Instr) (b : Block) : (b.decodeAccepted op).result = b.result := rfl
@[simp] theorem Block.decodeAccepted_resultWritten (op : Instr) (b : Block) :
    (b.decodeAccepted op).resultWritten = b.resultWritten := rfl
@[simp] theorem Block.decodeAccepted_status (op : Instr) (b : Block) : (b.decodeAccepted op).status = b.status := rfl
@[simp] theorem Block.decodeAccepted_faultInfo (op : Instr) (b : Block) :
    (b.decodeAccepted op).faultInfo = b.faultInfo := rfl
@[simp] theorem Block.decodeAccepted_busy (op : Instr) (b : Block) : (b.decodeAccepted op).busy = true := rfl
@[simp] theorem Block.decodeAccepted_phase (op : Instr) (b : Block) : (b.decodeAccepted op).phase = .run op := rfl
@[simp] theorem Block.decodeAccepted_v (op : Instr) (b : Block) : (b.decodeAccepted op).v = b.v := rfl
@[simp] theorem Block.decodeAccepted_acc (op : Instr) (b : Block) : (b.decodeAccepted op).acc = 0 := rfl
@[simp] theorem Block.decodeAccepted_idx (op : Instr) (b : Block) : (b.decodeAccepted op).idx = 0 := rfl
@[simp] theorem Block.decodeAccepted_sink (op : Instr) (b : Block) : (b.decodeAccepted op).sink = b.sink := rfl
@[simp] theorem Block.decodeAccepted_source (op : Instr) (b : Block) : (b.decodeAccepted op).source = b.source := rfl
@[simp] theorem Block.decodeAccepted_policy (op : Instr) (b : Block) : (b.decodeAccepted op).policy = b.policy := rfl
@[simp] theorem Block.decodeAccepted_started (op : Instr) (b : Block) : (b.decodeAccepted op).started = b.started := rfl
@[simp] theorem Block.decodeAccepted_draws (op : Instr) (b : Block) : (b.decodeAccepted op).draws = b.draws := rfl

/-! #### `Block.loadV` -/

@[simp] theorem Block.loadV_arg (W : Nat) (x : BitVec W) (b : Block) : (b.loadV W x).arg = b.arg := rfl
@[simp] theorem Block.loadV_argWritten (W : Nat) (x : BitVec W) (b : Block) :
    (b.loadV W x).argWritten = b.argWritten := rfl
@[simp] theorem Block.loadV_result (W : Nat) (x : BitVec W) (b : Block) : (b.loadV W x).result = b.result := rfl
@[simp] theorem Block.loadV_resultWritten (W : Nat) (x : BitVec W) (b : Block) :
    (b.loadV W x).resultWritten = b.resultWritten := rfl
@[simp] theorem Block.loadV_status (W : Nat) (x : BitVec W) (b : Block) : (b.loadV W x).status = b.status := rfl
@[simp] theorem Block.loadV_faultInfo (W : Nat) (x : BitVec W) (b : Block) : (b.loadV W x).faultInfo = b.faultInfo :=
    rfl
@[simp] theorem Block.loadV_busy (W : Nat) (x : BitVec W) (b : Block) : (b.loadV W x).busy = b.busy := rfl
@[simp] theorem Block.loadV_phase (W : Nat) (x : BitVec W) (b : Block) : (b.loadV W x).phase = b.phase := rfl
@[simp] theorem Block.loadV_v (W : Nat) (x : BitVec W) (b : Block) : (b.loadV W x).v = x.setWidth 64 := rfl
@[simp] theorem Block.loadV_acc (W : Nat) (x : BitVec W) (b : Block) : (b.loadV W x).acc = b.acc := rfl
@[simp] theorem Block.loadV_idx (W : Nat) (x : BitVec W) (b : Block) : (b.loadV W x).idx = b.idx := rfl
@[simp] theorem Block.loadV_sink (W : Nat) (x : BitVec W) (b : Block) : (b.loadV W x).sink = b.sink := rfl
@[simp] theorem Block.loadV_source (W : Nat) (x : BitVec W) (b : Block) : (b.loadV W x).source = b.source := rfl
@[simp] theorem Block.loadV_policy (W : Nat) (x : BitVec W) (b : Block) : (b.loadV W x).policy = b.policy := rfl
@[simp] theorem Block.loadV_started (W : Nat) (x : BitVec W) (b : Block) : (b.loadV W x).started = b.started := rfl
@[simp] theorem Block.loadV_draws (W : Nat) (x : BitVec W) (b : Block) : (b.loadV W x).draws = b.draws := rfl

/-! #### `Block.combined` -/

@[simp] theorem Block.combined_arg (W : Nat) (x : BitVec W) (b : Block) : (b.combined W x).arg = b.arg := rfl
@[simp] theorem Block.combined_argWritten (W : Nat) (x : BitVec W) (b : Block) :
    (b.combined W x).argWritten = b.argWritten := rfl
@[simp] theorem Block.combined_result (W : Nat) (x : BitVec W) (b : Block) : (b.combined W x).result = b.result := rfl
@[simp] theorem Block.combined_resultWritten (W : Nat) (x : BitVec W) (b : Block) :
    (b.combined W x).resultWritten = b.resultWritten := rfl
@[simp] theorem Block.combined_status (W : Nat) (x : BitVec W) (b : Block) : (b.combined W x).status = b.status := rfl
@[simp] theorem Block.combined_faultInfo (W : Nat) (x : BitVec W) (b : Block) :
    (b.combined W x).faultInfo = b.faultInfo := rfl
@[simp] theorem Block.combined_busy (W : Nat) (x : BitVec W) (b : Block) : (b.combined W x).busy = b.busy := rfl
@[simp] theorem Block.combined_phase (W : Nat) (x : BitVec W) (b : Block) : (b.combined W x).phase = b.phase := rfl
@[simp] theorem Block.combined_v (W : Nat) (x : BitVec W) (b : Block) : (b.combined W x).v = b.v := rfl
@[simp] theorem Block.combined_acc (W : Nat) (x : BitVec W) (b : Block) : (b.combined W x).acc = x.setWidth 64 := rfl
@[simp] theorem Block.combined_idx (W : Nat) (x : BitVec W) (b : Block) : (b.combined W x).idx = b.idx + 1 := rfl
@[simp] theorem Block.combined_sink (W : Nat) (x : BitVec W) (b : Block) : (b.combined W x).sink = b.sink := rfl
@[simp] theorem Block.combined_source (W : Nat) (x : BitVec W) (b : Block) : (b.combined W x).source = b.source := rfl
@[simp] theorem Block.combined_policy (W : Nat) (x : BitVec W) (b : Block) : (b.combined W x).policy = b.policy := rfl
@[simp] theorem Block.combined_started (W : Nat) (x : BitVec W) (b : Block) : (b.combined W x).started = b.started :=
    rfl
@[simp] theorem Block.combined_draws (W : Nat) (x : BitVec W) (b : Block) : (b.combined W x).draws = b.draws := rfl

/-! #### `Block.afterReset` -/

@[simp] theorem Block.afterReset_arg (b : Block) : (b.afterReset).arg = 0 := rfl
@[simp] theorem Block.afterReset_argWritten (b : Block) : (b.afterReset).argWritten = false := rfl
@[simp] theorem Block.afterReset_result (b : Block) : (b.afterReset).result = 0 := rfl
@[simp] theorem Block.afterReset_resultWritten (b : Block) : (b.afterReset).resultWritten = false := rfl
@[simp] theorem Block.afterReset_status (b : Block) : (b.afterReset).status = 0x00#8 := rfl
@[simp] theorem Block.afterReset_faultInfo (b : Block) : (b.afterReset).faultInfo = .none := rfl
@[simp] theorem Block.afterReset_busy (b : Block) : (b.afterReset).busy = false := rfl
@[simp] theorem Block.afterReset_phase (b : Block) : (b.afterReset).phase = .idle := rfl
@[simp] theorem Block.afterReset_v (b : Block) : (b.afterReset).v = 0 := rfl
@[simp] theorem Block.afterReset_acc (b : Block) : (b.afterReset).acc = 0 := rfl
@[simp] theorem Block.afterReset_idx (b : Block) : (b.afterReset).idx = 0 := rfl
@[simp] theorem Block.afterReset_sink (b : Block) : (b.afterReset).sink = none := rfl
@[simp] theorem Block.afterReset_source (b : Block) : (b.afterReset).source = none := rfl
@[simp] theorem Block.afterReset_policy (b : Block) : (b.afterReset).policy = b.policy := rfl
@[simp] theorem Block.afterReset_started (b : Block) : (b.afterReset).started = b.started := rfl
@[simp] theorem Block.afterReset_draws (b : Block) : (b.afterReset).draws = b.draws := rfl

/-! #### `Block.readyFor` -/

@[simp] theorem Block.readyFor_arg (c : Byte) (b : Block) : (b.readyFor c).arg = b.arg := rfl
@[simp] theorem Block.readyFor_argWritten (c : Byte) (b : Block) : (b.readyFor c).argWritten =
    (b.argWritten || readsArg c) := rfl
@[simp] theorem Block.readyFor_result (c : Byte) (b : Block) : (b.readyFor c).result = b.result := rfl
@[simp] theorem Block.readyFor_resultWritten (c : Byte) (b : Block) : (b.readyFor c).resultWritten = b.resultWritten :=
    rfl
@[simp] theorem Block.readyFor_status (c : Byte) (b : Block) : (b.readyFor c).status = b.status := rfl
@[simp] theorem Block.readyFor_faultInfo (c : Byte) (b : Block) : (b.readyFor c).faultInfo = b.faultInfo := rfl
@[simp] theorem Block.readyFor_busy (c : Byte) (b : Block) : (b.readyFor c).busy = false := rfl
@[simp] theorem Block.readyFor_phase (c : Byte) (b : Block) : (b.readyFor c).phase = .idle := rfl
@[simp] theorem Block.readyFor_v (c : Byte) (b : Block) : (b.readyFor c).v = b.v := rfl
@[simp] theorem Block.readyFor_acc (c : Byte) (b : Block) : (b.readyFor c).acc = b.acc := rfl
@[simp] theorem Block.readyFor_idx (c : Byte) (b : Block) : (b.readyFor c).idx = b.idx := rfl
@[simp] theorem Block.readyFor_sink (c : Byte) (b : Block) : (b.readyFor c).sink = b.sink := rfl
@[simp] theorem Block.readyFor_source (c : Byte) (b : Block) : (b.readyFor c).source = b.source := rfl
@[simp] theorem Block.readyFor_policy (c : Byte) (b : Block) : (b.readyFor c).policy = b.policy := rfl
@[simp] theorem Block.readyFor_started (c : Byte) (b : Block) : (b.readyFor c).started = b.started := rfl
@[simp] theorem Block.readyFor_draws (c : Byte) (b : Block) : (b.readyFor c).draws = b.draws := rfl

/-! ### Updates of a sink and of a source -/

@[simp] theorem Sink.push_bytes (b : Byte) (k : Sink) : (k.push b).bytes = k.bytes ++ [b] := rfl
@[simp] theorem Sink.push_pos (b : Byte) (k : Sink) : (k.push b).pos = k.pos + 1 := rfl
@[simp] theorem Sink.push_feeds (b : Byte) (k : Sink) : (k.push b).feeds = k.feeds := rfl
@[simp] theorem Sink.push_answers (b : Byte) (k : Sink) : (k.push b).answers = k.answers := rfl
@[simp] theorem Sink.push_thereafter (b : Byte) (k : Sink) : (k.push b).thereafter = k.thereafter := rfl
@[simp] theorem Sink.afterFail_none (k : Sink) : k.afterFail none = k := rfl
@[simp] theorem Sink.afterFail_some (bytes : List Byte) (pos : Nat) (k : Sink) :
    k.afterFail (some (bytes, pos)) = { k with bytes := bytes, pos := pos } := rfl
@[simp] theorem Source.afterFail_none (q : Source) : q.afterFail none = q := rfl
@[simp] theorem Source.afterFail_some (rest : List Byte) (pos : Nat) (q : Source) :
    q.afterFail (some (rest, pos)) = { q with rest := rest, pos := pos } := rfl

end Sys2Proof.Machine
end

