-- ==== Sys2Proof/Laws/Ops.lean ====
section
/-! SUPPORT. What each shared operation can do, said once: the stream accesses, the acceptances and the two families'
steps. Later proofs cite these and do not unfold the operations. -/

namespace Sys2Proof.Machine

/-! ### Streams -/

theorem Sink.reply_eq (k : Sink) : k.reply = (k.next, { k with answers := k.answers.tail }) := by
  obtain ⟨bytes, pos, feeds, answers, thereafter⟩ := k
  cases answers <;> rfl

theorem Source.reply_eq (q : Source) : q.reply = (q.next, { q with answers := q.answers.tail }) := by
  obtain ⟨rest, beyond, pos, answers, thereafter⟩ := q
  cases answers <;> rfl

theorem feed_eq (target : Option Nat) (b : Byte) (s : State) :
    feed target b s = { s with sources := gainByte target b s.sources } := by
  cases target with
  | none => rfl
  | some j =>
    cases h : s.sources[j]? with
    | none =>
      have hj : s.sources.length ≤ j := by simpa using h
      simp [feed, h, gainByte, List.modify_eq_self hj]
    | some q =>
      simp only [feed, h, gainByte, State.putSource]
      rw [List.modify_eq_set_getElem?]
      simp [h]

theorem Source.take_of_has {q : Source} {b : Byte} {rest : List Byte} (h : q.Has b rest) :
    q.take = some (b, { q with rest := rest, pos := q.pos + 1 }) := by
  rcases h with h | ⟨h, h'⟩ | ⟨h, rfl, seed, h', rfl⟩
  · simp [Source.take, h]
  · simp [Source.take, h, h']
  · cases q
    simp_all [Source.take]

theorem Source.take_of_empty {q : Source} (h : q.Empty) : q.take = none := by
  simp [Source.take, h.1, h.2]

/-! ### SinkAppend and SourceRead -/

theorem sinkAppend_none {b : Byte} {s : State} (h : s.blk.sink = none) : sinkAppend b s = (.held, s) := by
  simp [sinkAppend, h]

theorem sinkAppend_missing {b : Byte} {s : State} {id : Nat} (h : s.blk.sink = some id) (h' : s.sinks[id]? = none) :
    sinkAppend b s = (.held, s) := by
  simp [sinkAppend, h, h']

theorem sinkAppend_wait {b : Byte} {s : State} {id : Nat} {k : Sink} (h : s.HasSink id k) (hk : k.next = .wait) :
    sinkAppend b s = (.held, { s with sinks := s.sinks.set id { k with answers := k.answers.tail } }) := by
  simp [sinkAppend, h.1, h.2, Sink.reply_eq, hk, State.putSink]

theorem sinkAppend_ok {b : Byte} {s : State} {id : Nat} {k : Sink} (h : s.HasSink id k) (hk : k.next = .ok) :
    sinkAppend b s = (.ok, s.appended id k b) := by
  simp [sinkAppend, h.1, h.2, Sink.reply_eq, hk, State.putSink, feed_eq, State.record, State.appended, Sink.push]

theorem sinkAppend_fail {b : Byte} {s : State} {id : Nat} {k : Sink} {f : SinkFault}
    {left : Option (List Byte × Nat)} (h : s.HasSink id k) (hk : k.next = .fail f left) :
    sinkAppend b s = (.fail f, s.refusedAppend id k b f left) := by
  cases left <;>
    simp [sinkAppend, h.1, h.2, Sink.reply_eq, hk, State.putSink, State.record, State.refusedAppend, Sink.afterFail]

/-- Every way a `SinkAppend` can go. -/
theorem sinkAppend_cases (b : Byte) (s : State) :
    ((∀ id k, ¬ s.HasSink id k) ∧ sinkAppend b s = (.held, s)) ∨
    ∃ id k, s.HasSink id k ∧
      ((k.next = .wait ∧
          sinkAppend b s = (.held, { s with sinks := s.sinks.set id { k with answers := k.answers.tail } })) ∨
        (k.next = .ok ∧ sinkAppend b s = (.ok, s.appended id k b)) ∨
        ∃ f left, k.next = .fail f left ∧ sinkAppend b s = (.fail f, s.refusedAppend id k b f left)) := by
  cases h : s.blk.sink with
  | none => exact .inl ⟨fun id k hk => by simp [hk.1] at h, sinkAppend_none h⟩
  | some id =>
    cases h' : s.sinks[id]? with
    | none =>
      refine .inl ⟨fun i k hk => ?_, sinkAppend_missing h h'⟩
      obtain rfl : i = id := by simpa [h] using hk.1.symm
      simp [hk.2] at h'
    | some k =>
      refine .inr ⟨id, k, ⟨h, h'⟩, ?_⟩
      cases hk : k.next with
      | wait => exact .inl ⟨rfl, sinkAppend_wait ⟨h, h'⟩ hk⟩
      | ok => exact .inr (.inl ⟨rfl, sinkAppend_ok ⟨h, h'⟩ hk⟩)
      | fail f left => exact .inr (.inr ⟨f, left, rfl, sinkAppend_fail ⟨h, h'⟩ hk⟩)

theorem sinkAppend_unattached {b : Byte} {s : State} (h : ∀ id k, ¬ s.HasSink id k) :
    sinkAppend b s = (.held, s) := by
  rcases sinkAppend_cases b s with ⟨-, h'⟩ | ⟨id, k, hk, -⟩
  · exact h'
  · exact absurd hk (h id k)

theorem sourceRead_none {s : State} (h : s.blk.source = none) : sourceRead s = (.held, s) := by
  simp [sourceRead, h]

theorem sourceRead_missing {s : State} {id : Nat} (h : s.blk.source = some id) (h' : s.sources[id]? = none) :
    sourceRead s = (.held, s) := by
  simp [sourceRead, h, h']

theorem sourceRead_wait {s : State} {id : Nat} {q : Source} (h : s.HasSource id q) (hq : q.next = .wait) :
    sourceRead s = (.held, { s with sources := s.sources.set id { q with answers := q.answers.tail } }) := by
  simp [sourceRead, h.1, h.2, Source.reply_eq, hq, State.putSource]

theorem sourceRead_byte {s : State} {id : Nat} {q : Source} {b : Byte} {rest : List Byte} (h : s.HasSource id q)
    (hq : q.next = .serve) (hb : q.Has b rest) : sourceRead s = (.byte b, s.consumed id q b rest) := by
  have ht : ({ q with answers := q.answers.tail } : Source).take =
      some (b, { q with answers := q.answers.tail, rest := rest, pos := q.pos + 1 }) :=
    Source.take_of_has (q := { q with answers := q.answers.tail }) hb
  simp only [sourceRead, h.1, h.2, Source.reply_eq, hq, ht]
  rfl

theorem sourceRead_eos {s : State} {id : Nat} {q : Source} (h : s.HasSource id q) (hq : q.next = .serve)
    (he : q.Empty) : sourceRead s = (.eos, s.sawEos id q) := by
  have ht : ({ q with answers := q.answers.tail } : Source).take = none :=
    Source.take_of_empty (q := { q with answers := q.answers.tail }) he
  simp only [sourceRead, h.1, h.2, Source.reply_eq, hq, ht]
  rfl

theorem sourceRead_fail {s : State} {id : Nat} {q : Source} {f : SourceFault} {left : Option (List Byte × Nat)}
    (h : s.HasSource id q) (hq : q.next = .fail f left) :
    sourceRead s = (.fail f, s.refusedRead id q f left) := by
  cases left <;>
    simp [sourceRead, h.1, h.2, Source.reply_eq, hq, State.putSource, State.record, State.refusedRead,
      Source.afterFail]

theorem Source.has_or_empty (q : Source) : (∃ b rest, q.Has b rest) ∨ q.Empty := by
  cases h : q.rest with
  | cons b t => exact .inl ⟨b, t, .inl h⟩
  | nil =>
    cases h' : q.beyond with
    | nothing => exact .inr ⟨h, h'⟩
    | cycle b t => exact .inl ⟨b, t, .inr (.inl ⟨h, h'⟩)⟩
    | endless seed => exact .inl ⟨_, [], .inr (.inr ⟨h, rfl, seed, h', rfl⟩)⟩

/-- Every way a `SourceRead` can go. -/
theorem sourceRead_cases (s : State) :
    ((∀ id q, ¬ s.HasSource id q) ∧ sourceRead s = (.held, s)) ∨
    ∃ id q, s.HasSource id q ∧
      ((q.next = .wait ∧
          sourceRead s = (.held, { s with sources := s.sources.set id { q with answers := q.answers.tail } })) ∨
        (∃ b rest, q.next = .serve ∧ q.Has b rest ∧ sourceRead s = (.byte b, s.consumed id q b rest)) ∨
        (q.next = .serve ∧ q.Empty ∧ sourceRead s = (.eos, s.sawEos id q)) ∨
        ∃ f left, q.next = .fail f left ∧ sourceRead s = (.fail f, s.refusedRead id q f left)) := by
  cases h : s.blk.source with
  | none => exact .inl ⟨fun id q hq => by simp [hq.1] at h, sourceRead_none h⟩
  | some id =>
    cases h' : s.sources[id]? with
    | none =>
      refine .inl ⟨fun i q hq => ?_, sourceRead_missing h h'⟩
      obtain rfl : i = id := by simpa [h] using hq.1.symm
      simp [hq.2] at h'
    | some q =>
      refine .inr ⟨id, q, ⟨h, h'⟩, ?_⟩
      cases hq : q.next with
      | wait => exact .inl ⟨rfl, sourceRead_wait ⟨h, h'⟩ hq⟩
      | fail f left => exact .inr (.inr (.inr ⟨f, left, rfl, sourceRead_fail ⟨h, h'⟩ hq⟩))
      | serve =>
        rcases q.has_or_empty with ⟨b, rest, hb⟩ | he
        · exact .inr (.inl ⟨b, rest, rfl, hb, sourceRead_byte ⟨h, h'⟩ hq hb⟩)
        · exact .inr (.inr (.inl ⟨rfl, he, sourceRead_eos ⟨h, h'⟩ hq he⟩))

theorem sourceRead_unattached {s : State} (h : ∀ id q, ¬ s.HasSource id q) : sourceRead s = (.held, s) := by
  rcases sourceRead_cases s with ⟨-, h'⟩ | ⟨id, q, hq, -⟩
  · exact h'
  · exact absurd hq (h id q)

/-! ### The two families, uniformly -/

/-- The `OVERLONG_COMBINE_W` of a decode; encodes have none, and any stands for it. -/
def overlongOf : (op : Instr) → OverlongCombine (width op)
  | .enc32 => Config.overlongCombine32
  | .enc64 => Config.overlongCombine64
  | .dec32 => Config.overlongCombine32
  | .dec64 => Config.overlongCombine64

theorem exec_encode {op : Instr} (h : isEncode op = true) (s : State) : exec op s = encodeOp (width op) op s := by
  cases op <;> first | rfl | cases h

theorem exec_decode {op : Instr} (h : isEncode op = false) (s : State) :
    exec op s = decodeOp (width op) (overlongOf op) op s := by
  cases op <;> first | rfl | cases h

/-- The byte an encode step appends: terminal when nothing is left of the value (R82; R81 is the case 0, R88). -/
def stepByte {W : Nat} (v : BitVec W) : Byte :=
  if v >>> 7 = 0 then term (v.setWidth 7) else cont (v.setWidth 7)

/-- What an accepted encode step does to the block after its append. -/
def stepRest {W : Nat} (v : BitVec W) : State → State :=
  if v >>> 7 = 0 then complete .ok else State.onBlk (Block.loadV W (v >>> 7))

/-- R88: the zero step is the iteration step at 0. -/
theorem encodeStep_uniform (W : Nat) (s : State) :
    encodeStep W s = appendStep (stepByte (s.blk.v.setWidth W)) (stepRest (s.blk.v.setWidth W)) s := by
  unfold encodeStep stepByte stepRest
  generalize s.blk.v.setWidth W = v
  by_cases h : v = 0
  · subst h
    simp [term]
  · by_cases h' : v >>> 7 = 0 <;> simp only [if_neg h, h', if_true, if_false]

/-- Every way an encode step can go. -/
theorem encodeStep_cases (W : Nat) (s : State) :
    ((∀ id k, ¬ s.HasSink id k) ∧ encodeStep W s = .next s) ∨
    ∃ id k, s.HasSink id k ∧
      ((k.next = .wait ∧
          encodeStep W s = .next { s with sinks := s.sinks.set id { k with answers := k.answers.tail } }) ∨
        (k.next = .ok ∧ encodeStep W s =
          .next (stepRest (s.blk.v.setWidth W) (s.appended id k (stepByte (s.blk.v.setWidth W))))) ∨
        ∃ f left, k.next = .fail f left ∧ encodeStep W s =
          .next (complete (.sinkFault f) (s.refusedAppend id k (stepByte (s.blk.v.setWidth W)) f left))) := by
  rw [encodeStep_uniform]
  unfold appendStep
  rcases sinkAppend_cases (stepByte (s.blk.v.setWidth W)) s with ⟨hn, h⟩ | ⟨id, k, hk, h⟩
  · exact .inl ⟨hn, by simp [h]⟩
  · refine .inr ⟨id, k, hk, ?_⟩
    rcases h with ⟨hn, h⟩ | ⟨hn, h⟩ | ⟨f, left, hn, h⟩
    · simp [h, hn]
    · simp [h, hn]
    · simp [h, hn]

/-- What a decode step does with the byte it has read. -/
def byteStep (W : Nat) (oc : OverlongCombine W) (b : Byte) (s : State) : State :=
  if isTerminal b then terminalStep W oc b s else continuationStep W oc b s

/-- Every way a decode step can go. -/
theorem decodeStep_cases (W : Nat) (oc : OverlongCombine W) (s : State) :
    ((∀ id q, ¬ s.HasSource id q) ∧ decodeStep W oc s = .next s) ∨
    ∃ id q, s.HasSource id q ∧
      ((q.next = .wait ∧
          decodeStep W oc s = .next { s with sources := s.sources.set id { q with answers := q.answers.tail } }) ∨
        (∃ b rest, q.next = .serve ∧ q.Has b rest ∧
          decodeStep W oc s = .next (byteStep W oc b (s.consumed id q b rest))) ∨
        (q.next = .serve ∧ q.Empty ∧
          decodeStep W oc s = .next (complete .sourceExhausted (s.sawEos id q))) ∨
        ∃ f left, q.next = .fail f left ∧
          decodeStep W oc s = .next (complete (.sourceFault f) (s.refusedRead id q f left))) := by
  unfold decodeStep
  rcases sourceRead_cases s with ⟨hn, h⟩ | ⟨id, q, hq, h⟩
  · exact .inl ⟨hn, by simp [h]⟩
  · refine .inr ⟨id, q, hq, ?_⟩
    rcases h with ⟨hn, h⟩ | ⟨b, rest, hn, hb, h⟩ | ⟨hn, he, h⟩ | ⟨f, left, hn, h⟩
    · exact .inl ⟨hn, by simp [h]⟩
    · exact .inr (.inl ⟨b, rest, hn, hb, by simp [h, byteStep]⟩)
    · exact .inr (.inr (.inl ⟨hn, he, by simp [h]⟩))
    · exact .inr (.inr (.inr ⟨f, left, hn, by simp [h]⟩))

theorem exec_running_encode {op : Instr} {s : State} (h : isEncode op = true) (hr : s.blk.phase = .run op) :
    exec op s = encodeStep (width op) s := by
  simp [exec_encode h, encodeOp, hr]

theorem exec_running_decode {op : Instr} {s : State} (h : isEncode op = false) (hr : s.blk.phase = .run op) :
    exec op s = decodeStep (width op) (overlongOf op) s := by
  simp [exec_decode h, decodeOp, hr]

/-- Every way the transition of an encode can go. -/
theorem exec_encode_cases {op : Instr} {s : State} (h : isEncode op = true) :
    (s.blk.phase = .run op ∧ exec op s = encodeStep (width op) s) ∨
    (s.blk.phase ≠ .run op ∧ ¬ s.Idle ∧ exec op s = .next s) ∨
    (s.Idle ∧ sharesSink s = false ∧ s.blk.argWritten = true ∧
      exec op s = .next (s.onBlk (Block.encodeAccepted (width op) op))) ∨
    (s.Idle ∧ (exec op s = .refused .streamShared ∨ exec op s = .fault .argUnwritten)) := by
  rw [exec_encode h]
  unfold encodeOp
  cases hp : s.blk.phase with
  | run op' => by_cases h' : op' = op <;> simp [h', State.Idle, hp]
  | idle =>
    cases hb : s.blk.busy with
    | true => simp [State.Idle, hb]
    | false =>
      cases hs : sharesSink s with
      | true => simp [acceptEncode, hs, State.Idle, hb, hp]
      | false =>
        cases ha : s.blk.argWritten <;> simp [acceptEncode, hs, ha, State.Idle, hb, hp]

/-- Every way the transition of a decode can go. -/
theorem exec_decode_cases {op : Instr} {s : State} (h : isEncode op = false) :
    (s.blk.phase = .run op ∧ exec op s = decodeStep (width op) (overlongOf op) s) ∨
    (s.blk.phase ≠ .run op ∧ ¬ s.Idle ∧ exec op s = .next s) ∨
    (s.Idle ∧ sharesSource s = false ∧ exec op s = .next (s.onBlk (Block.decodeAccepted op))) ∨
    (s.Idle ∧ exec op s = .refused .streamShared) := by
  rw [exec_decode h]
  unfold decodeOp
  cases hp : s.blk.phase with
  | run op' => by_cases h' : op' = op <;> simp [h', State.Idle, hp]
  | idle =>
    cases hb : s.blk.busy with
    | true => simp [State.Idle, hb]
    | false => cases hs : sharesSource s <;> simp [acceptDecode, hs, State.Idle, hb, hp]

end Sys2Proof.Machine
end

