-- ==== Sys2Proof/Laws/Steps.lean ====
section
/-! SUPPORT. The families' steps by the answer of the stream, what a completion leaves, and the frames of the stream
updates. -/

namespace Sys2Proof.Machine

/-! ### Fields of the stream updates -/

@[simp] theorem State.appended_blk (s : State) (id k b) : (s.appended id k b).blk = s.blk := rfl
@[simp] theorem State.appended_cur (s : State) (id k b) : (s.appended id k b).cur = s.cur := rfl
@[simp] theorem State.appended_others (s : State) (id k b) : (s.appended id k b).others = s.others := rfl
@[simp] theorem State.appended_turns (s : State) (id k b) : (s.appended id k b).turns = s.turns := rfl
@[simp] theorem State.appended_hostGot (s : State) (id k b) : (s.appended id k b).hostGot = s.hostGot := rfl
@[simp] theorem State.refusedAppend_blk (s : State) (id k b f l) : (s.refusedAppend id k b f l).blk = s.blk := rfl
@[simp] theorem State.refusedAppend_cur (s : State) (id k b f l) : (s.refusedAppend id k b f l).cur = s.cur := rfl
@[simp] theorem State.refusedAppend_others (s : State) (id k b f l) :
    (s.refusedAppend id k b f l).others = s.others := rfl
@[simp] theorem State.refusedAppend_sources (s : State) (id k b f l) :
    (s.refusedAppend id k b f l).sources = s.sources := rfl
@[simp] theorem State.refusedAppend_turns (s : State) (id k b f l) :
    (s.refusedAppend id k b f l).turns = s.turns := rfl
@[simp] theorem State.refusedAppend_hostGot (s : State) (id k b f l) :
    (s.refusedAppend id k b f l).hostGot = s.hostGot := rfl
@[simp] theorem State.consumed_blk (s : State) (id q b r) : (s.consumed id q b r).blk = s.blk := rfl
@[simp] theorem State.consumed_cur (s : State) (id q b r) : (s.consumed id q b r).cur = s.cur := rfl
@[simp] theorem State.consumed_others (s : State) (id q b r) : (s.consumed id q b r).others = s.others := rfl
@[simp] theorem State.consumed_sinks (s : State) (id q b r) : (s.consumed id q b r).sinks = s.sinks := rfl
@[simp] theorem State.consumed_turns (s : State) (id q b r) : (s.consumed id q b r).turns = s.turns := rfl
@[simp] theorem State.consumed_hostGot (s : State) (id q b r) : (s.consumed id q b r).hostGot = s.hostGot := rfl
@[simp] theorem State.sawEos_blk (s : State) (id q) : (s.sawEos id q).blk = s.blk := rfl
@[simp] theorem State.sawEos_cur (s : State) (id q) : (s.sawEos id q).cur = s.cur := rfl
@[simp] theorem State.sawEos_others (s : State) (id q) : (s.sawEos id q).others = s.others := rfl
@[simp] theorem State.sawEos_sinks (s : State) (id q) : (s.sawEos id q).sinks = s.sinks := rfl
@[simp] theorem State.sawEos_turns (s : State) (id q) : (s.sawEos id q).turns = s.turns := rfl
@[simp] theorem State.sawEos_hostGot (s : State) (id q) : (s.sawEos id q).hostGot = s.hostGot := rfl
@[simp] theorem State.refusedRead_blk (s : State) (id q f l) : (s.refusedRead id q f l).blk = s.blk := rfl
@[simp] theorem State.refusedRead_cur (s : State) (id q f l) : (s.refusedRead id q f l).cur = s.cur := rfl
@[simp] theorem State.refusedRead_others (s : State) (id q f l) : (s.refusedRead id q f l).others = s.others := rfl
@[simp] theorem State.refusedRead_sinks (s : State) (id q f l) : (s.refusedRead id q f l).sinks = s.sinks := rfl
@[simp] theorem State.refusedRead_turns (s : State) (id q f l) : (s.refusedRead id q f l).turns = s.turns := rfl
@[simp] theorem State.refusedRead_hostGot (s : State) (id q f l) : (s.refusedRead id q f l).hostGot = s.hostGot := rfl

/-- Only the source a sink feeds gains a byte. -/
theorem gainByte_other {target : Option Nat} {b : Byte} {qs : List Source} {j : Nat} (h : target ≠ some j) :
    (gainByte target b qs)[j]? = qs[j]? := by
  cases target with
  | none => rfl
  | some i =>
    have : i ≠ j := fun e => h (by rw [e])
    simp [gainByte, this]

@[simp] theorem gainByte_length (target : Option Nat) (b : Byte) (qs : List Source) :
    (gainByte target b qs).length = qs.length := by
  cases target <;> simp [gainByte]

/-- The source a sink feeds gains the byte at its end. -/
theorem gainByte_fed {j : Nat} {b : Byte} {qs : List Source} {q : Source} (h : qs[j]? = some q) :
    (gainByte (some j) b qs)[j]? = some { q with rest := q.rest ++ [b] } := by
  simp [gainByte, h]

/-- A sink put back with its connection as it was leaves every connection as it was. -/
theorem fedBy_set {ks : List Sink} {id : Nat} {k k' : Sink} (h : ks[id]? = some k) (hf : k'.feeds = k.feeds)
    (i : Nat) : fedBy (ks.set id k') i = fedBy ks i := by
  by_cases hi : id = i
  · subst hi
    have hl : id < ks.length := (List.getElem?_eq_some_iff.1 h).1
    simp [fedBy, hl, hf, (List.getElem?_eq_some_iff.1 h).2]
  · simp [fedBy, hi]

/-! ### Streams in use -/

theorem sinkUsedElsewhere_eq_false {id : Nat} {s : State} : sinkUsedElsewhere id s = false ↔
    (∀ p ∈ s.others, p.2.sinkInUse ≠ some id) ∧
      ∀ j, fedBy s.sinks id = some j → ∀ p ∈ s.others, p.2.sourceInUse s.sinks ≠ some j := by
  unfold sinkUsedElsewhere sourceUsedElsewhere
  cases fedBy s.sinks id <;> simp

theorem sourceUsedElsewhere_eq_false {id : Nat} {s : State} : sourceUsedElsewhere id s = false ↔
    ∀ p ∈ s.others, p.2.sourceInUse s.sinks ≠ some id := by
  simp [sourceUsedElsewhere]

/-- An encode in progress uses its sink, and the source that sink is connected to. -/
theorem inUse_of_encode {b : Block} {op : Instr} (ks : List Sink) (he : isEncode op = true) (hp : b.phase = .run op) :
    b.sinkInUse = b.sink ∧ b.sourceInUse ks = b.sink.bind (fedBy ks) := by
  simp [Block.sinkInUse, Block.sourceInUse, hp, he]

/-- A decode in progress uses its source and no sink. -/
theorem inUse_of_decode {b : Block} {op : Instr} (ks : List Sink) (he : isEncode op = false) (hp : b.phase = .run op) :
    b.sinkInUse = none ∧ b.sourceInUse ks = b.source := by
  simp [Block.sinkInUse, Block.sourceInUse, hp, he]

/-- An idle block uses no stream. -/
theorem inUse_of_idle {b : Block} (ks : List Sink) (hp : b.phase = .idle) :
    b.sinkInUse = none ∧ b.sourceInUse ks = none := by
  simp [Block.sinkInUse, Block.sourceInUse, hp]

/-! ### Completion -/

theorem Block.completed_endedAs (b : Block) (c : Completion) (me : Nat) :
    b.EndedAs (statusCode c) (completionInfo c) (b.completed c me) := rfl

/-! ### The encode step by the sink's answer -/

theorem encodeStep_wait {W : Nat} {s : State} {id : Nat} {k : Sink} (h : s.HasSink id k) (hn : k.next = .wait) :
    encodeStep W s = .next { s with sinks := s.sinks.set id { k with answers := k.answers.tail } } := by
  rw [encodeStep_uniform, appendStep, sinkAppend_wait h hn]

theorem encodeStep_ok {W : Nat} {s : State} {id : Nat} {k : Sink} (h : s.HasSink id k) (hn : k.next = .ok) :
    encodeStep W s =
      .next (stepRest (s.blk.v.setWidth W) (s.appended id k (stepByte (s.blk.v.setWidth W)))) := by
  rw [encodeStep_uniform, appendStep, sinkAppend_ok h hn]

theorem encodeStep_fail {W : Nat} {s : State} {id : Nat} {k : Sink} {f : SinkFault}
    {left : Option (List Byte × Nat)} (h : s.HasSink id k) (hn : k.next = .fail f left) :
    encodeStep W s =
      .next (complete (.sinkFault f) (s.refusedAppend id k (stepByte (s.blk.v.setWidth W)) f left)) := by
  rw [encodeStep_uniform, appendStep, sinkAppend_fail h hn]

/-- After its append an encode completes or writes `V`. -/
theorem stepRest_cases {W : Nat} (v : BitVec W) (s : State) :
    (v >>> 7 = 0 ∧ stepRest v s = complete .ok s) ∨
    (v >>> 7 ≠ 0 ∧ stepRest v s = s.onBlk (Block.loadV W (v >>> 7))) := by
  unfold stepRest
  by_cases h : v >>> 7 = 0
  · exact .inl ⟨h, by rw [if_pos h]⟩
  · exact .inr ⟨h, by rw [if_neg h]⟩

@[simp] theorem stepRest_sinks {W : Nat} (v : BitVec W) (s : State) : (stepRest v s).sinks = s.sinks := by
  rcases stepRest_cases v s with ⟨-, h⟩ | ⟨-, h⟩ <;> rw [h] <;> rfl

@[simp] theorem stepRest_sources {W : Nat} (v : BitVec W) (s : State) : (stepRest v s).sources = s.sources := by
  rcases stepRest_cases v s with ⟨-, h⟩ | ⟨-, h⟩ <;> rw [h] <;> rfl

/-! ### The decode step by the source's answer -/

theorem decodeStep_wait {W : Nat} {oc : OverlongCombine W} {s : State} {id : Nat} {q : Source}
    (h : s.HasSource id q) (hn : q.next = .wait) :
    decodeStep W oc s = .next { s with sources := s.sources.set id { q with answers := q.answers.tail } } := by
  rw [decodeStep, sourceRead_wait h hn]

theorem decodeStep_byte {W : Nat} {oc : OverlongCombine W} {s : State} {id : Nat} {q : Source} {b : Byte}
    {rest : List Byte} (h : s.HasSource id q) (hn : q.next = .serve) (hb : q.Has b rest) :
    decodeStep W oc s = .next (byteStep W oc b (s.consumed id q b rest)) := by
  rw [decodeStep, sourceRead_byte h hn hb]
  rfl

theorem decodeStep_eos {W : Nat} {oc : OverlongCombine W} {s : State} {id : Nat} {q : Source}
    (h : s.HasSource id q) (hn : q.next = .serve) (he : q.Empty) :
    decodeStep W oc s = .next (complete .sourceExhausted (s.sawEos id q)) := by
  rw [decodeStep, sourceRead_eos h hn he]

theorem decodeStep_fail {W : Nat} {oc : OverlongCombine W} {s : State} {id : Nat} {q : Source} {f : SourceFault}
    {left : Option (List Byte × Nat)} (h : s.HasSource id q) (hn : q.next = .fail f left) :
    decodeStep W oc s = .next (complete (.sourceFault f) (s.refusedRead id q f left)) := by
  rw [decodeStep, sourceRead_fail h hn]

/-- With its byte read a decode completes OK, is malformed, or combines and goes on. -/
theorem byteStep_cases (W : Nat) (oc : OverlongCombine W) (b : Byte) (s : State) :
    (isTerminal b = true ∧ byteStep W oc b s =
      completeDecode ((combine W oc (s.blk.accAt W) (groupOf b) s.blk.idx).setWidth 64) s) ∨
    (isTerminal b = false ∧ atBound W s.blk = true ∧ byteStep W oc b s = complete .malformedVarint s) ∨
    (isTerminal b = false ∧ atBound W s.blk = false ∧ byteStep W oc b s =
      s.onBlk (Block.combined W (combine W oc (s.blk.accAt W) (groupOf b) s.blk.idx))) := by
  unfold byteStep terminalStep continuationStep
  cases isTerminal b <;> cases atBound W s.blk <;> simp

@[simp] theorem byteStep_sinks (W : Nat) (oc : OverlongCombine W) (b : Byte) (s : State) :
    (byteStep W oc b s).sinks = s.sinks := by
  rcases byteStep_cases W oc b s with ⟨-, h⟩ | ⟨-, -, h⟩ | ⟨-, -, h⟩ <;> rw [h] <;> rfl

@[simp] theorem byteStep_sources (W : Nat) (oc : OverlongCombine W) (b : Byte) (s : State) :
    (byteStep W oc b s).sources = s.sources := by
  rcases byteStep_cases W oc b s with ⟨-, h⟩ | ⟨-, -, h⟩ | ⟨-, -, h⟩ <;> rw [h] <;> rfl

/-- A decode step leaves every sink as it was. -/
theorem decodeStep_sinks {W : Nat} {oc : OverlongCombine W} {s t : State} (h : decodeStep W oc s = .next t) :
    t.sinks = s.sinks := by
  rcases decodeStep_cases W oc s with ⟨-, h2⟩ | ⟨id, q, hk, ⟨-, h2⟩ | ⟨b, rest, -, -, h2⟩ | ⟨-, -, h2⟩ | ⟨f, left, -,
    h2⟩⟩ <;> rw [h2] at h <;> cases h
  · rfl
  · rfl
  · rw [byteStep_sinks]
    rfl
  · rfl
  · rfl

theorem isTerminal_iff (b : Byte) : isTerminal b = true ↔ b.toNat < 0x80 := by
  revert b
  decide

/-! ### Turns -/

@[simp] theorem focus_self (s : State) : focus s.cur s = some s := by
  simp [focus]

/-- The engine of an idle block waits. -/
theorem engineStep_idle {s : State} (h : s.blk.phase = .idle) : engineStep s = .next s := by
  simp [engineStep, h]

/-- The engine of a busy block runs its operation. -/
theorem engineStep_run {s : State} {op : Instr} (h : s.blk.phase = .run op) : engineStep s = exec op s := by
  simp [engineStep, h]

end Sys2Proof.Machine
end

