-- ==== Sys2Proof/Laws/Turns.lean ====
section
/-! SUPPORT. Turns and blocks: bringing a block into focus changes no block, and a step is the move of the one block in
focus. -/

namespace Sys2Proof.Machine

/-! ### Focus -/

theorem swapOut_split {k : Nat} {out : Nat × Block} {l l' : List (Nat × Block)} {b : Block}
    (h : swapOut k out l = some (b, l')) : ∃ pre post, l = pre ++ (k, b) :: post ∧ l' = pre ++ out :: post := by
  induction l generalizing l' with
  | nil => cases h
  | cons p rest ih =>
    obtain ⟨j, c⟩ := p
    simp only [swapOut] at h
    by_cases hj : j = k
    · rw [if_pos hj] at h
      cases h
      exact ⟨[], rest, by simp [hj], rfl⟩
    · rw [if_neg hj] at h
      cases hs : swapOut k out rest with
      | none => simp [hs] at h
      | some x =>
        obtain ⟨b', rest'⟩ := x
        simp only [hs, Option.some.injEq, Prod.mk.injEq] at h
        obtain ⟨rfl, rfl⟩ := h
        obtain ⟨pre, post, h1, h2⟩ := ih hs
        exact ⟨(j, c) :: pre, post, by simp [h1], by simp [h2]⟩

/-- What focusing can do: nothing but moving the named block to the front of the table. -/
theorem focus_spec {k : Nat} {s s' : State} (h : focus k s = some s') :
    s'.cur = k ∧ s'.sinks = s.sinks ∧ s'.sources = s.sources ∧ s'.turns = s.turns ∧ s'.history = s.history ∧
      s'.hostGot = s.hostGot ∧ s'.table.Perm s.table := by
  unfold focus at h
  by_cases hk : k = s.cur
  · rw [if_pos hk] at h
    cases h
    simp [hk]
  · rw [if_neg hk] at h
    cases hs : swapOut k (s.cur, s.blk) s.others with
    | none => simp [hs] at h
    | some x =>
      obtain ⟨b, others⟩ := x
      simp only [hs, Option.some.injEq] at h
      subst h
      obtain ⟨pre, post, h1, h2⟩ := swapOut_split hs
      refine ⟨rfl, rfl, rfl, rfl, rfl, rfl, ?_⟩
      simp only [State.table, h1, h2]
      exact ((List.perm_middle).cons _).trans ((List.Perm.swap _ _ _).trans ((List.perm_middle).symm.cons _))

/-! ### The table of blocks -/

theorem lookup_iff_mem {l : List (Nat × Block)} (hn : (l.map Prod.fst).Nodup) (k : Nat) (b : Block) :
    l.lookup k = some b ↔ (k, b) ∈ l := by
  induction l with
  | nil => simp
  | cons p rest ih =>
    obtain ⟨j, c⟩ := p
    simp only [List.map_cons, List.nodup_cons] at hn
    by_cases hj : k = j
    · subst hj
      have : (k, b) ∉ rest := fun hm => hn.1 (List.mem_map.2 ⟨_, hm, rfl⟩)
      simp [List.lookup, this, eq_comm]
    · have hb : (k == j) = false := by simpa using hj
      simp only [List.lookup, hb, ih hn.2, List.mem_cons, Prod.mk.injEq]
      simp [hj]

theorem lookup_perm {l l' : List (Nat × Block)} (h : l.Perm l') (hn : (l'.map Prod.fst).Nodup) (k : Nat) :
    l.lookup k = l'.lookup k := by
  have hn' : (l.map Prod.fst).Nodup := (h.map _).nodup_iff.2 hn
  ext b
  rw [lookup_iff_mem hn', lookup_iff_mem hn, h.mem_iff]

/-- Focusing changes no block. -/
theorem focus_blockAt {k : Nat} {s s' : State} (h : focus k s = some s') (hn : (s.table.map Prod.fst).Nodup)
    (j : Nat) : s'.blockAt j = s.blockAt j :=
  lookup_perm (focus_spec h).2.2.2.2.2.2 hn j

@[simp] theorem blockAt_cur (s : State) : s.blockAt s.cur = some s.blk := by
  simp [State.blockAt, State.table]

/-- The block of another number is one of the others. -/
theorem blockAt_other {s : State} {k : Nat} (h : k ≠ s.cur) : s.blockAt k = s.others.lookup k := by
  have : (k == s.cur) = false := by simpa using h
  simp [State.blockAt, State.table, List.lookup, this]

theorem blockAt_congr {s t : State} {k : Nat} (hc : t.cur = s.cur) (ho : t.others = s.others) (h : k ≠ s.cur) :
    t.blockAt k = s.blockAt k := by
  rw [blockAt_other (by rw [hc]; exact h), blockAt_other h, ho]

/-! ### What a step is -/

/-- A step is the move of one block, brought into focus: its engine's, or the host's on it. -/
theorem step_cases {s t : State} (h : step s = .next t) :
    (s.turns = [] ∧ engineStep s = .next t) ∨
    (∃ k rest s', s.turns = .engine k :: rest ∧ focus k s = some s' ∧ engineStep s'.popTurn = .next t) ∨
    (∃ k a rest s', s.turns = .host k a :: rest ∧ focus k s = some s' ∧ waitsForIdle a = true ∧
      s'.blk.busy = true ∧ engineStep s' = .next t) ∨
    (∃ k a rest s', s.turns = .host k a :: rest ∧ focus k s = some s' ∧
      (waitsForIdle a = true → s'.blk.busy = false) ∧ hostAct a s'.popTurn = .next t) := by
  unfold step takeTurn at h
  cases ht : s.turns with
  | nil => simp only [ht] at h; exact .inl ⟨rfl, h⟩
  | cons x rest =>
    cases x with
    | engine k =>
      simp only [ht] at h
      cases hf : focus k s with
      | none => simp [hf] at h
      | some s' => simp only [hf] at h; exact .inr (.inl ⟨k, rest, s', rfl, hf, h⟩)
    | host k a =>
      simp only [ht] at h
      cases hf : focus k s with
      | none => simp [hf] at h
      | some s' =>
        simp only [hf] at h
        cases hw : waitsForIdle a && s'.blk.busy with
        | true =>
          simp only [hw, if_true] at h
          simp only [Bool.and_eq_true] at hw
          exact .inr (.inr (.inl ⟨k, a, rest, s', rfl, hf, hw.1, hw.2, h⟩))
        | false =>
          simp only [hw] at h
          refine .inr (.inr (.inr ⟨k, a, rest, s', rfl, hf, fun ha => ?_, h⟩))
          simpa [ha] using hw

end Sys2Proof.Machine
end

