-- ==== Sys2Proof/Laws/Moves.lean ====
section
/-! SUPPORT. What each agent's move does to the block in focus: an operation's transition, the engine's step, every host
action, and a whole step as the move of one block. -/

namespace Sys2Proof.Machine

/-- What a transition of an operation keeps of its block, and the one way `RESULT` is written (10_state.md R23). -/
structure ExecKeeps (op : Instr) (b b' : Block) : Prop where
  arg : b'.arg = b.arg
  argWritten : b'.argWritten = b.argWritten
  sink : b'.sink = b.sink
  source : b'.source = b.source
  policy : b'.policy = b.policy
  started : b'.started = b.started
  result : (b'.resultWritten = b.resultWritten ∧ b'.result = b.result) ∨ (isEncode op = false ∧ b.phase = .run op ∧
      b'.phase = .idle ∧ b'.status = 0)

/-- A transition of an operation is a move of the block in focus alone. -/
theorem exec_keeps {op : Instr} {s t : State} (hx : exec op s = .next t) :
   t.cur = s.cur ∧ t.others = s.others ∧ t.turns = s.turns ∧ t.hostGot = s.hostGot ∧ ExecKeeps op s.blk t.blk := by
  cases he : isEncode op
  · rcases exec_decode_cases (s := s) he with ⟨hp, h1⟩ | ⟨-, -, h1⟩ | ⟨hi, -, h1⟩ | ⟨-, h1⟩ <;> rw [h1] at hx
    · rcases decodeStep_cases (width op) (overlongOf op) s with ⟨-, h2⟩ | ⟨id, q, hk, ⟨-, h2⟩ | ⟨b, rest, -, -,
        h2⟩ | ⟨-, -, h2⟩ | ⟨f, left, -, h2⟩⟩ <;> rw [h2] at hx <;> cases hx
      · exact ⟨rfl, rfl, rfl, rfl, rfl, rfl, rfl, rfl, rfl, rfl, .inl ⟨rfl, rfl⟩⟩
      · exact ⟨rfl, rfl, rfl, rfl, rfl, rfl, rfl, rfl, rfl, rfl, .inl ⟨rfl, rfl⟩⟩
      · rcases byteStep_cases (width op) (overlongOf op) b (s.consumed id q b rest) with ⟨-, h3⟩ | ⟨-, -, h3⟩ | ⟨-, -,
          h3⟩ <;> rw [h3]
        · exact ⟨rfl, rfl, rfl, rfl, rfl, rfl, rfl, rfl, rfl, rfl, .inr ⟨he, hp, rfl, rfl⟩⟩
        · exact ⟨rfl, rfl, rfl, rfl, rfl, rfl, rfl, rfl, rfl, rfl, .inl ⟨rfl, rfl⟩⟩
        · exact ⟨rfl, rfl, rfl, rfl, rfl, rfl, rfl, rfl, rfl, rfl, .inl ⟨rfl, rfl⟩⟩
      · exact ⟨rfl, rfl, rfl, rfl, rfl, rfl, rfl, rfl, rfl, rfl, .inl ⟨rfl, rfl⟩⟩
      · exact ⟨rfl, rfl, rfl, rfl, rfl, rfl, rfl, rfl, rfl, rfl, .inl ⟨rfl, rfl⟩⟩
    · cases hx; exact ⟨rfl, rfl, rfl, rfl, rfl, rfl, rfl, rfl, rfl, rfl, .inl ⟨rfl, rfl⟩⟩
    · cases hx; exact ⟨rfl, rfl, rfl, rfl, rfl, rfl, rfl, rfl, rfl, rfl, .inl ⟨rfl, rfl⟩⟩
    · cases hx
  · rcases exec_encode_cases (s := s) he with ⟨hp, h1⟩ | ⟨-, -, h1⟩ | ⟨hi, -, -, h1⟩ | ⟨-, h1 | h1⟩ <;> rw [h1] at hx
    · rcases encodeStep_cases (width op) s with ⟨-, h2⟩ | ⟨id, k, hk, ⟨-, h2⟩ | ⟨-, h2⟩ | ⟨f, left, -, h2⟩⟩ <;>
        rw [h2] at hx <;> cases hx
      · exact ⟨rfl, rfl, rfl, rfl, rfl, rfl, rfl, rfl, rfl, rfl, .inl ⟨rfl, rfl⟩⟩
      · exact ⟨rfl, rfl, rfl, rfl, rfl, rfl, rfl, rfl, rfl, rfl, .inl ⟨rfl, rfl⟩⟩
      · rcases stepRest_cases (s.blk.v.setWidth (width op)) (s.appended id k (stepByte (s.blk.v.setWidth
          (width op)))) with ⟨-, h3⟩ | ⟨-, h3⟩ <;> rw [h3]
        · exact ⟨rfl, rfl, rfl, rfl, rfl, rfl, rfl, rfl, rfl, rfl, .inl ⟨rfl, rfl⟩⟩
        · exact ⟨rfl, rfl, rfl, rfl, rfl, rfl, rfl, rfl, rfl, rfl, .inl ⟨rfl, rfl⟩⟩
      · exact ⟨rfl, rfl, rfl, rfl, rfl, rfl, rfl, rfl, rfl, rfl, .inl ⟨rfl, rfl⟩⟩
    · cases hx; exact ⟨rfl, rfl, rfl, rfl, rfl, rfl, rfl, rfl, rfl, rfl, .inl ⟨rfl, rfl⟩⟩
    · cases hx; exact ⟨rfl, rfl, rfl, rfl, rfl, rfl, rfl, rfl, rfl, rfl, .inl ⟨rfl, rfl⟩⟩
    · cases hx
    · cases hx

/-- No transition of an operation connects or disconnects a sink (20_memory.md R56). -/
theorem exec_fedBy {op : Instr} {s t : State} (hx : exec op s = .next t) (i : Nat) :
    fedBy t.sinks i = fedBy s.sinks i := by
  cases he : isEncode op
  · rcases exec_decode_cases (s := s) he with ⟨hp, h1⟩ | ⟨-, -, h1⟩ | ⟨hi, -, h1⟩ | ⟨-, h1⟩ <;> rw [h1] at hx
    · rw [decodeStep_sinks hx]
    all_goals cases hx; try rfl
  · rcases exec_encode_cases (s := s) he with ⟨hp, h1⟩ | ⟨-, -, h1⟩ | ⟨hi, -, -, h1⟩ | ⟨-, h1 | h1⟩ <;> rw [h1] at hx
    · rcases encodeStep_cases (width op) s with ⟨-, h2⟩ | ⟨id, k, hk, ⟨-, h2⟩ | ⟨-, h2⟩ | ⟨f, left, -, h2⟩⟩ <;>
        rw [h2] at hx <;> cases hx
      · rfl
      · exact fedBy_set hk.2 (by rfl) i
      · rw [stepRest_sinks]
        exact fedBy_set hk.2 (by rfl) i
      · exact fedBy_set hk.2 (by rfl) i
    all_goals cases hx; try rfl

/-- So is a step of the engine. -/
theorem engineStep_keeps {s t : State} (hx : engineStep s = .next t) :
   t.cur = s.cur ∧ t.others = s.others ∧ t.turns = s.turns ∧ t.hostGot = s.hostGot ∧ ((s.blk.phase = .idle ∧ t = s) ∨
       ∃ op, s.blk.phase = .run op ∧ exec op s = .next t) := by
  cases hp : s.blk.phase with
  | idle => rw [engineStep_idle hp] at hx; cases hx; simp
  | run op =>
    rw [engineStep_run hp] at hx
    have := exec_keeps hx
    exact ⟨this.1, this.2.1, this.2.2.1, this.2.2.2.1, .inr ⟨op, rfl, hx⟩⟩

/-- Every way a host action that does not stop can go. -/
theorem hostAct_cases {a : HostAction} {s t : State} (hx : hostAct a s = .next t) :
   t.cur = s.cur ∧ t.others = s.others ∧ t.turns = s.turns ∧
   ((∃ x, a = .writeArg x ∧ t.blk = { s.blk with arg := x, argWritten := true } ∧ t.sinks = s.sinks ∧
       t.sources = s.sources) ∨
    (∃ c op, a = .issue c ∧ decode c = .ok op ∧ exec op (s.onBlk fun b => { b with started := true }) = .next t) ∨
    (∃ c, a = .issue c ∧ t.blk = { s.blk with started := true, status := 0x05#8, faultInfo := .none } ∧
        t.sinks = s.sinks ∧ t.sources = s.sources) ∨
    (∃ r, a = .read r ∧ t.blk = s.blk ∧ t.sinks = s.sinks ∧ t.sources = s.sources) ∨
    (∃ id, a = .attachSink id ∧ id < s.sinks.length ∧ encoding s.blk = false ∧ t.blk = { s.blk with sink := some id } ∧
        t.sinks = s.sinks ∧ t.sources = s.sources) ∨
    (∃ id, a = .attachSource id ∧ id < s.sources.length ∧ decoding s.blk = false ∧
        t.blk = { s.blk with source := some id } ∧ t.sinks = s.sinks ∧ t.sources = s.sources) ∨
    (a = .detachSink ∧ encoding s.blk = false ∧ t.blk = { s.blk with sink := none } ∧ t.sinks = s.sinks ∧
        t.sources = s.sources) ∨
    (a = .detachSource ∧ decoding s.blk = false ∧ t.blk = { s.blk with source := none } ∧ t.sinks = s.sinks ∧
        t.sources = s.sources) ∨
    (∃ p, a = .fixPolicy p ∧ s.blk.started = false ∧ t.blk = { s.blk with policy := p } ∧ t.sinks = s.sinks ∧
        t.sources = s.sources) ∨
    (a = .reset ∧ t.blk = s.blk.afterReset ∧ t.sinks = s.sinks ∧ t.sources = s.sources)) := by
  cases a with
  | writeArg x => cases hx; exact ⟨rfl, rfl, rfl, .inl ⟨x, rfl, rfl, rfl, rfl⟩⟩
  | issue c =>
    simp only [hostAct, issue] at hx
    cases hd : decode c with
    | ok op =>
      rw [hd] at hx
      have := exec_keeps hx
      exact ⟨this.1, this.2.1, this.2.2.1, .inr (.inl ⟨c, op, rfl, hd, hx⟩)⟩
    | error e =>
      rw [hd] at hx; cases hx
      exact ⟨rfl, rfl, rfl, .inr (.inr (.inl ⟨c, rfl, rfl, rfl, rfl⟩))⟩
  | read r =>
    have : t.cur = s.cur ∧ t.others = s.others ∧ t.turns = s.turns ∧ t.blk = s.blk ∧ t.sinks = s.sinks ∧
        t.sources = s.sources := by
      cases r <;> simp only [hostAct, hostRead] at hx
      all_goals first | (cases hx; exact ⟨rfl, rfl, rfl, rfl, rfl, rfl⟩) | skip
      split at hx
      · cases hx; exact ⟨rfl, rfl, rfl, rfl, rfl, rfl⟩
      · cases hx
    exact ⟨this.1, this.2.1, this.2.2.1, .inr (.inr (.inr (.inl ⟨r, rfl, this.2.2.2⟩)))⟩
  | attachSink id =>
    simp only [hostAct, hostAttachSink] at hx
    split at hx
    · cases hx
    · split at hx
      · cases hx
      · split at hx
        · cases hx
        · cases hx
          refine ⟨rfl, rfl, rfl, .inr (.inr (.inr (.inr (.inl ⟨id, rfl, by omega, by simp_all, rfl, rfl, rfl⟩))))⟩
  | attachSource id =>
    simp only [hostAct, hostAttachSource] at hx
    split at hx
    · cases hx
    · split at hx
      · cases hx
      · split at hx
        · cases hx
        · cases hx
          refine ⟨rfl, rfl, rfl, .inr (.inr (.inr (.inr (.inr (.inl ⟨id, rfl, by omega, by simp_all, rfl, rfl,
              rfl⟩)))))⟩
  | detachSink =>
    simp only [hostAct, hostDetachSink] at hx
    split at hx
    · cases hx
    · cases hx
      refine ⟨rfl, rfl, rfl, .inr (.inr (.inr (.inr (.inr (.inr (.inl ⟨rfl, by simp_all, rfl, rfl, rfl⟩))))))⟩
  | detachSource =>
    simp only [hostAct, hostDetachSource] at hx
    split at hx
    · cases hx
    · cases hx
      refine ⟨rfl, rfl, rfl, .inr (.inr (.inr (.inr (.inr (.inr (.inr (.inl ⟨rfl, by simp_all, rfl, rfl, rfl⟩)))))))⟩
  | fixPolicy p =>
    simp only [hostAct, hostFixPolicy] at hx
    split at hx
    · cases hx
    · cases hx
      refine ⟨rfl, rfl, rfl, .inr (.inr (.inr (.inr (.inr (.inr (.inr (.inr (.inl ⟨p, rfl, by simp_all, rfl, rfl,
          rfl⟩))))))))⟩
  | reset =>
    cases hx
    exact ⟨rfl, rfl, rfl, .inr (.inr (.inr (.inr (.inr (.inr (.inr (.inr (.inr ⟨rfl, rfl, rfl, rfl⟩))))))))⟩

/-- A step as a move: `m` is the state just before it, with the moving block in focus. -/
theorem step_move {s t : State} (h : step s = .next t) (hn : (s.table.map Prod.fst).Nodup) :
    ∃ m : State, (m.table.map Prod.fst).Nodup ∧ m.table.Perm s.table ∧ m.sinks = s.sinks ∧ m.sources = s.sources ∧
        (∀ j, m.blockAt j = s.blockAt j) ∧ t.cur = m.cur ∧ t.others = m.others ∧
      ((engineStep m = .next t ∧ (s.turns = [] ∧ m.cur = s.cur ∨ (∃ rest, s.turns = .engine m.cur :: rest) ∨ (∃ a rest,
          s.turns = .host m.cur a :: rest))) ∨ ∃ a rest, s.turns = .host m.cur a :: rest ∧ (waitsForIdle a = true →
          m.blk.busy = false) ∧ hostAct a m = .next t) := by
  rcases step_cases h with ⟨ht, h1⟩ | ⟨k, rest, s', ht, hf, h1⟩ | ⟨k, a, rest, s', ht, hf, hw, hb, h1⟩ | ⟨k, a, rest,
      s', ht, hf, hw, h1⟩
  · have := engineStep_keeps h1
    exact ⟨s, hn, .refl _, rfl, rfl, fun _ => rfl, this.1, this.2.1, .inl ⟨h1, .inl ⟨ht, rfl⟩⟩⟩
  · have := engineStep_keeps h1
    have hs := focus_spec hf
    exact ⟨s'.popTurn, ((hs.2.2.2.2.2.2.map _).nodup_iff).2 hn, hs.2.2.2.2.2.2, hs.2.1, hs.2.2.1,
        fun j => focus_blockAt hf hn j, this.1, this.2.1, .inl ⟨h1, .inr (.inl ⟨rest, by simpa [hs.1] using ht⟩)⟩⟩
  · have := engineStep_keeps h1
    have hs := focus_spec hf
    exact ⟨s', ((hs.2.2.2.2.2.2.map _).nodup_iff).2 hn, hs.2.2.2.2.2.2, hs.2.1, hs.2.2.1,
        fun j => focus_blockAt hf hn j, this.1, this.2.1, .inl ⟨h1, .inr (.inr ⟨a, rest, by simpa [hs.1] using ht⟩)⟩⟩
  · have := hostAct_cases h1
    have hs := focus_spec hf
    exact ⟨s'.popTurn, ((hs.2.2.2.2.2.2.map _).nodup_iff).2 hn, hs.2.2.2.2.2.2, hs.2.1, hs.2.2.1,
        fun j => focus_blockAt hf hn j, this.1, this.2.1, .inr ⟨a, rest, by simpa [hs.1] using ht, hw, h1⟩⟩

end Sys2Proof.Machine
end

