-- ==== Sys2Proof/Laws/PerInstr.lean ====
section
/-! SUPPORT. The statement made of every instruction as syntax: the fields of its command word say what it is
(spec/10_state.md R21, 30_encoding.md R69). -/

namespace Sys2Proof.Laws.WordFields

open Sys2Proof.Machine

/-- The word of an operation is legal, its `d` bit is 0 exactly for an encode and its `w` bit exactly for 32 bits. -/
def Statement (i : Instr) : Prop :=
  i.wellFormed = true ∧ commandWordLegal (encode i) = true ∧
  (fieldD (encode i) = 0#1 ↔ isEncode i = true) ∧ (fieldW (encode i) = 0#1 ↔ width i = 32)

theorem enc32 : Statement .enc32 := by
  unfold Statement
  decide

theorem enc64 : Statement .enc64 := by
  unfold Statement
  decide

theorem dec32 : Statement .dec32 := by
  unfold Statement
  decide

theorem dec64 : Statement .dec64 := by
  unfold Statement
  decide

end Sys2Proof.Laws.WordFields
end

