-- ==== Sys2Proof/Laws/Runs.lean ====
section
/-! SUPPORT. Runs of several steps: the first step taken off, and one run after another. -/

namespace Sys2Proof.Machine

@[simp] theorem runs_zero (s : State) : runs 0 s = .next s := rfl

theorem runs_succ {n : Nat} {s s' : State} (h : step s = .next s') : runs (n + 1) s = runs n s' := by
  have h' : core.step s = .next s' := h
  simp only [runs, Host.Core.run, h']
  rfl

/-- A run that ends in a state is a first step to some state and the rest of the run from there. -/
theorem runs_succ_next {n : Nat} {s t : State} (h : runs (n + 1) s = .next t) :
    ∃ s', step s = .next s' ∧ runs n s' = .next t := by
  cases hs : step s with
  | next s' => exact ⟨s', rfl, by rwa [runs_succ hs] at h⟩
  | fault r =>
    have h' : core.step s = .fault r := hs
    simp [runs, Host.Core.run, h'] at h
  | refused r =>
    have h' : core.step s = .refused r := hs
    simp [runs, Host.Core.run, h'] at h

theorem runs_add {m n : Nat} {s s' : State} (h : runs m s = .next s') : runs (m + n) s = runs n s' := by
  induction m generalizing s with
  | zero => cases h; rw [Nat.zero_add]
  | succ m ih =>
    obtain ⟨u, hu, h'⟩ := runs_succ_next h
    rw [Nat.add_right_comm, runs_succ hu]
    exact ih h'

end Sys2Proof.Machine
end

