-- ==== Sys2Proof/Laws/Wire.lean ====
section
/-! SUPPORT. The arithmetic under the wire format: the shift by a group as a division, the groups of a shifted value, and
a W-bit value held zero-extended in 64 bits. -/

namespace Sys2Proof.Machine

theorem toNat_shr7 {W : Nat} (v : BitVec W) : (v >>> 7).toNat = v.toNat / 128 := by
  rw [BitVec.toNat_ushiftRight, Nat.shiftRight_eq_div_pow]

theorem shr7_eq_zero {W : Nat} (v : BitVec W) : v >>> 7 = 0 ↔ v.toNat < 128 := by
  rw [← BitVec.toNat_inj, toNat_shr7]
  simp

theorem groupAt_zero {W : Nat} (v : BitVec W) : groupAt v 0 = v.setWidth 7 := by
  simp [groupAt]

theorem groupAt_shr {W : Nat} (v : BitVec W) (k : Nat) : groupAt (v >>> 7) k = groupAt v (k + 1) := by
  unfold groupAt
  rw [← BitVec.shiftRight_add, show 7 + 7 * k = 7 * (k + 1) by ring]

/-- Every value of a width is below the bound of its NMAX groups (00_scope.md R5). -/
theorem bits_le_nmax (W : Nat) : W ≤ 7 * nmax W := by
  unfold nmax
  omega

theorem width_pos (op : Instr) : 0 < width op := by
  cases op <;> decide

theorem width_le (op : Instr) : width op ≤ 64 := by
  cases op <;> decide

/-- What is held zero-extended reads back at its own width. -/
theorem setWidth_setWidth_of_le {W : Nat} (h : W ≤ 64) (x : BitVec W) : (x.setWidth 64).setWidth W = x := by
  apply BitVec.eq_of_toNat_eq
  have hx := x.isLt
  have hp : 2 ^ W ≤ 2 ^ 64 := Nat.pow_le_pow_right (by norm_num) h
  simp only [BitVec.toNat_setWidth]
  rw [Nat.mod_eq_of_lt (by omega : x.toNat < 2 ^ 64), Nat.mod_eq_of_lt hx]

end Sys2Proof.Machine
end

