-- ==== Sys2Proof/Tests/Slice0.lean ====
section
/-! SUPPORT. The model's own tests: the checks' smoke tests, the command words written out bit by bit, one-step tests
whose expected values are the spec's own examples, and for every statement with hypotheses a state that meets them. -/

namespace Sys2Proof.Tests

open Sys2Proof.Machine

/-! ### Small states -/

/-- A sink that accepts every append. -/
def okSink : Sink := ⟨[], 0, none, [], .ok⟩

/-- A source of the bytes `bs` and then end of stream. -/
def bytesOf (bs : List Byte) : Source := ⟨bs, .nothing, 0, [], .serve⟩

/-- An idle block with `ARG` 300, sink 0 and source 0 attached, and an earlier `RESULT` of 7. -/
def idleBlock : Block :=
  { Block.fresh with
    arg := 300, argWritten := true, result := 7, resultWritten := true, sink := some 0, source := some 0 }

/-- The same block running `op` with `V`, `ACC` and `IDX` as given. -/
def runBlock (op : Instr) (v acc : BitVec 64) (idx : Nat) : Block :=
  { idleBlock with busy := true, phase := .run op, started := true, v := v, acc := acc, idx := idx }

/-- A machine of one block, with one sink and one source. -/
def machine (b : Block) (k : Sink) (q : Source) (turns : List Turn) : State :=
  { State.reset with blk := b, sinks := [k], sources := [q], turns := turns }

/-- The idle block with turns to come. -/
def idle (turns : List Turn) : State := machine idleBlock okSink (bytesOf [0xD3, 0x02]) turns

/-- The block in the middle of ENC32 or ENC64, with `V` as given. -/
def midEncode (op : Instr) (v : BitVec 64) (k : Sink) : State := machine (runBlock op v 0 0) k (bytesOf []) []

/-- The block in the middle of DEC32 or DEC64, with `ACC`, `IDX` and the bytes to come as given. -/
def midDecode (op : Instr) (acc : BitVec 64) (idx : Nat) (bs : List Byte) : State :=
  machine (runBlock op 0 acc idx) okSink (bytesOf bs) []

/-- The same under PASS. -/
def midPass (op : Instr) (acc : BitVec 64) (idx : Nat) (bs : List Byte) : State :=
  machine { runBlock op 0 acc idx with policy := .pass } okSink (bytesOf bs) []

/-- The state after a transition, or the state itself where there is none. -/
def after (r : Host.Outcome State Fault Refusal) (s : State) : State :=
  match r with
  | .next t => t
  | .fault _ => s
  | .refused _ => s

/-! ### The checks refuse ill-formed terms -/

theorem test_word_with_lowest_reserved_bit_refused : commandWordLegal 0x04#8 = false := by decide
theorem test_word_with_every_bit_refused : commandWordLegal 0xFF#8 = false := by decide
theorem test_last_legal_word_accepted : commandWordLegal 0x03#8 = true := by decide
theorem test_decode_names_reserved_bits : decode 0x84#8 = .error (.reservedBits 0b100001#6) := by decide
theorem test_value_above_range_refused : (AsmValue.decimal 4294967296).pattern 32 = .error .valueOutOfRange := by decide
theorem test_value_below_range_refused : (AsmValue.negative 2147483649).pattern 32 = .error .valueOutOfRange := by
  decide
theorem test_directive_after_command_refused :
    assemble .empty [.command .dec32, .directive .loopback] = .error .badProgram := by decide
theorem test_unknown_command_refused : readLine "ENC16 1".toList = none := by decide

/-! ### The command words, bit by bit: `r r r r r r`, `d`, `w` (30_encoding.md R69, R70) -/

theorem test_decode_enc32 : decode (0b000000#6 ++ 0b0#1 ++ 0b0#1) = .ok .enc32 := by decide
theorem test_decode_enc64 : decode (0b000000#6 ++ 0b0#1 ++ 0b1#1) = .ok .enc64 := by decide
theorem test_decode_dec32 : decode (0b000000#6 ++ 0b1#1 ++ 0b0#1) = .ok .dec32 := by decide
theorem test_decode_dec64 : decode (0b000000#6 ++ 0b1#1 ++ 0b1#1) = .ok .dec64 := by decide
theorem test_decodeTableWord : decodeTableWord 8 0x03 = some .dec64 ∧ decodeTableWord 8 0x10 = none := by decide

/-! ### The spec's own examples, one step each -/

/-- 40_encode.md R84: ENC32 of 300 appends `0xD3` first. -/
theorem test_enc32_first_byte_of_300 :
    (after (exec .enc32 (midEncode .enc32 300 okSink)) State.reset).sinks.map Sink.bytes = [[0xD3#8]] := by decide

/-- 40_encode.md R84: ENC32 ignores `ARG[63:32]`. -/
theorem test_enc32_ignores_upper_half :
    (after (exec .enc32 (machine { idleBlock with arg := 0x100000000 } okSink (bytesOf []) []))
      State.reset).blk.v = 0 := by decide

/-- 40_encode.md R85: the first of the ten bytes of 2^64 - 1 is `0x80`, and the shift copies no sign. -/
theorem test_enc64_shift_is_logical :
    (after (exec .enc64 (midEncode .enc64 0xFFFFFFFFFFFFFFFF okSink)) State.reset).blk.v = 0x01FFFFFFFFFFFFFF := by
  decide

/-- 40_encode.md R85: the last byte of 2^63 is `0x01`, and the encode completes. -/
theorem test_enc64_last_byte_is_plain :
    (after (exec .enc64 (midEncode .enc64 1 okSink)) State.reset).sinks.map Sink.bytes = [[0x01#8]] ∧
    (after (exec .enc64 (midEncode .enc64 1 okSink)) State.reset).blk.busy = false := by decide

/-- 41_decode.md R108: `[0xD3, 0x02]` gives 300. -/
theorem test_dec32_gives_300 :
    (after (exec .dec32 (midDecode .dec32 0x2C 1 [0x02])) State.reset).blk.result = 300 := by decide

/-- 41_decode.md R108: `[0xFF, 0xFF, 0xFF, 0xFF, 0x7F]` gives `0xF0000000`. -/
theorem test_dec32_discards_upper_bits :
    (after (exec .dec32 (midDecode .dec32 0 4 [0x7F])) State.reset).blk.result = 0xF0000000 := by decide

/-- 41_decode.md R109: nine `0x80` bytes and then `0x7F` give 2^64 - 1. -/
theorem test_dec64_discards_upper_bits :
    (after (exec .dec64 (midDecode .dec64 0x7FFFFFFFFFFFFFFF 9 [0x7F])) State.reset).blk.result =
      0xFFFFFFFFFFFFFFFF := by decide

/-- 41_decode.md R109: a tenth continuation byte gives MALFORMED_VARINT, and the next byte stays in the source. -/
theorem test_dec64_malformed_at_tenth_byte :
    (after (exec .dec64 (midDecode .dec64 0 9 [0xFF, 0x00])) State.reset).blk.status = 0x04 ∧
    (after (exec .dec64 (midDecode .dec64 0 9 [0xFF, 0x00])) State.reset).sources.map Source.rest = [[0x00#8]] := by
  decide

/-- 60_exceptions.md R126: the word `0x04` gives ILLEGAL_COMMAND. -/
theorem test_illegal_word_status :
    (after (step (idle [.host 0 (.issue 0x04)])) State.reset).blk.status = 0x05 := by decide

/-- 00_scope.md R12: a successful append moves `sink.pos` one further. -/
theorem test_append_moves_pos :
    (after (exec .enc32 (midEncode .enc32 300 okSink)) State.reset).sinks.map Sink.pos = [1] := by decide

/-- 20_memory.md R42: an unbounded source gives the bytes beyond the ones it lists, one after the other: a repeating
sequence its first byte, an endless one the byte of its position. -/
theorem test_unbounded_sources :
    (sourceRead (machine (runBlock .dec32 0 0 0) okSink { bytesOf [] with beyond := .cycle 0x80 [0x01] } [])).1 =
      .byte 0x80 ∧
    (sourceRead (machine (runBlock .dec32 0 0 0) okSink { bytesOf [] with beyond := .cycle 0x80 [0x01] } [])).2.sources.map
      Source.rest = [[0x01]] ∧
    (sourceRead (machine (runBlock .dec32 0 0 0) okSink { bytesOf [] with beyond := .endless 5, pos := 8 } [])).1 =
      .byte (Config.endlessByte 5 8) ∧
    (sourceRead (machine (runBlock .dec32 0 0 0) okSink { bytesOf [] with beyond := .endless 5, pos := 8 } [])).2.sources =
      [{ bytesOf [] with beyond := .endless 5, pos := 9 }] := ⟨by decide, by decide, rfl, rfl⟩

/-- A word placed in the reset state runs as the very next step. -/
theorem test_placed_word_runs_after_reset :
    (after (step (State.reset.withFetchWord 8 0x01)) State.reset).blk.phase = .run .enc64 ∧
    (after (step (State.reset.withFetchWord 8 0x02)) State.reset).blk.phase = .run .dec32 := by decide

/-- 30_encoding.md R73: `ENC32 -1` writes `ARG = 0x00000000FFFFFFFF`. -/
theorem test_assembler_minus_one :
    (AsmCommand.enc32 (.negative 1)).actions = .ok [.writeArg 0x00000000FFFFFFFF, .issue 0x00] := by decide

/-- 30_encoding.md R73, R74: lines of a program. -/
theorem test_lines_are_read :
    readLine "ENC32 300 # three hundred".toList = some (.command (.enc32 (.decimal 300))) ∧
    readLine ".source [0xD3, 0x02]".toList = some (.directive (.source [0xD3, 0x02])) ∧
    readLine ".sinkfail 2 full".toList = some (.directive (.sinkfail 2 ⟨nameToken "full".toList⟩)) ∧
    readLine ".sinkfail 2 [".toList = none := by decide

/-! ### Witnesses: every statement's hypotheses are met together, each clause at a boundary of its range -/

theorem witness_ReservedWordsAreRejected :
    (0x04#8).extractLsb' 2 6 ≠ 0#6 ∧ (0xFF#8).extractLsb' 2 6 ≠ 0#6 ∧ ¬ (0x03#8).extractLsb' 2 6 ≠ 0#6 := by decide

theorem witness_StepRunsIssuedCommand :
    ∃ (s : State) (c : Byte) (op : Instr) (rest : List Turn),
      s.turns = .host s.cur (.issue c) :: rest ∧ s.blk.busy = false ∧ decode c = .ok op :=
  ⟨idle [.host 0 (.issue 0x03)], 0x03, .dec64, [], rfl, rfl, rfl⟩

theorem witness_StepRunsOperationInProgress :
    (∃ (s : State) (op : Instr), s.Running op ∧ s.turns = []) ∧
    (∃ (s : State) (op : Instr) (rest : List Turn), s.Running op ∧ s.turns = .engine s.cur :: rest) ∧
    (∃ (s : State) (op : Instr) (c : Byte) (rest : List Turn), s.Running op ∧
      s.turns = .host s.cur (.issue c) :: rest) :=
  ⟨⟨midEncode .enc32 300 okSink, .enc32, ⟨rfl, rfl⟩, rfl⟩,
   ⟨machine (runBlock .dec32 0 0 0) okSink (bytesOf []) [.engine 0], .dec32, [], ⟨rfl, rfl⟩, rfl⟩,
   ⟨machine (runBlock .dec64 0 0 0) okSink (bytesOf []) [.host 0 (.issue 0x04)], .dec64, 0x04, [], ⟨rfl, rfl⟩, rfl⟩⟩

theorem witness_IllegalWordCompletesAtOnce :
    (∃ (s : State) (c : Byte) (rest : List Turn), s.turns = .host s.cur (.issue c) :: rest ∧
      c.extractLsb' 2 6 ≠ 0#6 ∧ c = 0x04 ∧ s.Idle) ∧
    (∃ (s : State) (c : Byte) (rest : List Turn) (op : Instr), s.turns = .host s.cur (.issue c) :: rest ∧
      c.extractLsb' 2 6 ≠ 0#6 ∧ c = 0xFF ∧ s.Running op) :=
  ⟨⟨idle [.host 0 (.issue 0x04)], 0x04, [], rfl, by decide, rfl, ⟨rfl, rfl⟩⟩,
   ⟨machine (runBlock .enc64 1 0 0) okSink (bytesOf []) [.host 0 (.issue 0xFF)], 0xFF, [], .enc64, rfl, by decide, rfl,
    ⟨rfl, rfl⟩⟩⟩

theorem witness_NothingMovesWithoutItsTurn :
    (∃ s : State, s.Idle ∧ s.turns = []) ∧
    (∃ (s : State) (op : Instr), s.blk.busy = true ∧ s.blk.phase ≠ .run op) :=
  ⟨⟨idle [], ⟨rfl, rfl⟩, rfl⟩, ⟨midEncode .enc32 300 okSink, .enc64, rfl, by decide⟩⟩

theorem witness_PlacedWordRunsNext :
    decode (BitVec.ofNat 8 (0x00 % 2 ^ 8)) = .ok .enc32 ∧ decode (BitVec.ofNat 8 (0x03 % 2 ^ 8)) = .ok .dec64 := by
  decide

theorem witness_EncodeAcceptanceLoadsV :
    (∃ (s : State) (op : Instr), isEncode op = true ∧ s.Idle ∧ s.blk.argWritten = true ∧ sharesSink s = false) ∧
    (∃ (s : State) (op running : Instr) (rest : List Turn), isEncode op = true ∧ s.Running running ∧
      s.turns = .host s.cur (.issue (encode op)) :: rest) :=
  ⟨⟨idle [], .enc32, rfl, ⟨rfl, rfl⟩, rfl, rfl⟩,
   ⟨machine (runBlock .dec64 0 0 0) okSink (bytesOf []) [.host 0 (.issue 0x01)], .enc64, .dec64, [], rfl, ⟨rfl,
     rfl⟩, rfl⟩⟩

/-- A second block that runs `op` on sink 0 and source 0. -/
def besideBusy (op : Instr) (b : Block) (turns : List Turn) : State :=
  { machine b okSink (bytesOf [0x00]) turns with others := [(1, runBlock op 1 0 0)] }

/-- A sink connected to source 0. -/
def fedSink : Sink := { okSink with feeds := some 0 }

/-- An idle block on sink 0 and source 0, beside a block that runs `op` on sink `i` and source 0; both sinks are connected
to source 0. -/
def besideConnected (op : Instr) (i : Nat) : State :=
  { machine idleBlock fedSink (bytesOf []) [] with
    sinks := [fedSink, fedSink]
    others := [(1, { runBlock op 1 0 0 with sink := some i })] }

theorem witness_LaunchStopsByName :
    (∃ (s : State) (op : Instr), isEncode op = true ∧ s.Idle ∧ s.blk.argWritten = false ∧ sharesSink s = false) ∧
    (∃ (s : State) (op : Instr) (id j : Nat) (b : Block), isEncode op = true ∧ s.Idle ∧ s.blk.sink = some id ∧
      (j, b) ∈ s.others ∧ b.sinkInUse = some id) ∧
    (∃ (s : State) (op : Instr) (id j : Nat) (b : Block), isEncode op = false ∧ s.Idle ∧ s.blk.source = some id ∧
      (j, b) ∈ s.others ∧ b.sourceInUse s.sinks = some id) ∧
    (∃ (s : State) (op other : Instr) (id n j : Nat) (k : Sink) (b : Block), isEncode op = true ∧ s.Idle ∧
      s.HasSink id k ∧ k.feeds = some n ∧ (j, b) ∈ s.others ∧ b.phase = .run other ∧ isEncode other = false ∧
      b.source = some n) ∧
    (∃ (s : State) (op other : Instr) (id n j i : Nat) (k x : Sink) (b : Block), isEncode op = true ∧ s.Idle ∧
      s.HasSink id k ∧ k.feeds = some n ∧ (j, b) ∈ s.others ∧ b.phase = .run other ∧ isEncode other = true ∧
      b.sink = some i ∧ s.sinks[i]? = some x ∧ x.feeds = some n ∧ i ≠ id) ∧
    (∃ (s : State) (op other : Instr) (id i j : Nat) (x : Sink) (b : Block), isEncode op = false ∧ s.Idle ∧
      s.blk.source = some id ∧ (j, b) ∈ s.others ∧ b.phase = .run other ∧ isEncode other = true ∧ b.sink = some i ∧
      s.sinks[i]? = some x ∧ x.feeds = some id) :=
  ⟨⟨State.reset, .enc64, rfl, ⟨rfl, rfl⟩, rfl, rfl⟩,
   ⟨besideBusy .enc64 idleBlock [], .enc32, 0, 1, _, rfl, ⟨rfl, rfl⟩, rfl, List.mem_singleton.2 rfl, rfl⟩,
   ⟨besideBusy .dec64 idleBlock [], .dec32, 0, 1, _, rfl, ⟨rfl, rfl⟩, rfl, List.mem_singleton.2 rfl, rfl⟩,
   ⟨besideConnected .dec64 0, .enc32, .dec64, 0, 0, 1, fedSink, _, rfl, ⟨rfl, rfl⟩, ⟨rfl, rfl⟩, rfl,
    List.mem_singleton.2 rfl, rfl, rfl, rfl⟩,
   ⟨besideConnected .enc64 1, .enc32, .enc64, 0, 0, 1, 1, fedSink, fedSink, _, rfl, ⟨rfl, rfl⟩, ⟨rfl, rfl⟩, rfl,
    List.mem_singleton.2 rfl, rfl, rfl, rfl, rfl, rfl, by decide⟩,
   ⟨besideConnected .enc32 1, .dec32, .enc32, 0, 1, 1, fedSink, _, rfl, ⟨rfl, rfl⟩, rfl, List.mem_singleton.2 rfl, rfl,
    rfl, rfl, rfl, rfl⟩⟩

/-- A sink that refuses its next append. -/
def fullSink : Sink := { okSink with answers := [.fail ⟨7⟩ none] }

theorem witness_EncodeZeroStepAppendsZero :
    (∃ (s : State) (op : Instr) (id : Nat) (k : Sink), isEncode op = true ∧ s.Running op ∧ s.HasSink id k ∧
      s.blk.v.setWidth (width op) = 0 ∧ k.next = .ok) ∧
    (∃ (s : State) (op : Instr) (id : Nat) (k : Sink) (f : SinkFault) (left : Option (List Byte × Nat)),
      isEncode op = true ∧ s.Running op ∧ s.HasSink id k ∧ s.blk.v.setWidth (width op) = 0 ∧
      k.next = .fail f left) ∧
    (∃ (s : State) (op : Instr) (t : State), isEncode op = true ∧ s.Running op ∧ exec op s = .next t ∧
      t.blk.phase = .run op) ∧
    (∃ (s : State) (op : Instr) (t : State), isEncode op = true ∧ s.Idle ∧ exec op s = .next t) :=
  ⟨⟨midEncode .enc32 0 okSink, .enc32, 0, _, rfl, ⟨rfl, rfl⟩, ⟨rfl, rfl⟩, rfl, rfl⟩,
   ⟨midEncode .enc64 0 fullSink, .enc64, 0, _, _, _, rfl, ⟨rfl, rfl⟩, ⟨rfl, rfl⟩, rfl, rfl⟩,
   ⟨midEncode .enc64 128 okSink, .enc64, _, rfl, ⟨rfl, rfl⟩, rfl, rfl⟩,
   ⟨idle [], .enc32, _, rfl, ⟨rfl, rfl⟩, rfl⟩⟩

/-- The largest one-byte value and the smallest two-byte value, accepted and refused. -/
theorem witness_EncodeIterationAppendsGroup :
    (∃ (s : State) (op : Instr) (id : Nat) (k : Sink), isEncode op = true ∧ s.Running op ∧ s.HasSink id k ∧
      s.blk.v.setWidth (width op) = 127 ∧
      s.blk.v.setWidth (width op) ≠ 0 ∧ s.blk.v.setWidth (width op) >>> 7 = 0 ∧ k.next = .ok) ∧
    (∃ (s : State) (op : Instr) (id : Nat) (k : Sink) (f : SinkFault) (left : Option (List Byte × Nat)),
      isEncode op = true ∧ s.Running op ∧ s.HasSink id k ∧ s.blk.v.setWidth (width op) ≠ 0 ∧
      s.blk.v.setWidth (width op) >>> 7 = 0 ∧ k.next = .fail f left) ∧
    (∃ (s : State) (op : Instr) (id : Nat) (k : Sink), isEncode op = true ∧ s.Running op ∧ s.HasSink id k ∧
      s.blk.v.setWidth (width op) = 128 ∧
      s.blk.v.setWidth (width op) ≠ 0 ∧ s.blk.v.setWidth (width op) >>> 7 ≠ 0 ∧ k.next = .ok) ∧
    (∃ (s : State) (op : Instr) (id : Nat) (k : Sink) (f : SinkFault) (left : Option (List Byte × Nat)),
      isEncode op = true ∧ s.Running op ∧ s.HasSink id k ∧ s.blk.v.setWidth (width op) ≠ 0 ∧
      s.blk.v.setWidth (width op) >>> 7 ≠ 0 ∧ k.next = .fail f left) :=
  ⟨⟨midEncode .enc32 127 okSink, .enc32, 0, _, rfl, ⟨rfl, rfl⟩, ⟨rfl, rfl⟩, by decide, by decide, by decide, rfl⟩,
   ⟨midEncode .enc64 127 fullSink, .enc64, 0, _, _, _, rfl, ⟨rfl, rfl⟩, ⟨rfl, rfl⟩, by decide, by decide, rfl⟩,
   ⟨midEncode .enc64 128 okSink, .enc64, 0, _, rfl, ⟨rfl, rfl⟩, ⟨rfl, rfl⟩, by decide, by decide, by decide, rfl⟩,
   ⟨midEncode .enc32 128 fullSink, .enc32, 0, _, _, _, rfl, ⟨rfl, rfl⟩, ⟨rfl, rfl⟩, by decide, by decide, rfl⟩⟩

theorem witness_ZeroCaseIsTheGeneralCase :
    ∃ (s : State) (op : Instr), isEncode op = true ∧ s.Running op ∧ s.blk.v.setWidth (width op) = 0 :=
  ⟨midEncode .enc32 0 okSink, .enc32, rfl, ⟨rfl, rfl⟩, rfl⟩

theorem witness_UnansweredAccessHolds :
    (∃ (s : State) (op : Instr) (id : Nat) (k : Sink), s.Running op ∧ isEncode op = true ∧ s.HasSink id k ∧
      k.next = .wait) ∧
    (∃ (s : State) (op : Instr) (id : Nat) (q : Source), s.Running op ∧ isEncode op = false ∧ s.HasSource id q ∧
      q.next = .wait) ∧
    (∃ (s : State) (op : Instr), s.Running op ∧ isEncode op = true ∧ s.blk.sink = none) ∧
    (∃ (s : State) (op : Instr), s.Running op ∧ isEncode op = false ∧ s.blk.source = none) :=
  ⟨⟨midEncode .enc32 1 { okSink with answers := [.wait] }, .enc32, 0, _, ⟨rfl, rfl⟩, rfl, ⟨rfl, rfl⟩, rfl⟩,
   ⟨machine (runBlock .dec32 0 0 0) okSink { bytesOf [] with thereafter := .wait } [], .dec32, 0, _, ⟨rfl, rfl⟩, rfl,
    ⟨rfl, rfl⟩, rfl⟩,
   ⟨machine { runBlock .enc64 1 0 0 with sink := none } okSink (bytesOf []) [], .enc64, ⟨rfl, rfl⟩, rfl, rfl⟩,
   ⟨machine { runBlock .dec64 0 0 0 with source := none } okSink (bytesOf []) [], .dec64, ⟨rfl, rfl⟩, rfl, rfl⟩⟩

theorem witness_DecodeAcceptanceClearsAcc :
    (∃ (s : State) (op : Instr), isEncode op = false ∧ s.Idle ∧ sharesSource s = false ∧ s.blk.argWritten = false) ∧
    (∃ (s : State) (op running : Instr) (rest : List Turn), isEncode op = false ∧ s.Running running ∧
      s.turns = .host s.cur (.issue (encode op)) :: rest) :=
  ⟨⟨State.reset, .dec32, rfl, ⟨rfl, rfl⟩, rfl, rfl⟩,
   ⟨machine (runBlock .enc64 1 0 0) okSink (bytesOf []) [.host 0 (.issue 0x03)], .dec64, .enc64, [], rfl, ⟨rfl,
     rfl⟩, rfl⟩⟩

/-- A terminal byte at the last place in range and at the first place past it, in both widths. -/
theorem witness_TerminalByteWritesResult :
    (∃ (s : State) (op : Instr) (id : Nat) (q : Source) (b : Byte) (rest : List Byte), isEncode op = false ∧
      s.Running op ∧ s.HasSource id q ∧ q.next = .serve ∧ q.Has b rest ∧
      b.toNat < 0x80 ∧ b = 0x7F ∧ s.blk.idx < nmax (width op) ∧ s.blk.idx = 4) ∧
    (∃ (s : State) (op : Instr) (id : Nat) (q : Source) (b : Byte) (rest : List Byte), isEncode op = false ∧
      s.Running op ∧ s.HasSource id q ∧ q.next = .serve ∧ q.Has b rest ∧
      b.toNat < 0x80 ∧ nmax (width op) ≤ s.blk.idx ∧ s.blk.idx = 5 ∧ op = .dec32) ∧
    (∃ (s : State) (op : Instr) (id : Nat) (q : Source) (b : Byte) (rest : List Byte), isEncode op = false ∧
      s.Running op ∧ s.HasSource id q ∧ q.next = .serve ∧ q.Has b rest ∧
      b.toNat < 0x80 ∧ nmax (width op) ≤ s.blk.idx ∧ s.blk.idx = 10 ∧ op = .dec64) :=
  ⟨⟨midDecode .dec32 0 4 [0x7F], .dec32, 0, _, 0x7F, [], rfl, ⟨rfl, rfl⟩, ⟨rfl, rfl⟩, rfl, .inl rfl, by decide, rfl,
    by decide, rfl⟩,
   ⟨midPass .dec32 0 5 [0x00], .dec32, 0, _, 0x00, [], rfl, ⟨rfl, rfl⟩, ⟨rfl, rfl⟩, rfl, .inl rfl, by decide, by decide,
    rfl, rfl⟩,
   ⟨midPass .dec64 0 10 [0x00], .dec64, 0, _, 0x00, [], rfl, ⟨rfl, rfl⟩, ⟨rfl, rfl⟩, rfl, .inl rfl, by decide,
     by decide,
    rfl, rfl⟩⟩

/-- A continuation byte at the bound under REJECT, at the last place in range and at the first place past it under
PASS. -/
theorem witness_ContinuationByteCombines :
    (∃ (s : State) (op : Instr) (id : Nat) (q : Source) (b : Byte) (rest : List Byte), isEncode op = false ∧
      s.Running op ∧ s.HasSource id q ∧ q.next = .serve ∧ q.Has b rest ∧
      0x80 ≤ b.toNat ∧ s.blk.policy = .reject ∧ s.blk.idx = nmax (width op) - 1) ∧
    (∃ (s : State) (op : Instr) (id : Nat) (q : Source) (b : Byte) (rest : List Byte), isEncode op = false ∧
      s.Running op ∧ s.HasSource id q ∧ q.next = .serve ∧ q.Has b rest ∧
      0x80 ≤ b.toNat ∧ b = 0x80 ∧ ¬(s.blk.policy = .reject ∧ s.blk.idx = nmax (width op) - 1) ∧
      s.blk.idx < nmax (width op) ∧ s.blk.idx = 3) ∧
    (∃ (s : State) (op : Instr) (id : Nat) (q : Source) (b : Byte) (rest : List Byte), isEncode op = false ∧
      s.Running op ∧ s.HasSource id q ∧ q.next = .serve ∧ q.Has b rest ∧
      0x80 ≤ b.toNat ∧ ¬(s.blk.policy = .reject ∧ s.blk.idx = nmax (width op) - 1) ∧ nmax (width op) ≤ s.blk.idx ∧
      op = .dec32) ∧
    (∃ (s : State) (op : Instr) (id : Nat) (q : Source) (b : Byte) (rest : List Byte), isEncode op = false ∧
      s.Running op ∧ s.HasSource id q ∧ q.next = .serve ∧ q.Has b rest ∧
      0x80 ≤ b.toNat ∧ ¬(s.blk.policy = .reject ∧ s.blk.idx = nmax (width op) - 1) ∧ nmax (width op) ≤ s.blk.idx ∧
      op = .dec64) :=
  ⟨⟨midDecode .dec64 0 9 [0xFF], .dec64, 0, _, 0xFF, [], rfl, ⟨rfl, rfl⟩, ⟨rfl, rfl⟩, rfl, .inl rfl, by decide,
    rfl, rfl⟩,
   ⟨midDecode .dec32 0 3 [0x80], .dec32, 0, _, 0x80, [], rfl, ⟨rfl, rfl⟩, ⟨rfl, rfl⟩, rfl, .inl rfl, by decide, rfl,
    by decide, by decide, rfl⟩,
   ⟨midPass .dec32 0 5 [0x80], .dec32, 0, _, 0x80, [], rfl, ⟨rfl, rfl⟩, ⟨rfl, rfl⟩, rfl, .inl rfl, by decide, by decide,
    by decide, rfl⟩,
   ⟨midPass .dec64 0 10 [0xFF], .dec64, 0, _, 0xFF, [], rfl, ⟨rfl, rfl⟩, ⟨rfl, rfl⟩, rfl, .inl rfl, by decide,
     by decide,
    by decide, rfl⟩⟩

theorem witness_EndOfStreamIsExhausted :
    ∃ (s : State) (op : Instr) (id : Nat) (q : Source), isEncode op = false ∧ s.Running op ∧ s.HasSource id q ∧
      q.next = .serve ∧ q.rest = [] ∧ q.beyond = .nothing :=
  ⟨midDecode .dec32 0 0 [], .dec32, 0, _, rfl, ⟨rfl, rfl⟩, ⟨rfl, rfl⟩, rfl, rfl, rfl⟩

theorem witness_SourceFailureIsPassedOn :
    ∃ (s : State) (op : Instr) (id : Nat) (q : Source) (f : SourceFault) (left : Option (List Byte × Nat)),
      isEncode op = false ∧ s.Running op ∧ s.HasSource id q ∧ q.next = .fail f left :=
  ⟨machine (runBlock .dec64 0 0 0) okSink { bytesOf [] with answers := [.fail ⟨3⟩ none] } [], .dec64, 0, _, ⟨3⟩,
    none, rfl,
   ⟨rfl, rfl⟩, ⟨rfl, rfl⟩, rfl⟩

theorem witness_PassNeverReportsMalformed :
    ∃ (s t : State) (op : Instr), s.Running op ∧ s.blk.policy = .pass ∧ exec op s = .next t ∧ t.blk.phase = .idle :=
  ⟨midPass .dec32 0 5 [0x00], _, .dec32, ⟨rfl, rfl⟩, rfl, rfl, rfl⟩

theorem witness_InRangeCombinesAgree :
    (4 < nmax 32 ∧ (0x0FFFFFFF#32).toNat < 2 ^ (7 * 4)) ∧ (9 < nmax 64 ∧
      (0x7FFFFFFFFFFFFFFF#64).toNat < 2 ^ (7 * 9)) := by
  decide

theorem witness_EncodeFrame :
    (∃ (s t : State) (op : Instr), isEncode op = true ∧ exec op s = .next t ∧ t.blk.phase = .run op) ∧
    (∃ (s : State) (j : Nat), s.blk.sink ≠ some j ∧ j < s.sinks.length) :=
  ⟨⟨midEncode .enc64 300 okSink, _, .enc64, rfl, rfl, rfl⟩,
   ⟨machine { runBlock .enc32 1 0 0 with sink := none } okSink (bytesOf []) [], 0, by decide, by decide⟩⟩

theorem witness_DecodeFrame :
    (∃ (s t : State) (op : Instr), isEncode op = false ∧ exec op s = .next t ∧ t.blk.phase = .run op) ∧
    (∃ (s : State) (j : Nat), s.blk.source ≠ some j ∧ j < s.sources.length) :=
  ⟨⟨midDecode .dec64 0 0 [0xFF], _, .dec64, rfl, rfl, rfl⟩,
   ⟨machine { runBlock .dec32 0 0 0 with source := none } okSink (bytesOf []) [], 0, by decide, by decide⟩⟩

theorem witness_OperationInProgressNeverStops : ∃ (s : State) (op : Instr), s.blk.phase = .run op :=
  ⟨midEncode .enc32 0 okSink, .enc32, rfl⟩

theorem witness_StepGoesOnOrCompletes :
    (∃ (s t : State) (op : Instr), s.Running op ∧ exec op s = .next t ∧ isEncode op = true) ∧
    (∃ (s t : State) (op : Instr), s.Running op ∧ exec op s = .next t ∧ isEncode op = false) :=
  ⟨⟨midEncode .enc32 1 okSink, _, .enc32, ⟨rfl, rfl⟩, rfl, rfl⟩,
   ⟨midDecode .dec64 0 0 [], _, .dec64, ⟨rfl, rfl⟩, rfl, rfl⟩⟩

theorem witness_OneAccessPerStep :
    (∃ (s t : State) (op : Instr) (id : Nat) (k : Sink), exec op s = .next t ∧ s.Running op ∧ isEncode op = true ∧
      s.HasSink id k ∧ k.next ≠ .wait) ∧
    (∃ (s t : State) (op : Instr) (id : Nat) (q : Source), exec op s = .next t ∧ s.Running op ∧
      isEncode op = false ∧ s.HasSource id q ∧ q.next ≠ .wait) :=
  ⟨⟨midEncode .enc32 1 okSink, _, .enc32, 0, _, rfl, ⟨rfl, rfl⟩, rfl, ⟨rfl, rfl⟩, by decide⟩,
   ⟨midDecode .dec64 0 0 [], _, .dec64, 0, _, rfl, ⟨rfl, rfl⟩, rfl, ⟨rfl, rfl⟩, by decide⟩⟩

/-! #### States with the invariant -/

theorem idleBlock_inv : idleBlock.Inv := by
  refine ⟨?_, ?_, ?_, ?_, ?_, ?_, ?_, ?_, ?_, ?_⟩ <;> simp [idleBlock, Block.fresh, encoding]

theorem runBlock_enc32_inv : (runBlock .enc32 300 0 0).Inv := by
  refine ⟨?_, ?_, ?_, ?_, ?_, ?_, ?_, ?_, ?_, ?_⟩ <;> simp [runBlock, idleBlock, Block.fresh]

theorem runBlock_dec32_inv : (runBlock .dec32 0 0 0).Inv := by
  refine ⟨?_, ?_, ?_, ?_, ?_, ?_, ?_, ?_, ?_, ?_⟩ <;> simp [runBlock, idleBlock, Block.fresh, encoding, isEncode]

/-- A machine of one block with the block's invariant has the invariant. -/
theorem machine_inv {b : Block} {k : Sink} {q : Source} {turns : List Turn} (hb : b.Inv)
    (hs : b.sink = some 0) (hr : b.source = some 0) : (machine b k q turns).Inv := by
  refine ⟨?_, ?_, ?_, ?_, ?_, ?_⟩
  · simpa [State.table, machine, State.reset] using hb
  · simp [State.table, machine, State.reset]
  · simp only [State.sinksInUse, State.table, machine, State.reset, List.filterMap_cons, List.filterMap_nil]
    cases b.sinkInUse <;> simp
  · simp only [State.sourcesInUse, State.table, machine, State.reset, List.filterMap_cons, List.filterMap_nil]
    cases b.sourceInUse [k] <;> simp
  · simp [State.table, machine, State.reset, hs]
  · simp [State.table, machine, State.reset, hr]

theorem witness_ResultComesOnlyFromDecode :
    ∃ (s t : State) (k : Nat) (b b' : Block), s.Inv ∧ step s = .next t ∧ s.blockAt k = some b ∧
      t.blockAt k = some b' ∧ b'.resultWritten = true ∧
      b'.result ≠ b.result :=
  ⟨machine (runBlock .dec32 0 0 0) okSink (bytesOf [0x05]) [], _, 0, _, _, machine_inv runBlock_dec32_inv rfl rfl,
    rfl, rfl,
   rfl, rfl, by decide⟩

theorem witness_BlockNeverWritesArg :
    ∃ (s t : State) (k : Nat) (b b' : Block), s.Inv ∧ step s = .next t ∧ s.blockAt k = some b ∧
      t.blockAt k = some b' ∧ b'.arg ≠ b.arg :=
  ⟨idle [.host 0 (.writeArg 5)], _, 0, _, _, machine_inv idleBlock_inv rfl rfl, rfl, rfl, rfl, by decide⟩

theorem witness_ArgIsSampledOnce :
    (∃ (s t : State) (op : Instr), isEncode op = true ∧ s.Idle ∧ exec op s = .next t) ∧
    (∃ (s : State) (x : Word64) (rest : List Turn), s.blk.busy = true ∧ s.turns = .host s.cur (.writeArg x) :: rest) ∧
    (∃ (s t : State) (op : Instr), s.Running op ∧ isEncode op = true ∧ exec op s = .next t) ∧
    (∃ (s t : State) (op : Instr), s.Idle ∧ isEncode op = false ∧ exec op s = .next t) :=
  ⟨⟨idle [], _, .enc64, rfl, ⟨rfl, rfl⟩, rfl⟩,
   ⟨machine (runBlock .enc32 300 0 0) okSink (bytesOf []) [.host 0 (.writeArg 0)], 0, [], rfl, rfl⟩,
   ⟨midEncode .enc32 300 okSink, _, .enc32, ⟨rfl, rfl⟩, rfl, rfl⟩, ⟨State.reset, _, .dec32, ⟨rfl, rfl⟩, rfl, rfl⟩⟩

theorem witness_Enc32IgnoresUpperArg :
    ∃ (s t : State) (x : Word64), BitVec.setWidth 32 x = s.blk.arg.setWidth 32 ∧ exec .enc32 s = .next t ∧
      x ≠ s.blk.arg :=
  ⟨idle [], _, 0x10000012C, by decide, rfl, by decide⟩

theorem witness_StreamsAndPolicyStayFixed :
    ∃ (s t : State) (k : Nat) (b b' : Block) (op : Instr), s.Inv ∧ step s = .next t ∧ s.blockAt k = some b ∧
      t.blockAt k = some b' ∧ b.started = true ∧
      b.phase = .run op ∧ b'.phase = .run op :=
  ⟨machine (runBlock .enc32 300 0 0) okSink (bytesOf []) [], _, 0, _, _, .enc32,
    machine_inv runBlock_enc32_inv rfl rfl, rfl,
   rfl, rfl, rfl, rfl, rfl⟩

/-! #### The host -/

theorem witness_ResetLeavesStreamsAlone :
    ∃ (s : State) (rest : List Turn), s.turns = .host s.cur .reset :: rest ∧ s.blk.busy = true :=
  ⟨machine (runBlock .enc32 300 0 0) okSink (bytesOf []) [.host 0 .reset], [], rfl, rfl⟩

theorem witness_HostReadsRegisters :
    (∀ r, ∃ (s : State) (rest : List Turn), s.turns = .host s.cur (.read r) :: rest ∧ s.blk.resultWritten = true) ∧
    (∃ (s : State) (rest : List Turn), s.turns = .host s.cur (.read .result) :: rest ∧ s.blk.resultWritten = false) :=
  ⟨fun r => ⟨idle [.host 0 (.read r)], [], rfl, rfl⟩,
   ⟨{ State.reset with turns := [.host 0 (.read .result)] }, [], rfl, rfl⟩⟩

theorem witness_HostWritesArgAnyTime :
    ∃ (s : State) (x : Word64) (rest : List Turn), s.turns = .host s.cur (.writeArg x) :: rest :=
  ⟨idle [.host 0 (.writeArg 1)], 1, [], rfl⟩

/-- Every clause, for a sink and a source: missing at the first number past the last, in mid-operation, free, and in use
elsewhere, on an idle block and on one whose operation uses the other kind; then the detachments. -/
theorem witness_AttachmentRules :
    (∃ (s : State) (id : Nat) (rest : List Turn), s.turns = .host s.cur (.attachSink id) :: rest ∧
      s.sinks.length ≤ id ∧ id = 1) ∧
    (∃ (s : State) (id : Nat) (rest : List Turn), s.turns = .host s.cur (.attachSink id) :: rest ∧ id < s.sinks.length ∧
      s.Running .enc32) ∧
    (∃ (s : State) (id : Nat) (rest : List Turn), s.turns = .host s.cur (.attachSink id) :: rest ∧ id < s.sinks.length ∧
      s.Running .dec32 ∧ sinkUsedElsewhere id s = false) ∧
    (∃ (s : State) (id : Nat) (rest : List Turn), s.turns = .host s.cur (.attachSink id) :: rest ∧ id < s.sinks.length ∧
      s.Idle ∧ sinkUsedElsewhere id s = true) ∧
    (∃ (s : State) (id : Nat) (rest : List Turn), s.turns = .host s.cur (.attachSource id) :: rest ∧
      s.sources.length ≤ id ∧ id = 1) ∧
    (∃ (s : State) (id : Nat) (rest : List Turn), s.turns = .host s.cur (.attachSource id) :: rest ∧
      id < s.sources.length ∧ s.Running .dec64) ∧
    (∃ (s : State) (id : Nat) (rest : List Turn), s.turns = .host s.cur (.attachSource id) :: rest ∧
      id < s.sources.length ∧ s.Idle ∧ sourceUsedElsewhere id s = false) ∧
    (∃ (s : State) (id : Nat) (rest : List Turn), s.turns = .host s.cur (.attachSource id) :: rest ∧
      id < s.sources.length ∧ s.Running .enc64 ∧ sourceUsedElsewhere id s = true) ∧
    (∃ (s : State) (rest : List Turn), s.turns = .host s.cur .detachSink :: rest ∧ s.Running .enc64) ∧
    (∃ (s : State) (rest : List Turn), s.turns = .host s.cur .detachSink :: rest ∧ s.Running .dec64) ∧
    (∃ (s : State) (rest : List Turn), s.turns = .host s.cur .detachSource :: rest ∧ s.Running .dec32) ∧
    (∃ (s : State) (rest : List Turn), s.turns = .host s.cur .detachSource :: rest ∧ s.Idle) :=
  ⟨⟨idle [.host 0 (.attachSink 1)], 1, [], rfl, by decide, rfl⟩,
   ⟨machine (runBlock .enc32 1 0 0) okSink (bytesOf []) [.host 0 (.attachSink 0)], 0, [], rfl, by decide, ⟨rfl, rfl⟩⟩,
   ⟨machine (runBlock .dec32 0 0 0) okSink (bytesOf []) [.host 0 (.attachSink 0)], 0, [], rfl, by decide, ⟨rfl, rfl⟩,
    rfl⟩,
   ⟨besideBusy .enc64 idleBlock [.host 0 (.attachSink 0)], 0, [], rfl, by decide, ⟨rfl, rfl⟩, rfl⟩,
   ⟨idle [.host 0 (.attachSource 1)], 1, [], rfl, by decide, rfl⟩,
   ⟨machine (runBlock .dec64 0 0 0) okSink (bytesOf []) [.host 0 (.attachSource 0)], 0, [], rfl, by decide, ⟨rfl, rfl⟩⟩,
   ⟨idle [.host 0 (.attachSource 0)], 0, [], rfl, by decide, ⟨rfl, rfl⟩, rfl⟩,
   ⟨besideBusy .dec32 (runBlock .enc64 1 0 0) [.host 0 (.attachSource 0)], 0, [], rfl, by decide, ⟨rfl, rfl⟩, rfl⟩,
   ⟨machine (runBlock .enc64 1 0 0) okSink (bytesOf []) [.host 0 .detachSink], [], rfl, ⟨rfl, rfl⟩⟩,
   ⟨machine (runBlock .dec64 0 0 0) okSink (bytesOf []) [.host 0 .detachSink], [], rfl, ⟨rfl, rfl⟩⟩,
   ⟨machine (runBlock .dec32 0 0 0) okSink (bytesOf []) [.host 0 .detachSource], [], rfl, ⟨rfl, rfl⟩⟩,
   ⟨idle [.host 0 .detachSource], [], rfl, ⟨rfl, rfl⟩⟩⟩

theorem witness_PolicyIsFixedBeforeFirstIssue :
    (∃ (s : State) (p : OverlongPolicy) (rest : List Turn), s.turns = .host s.cur (.fixPolicy p) :: rest ∧
      s.blk.started = false) ∧
    (∃ (s : State) (p : OverlongPolicy) (rest : List Turn), s.turns = .host s.cur (.fixPolicy p) :: rest ∧
      s.blk.started = true) :=
  ⟨⟨idle [.host 0 (.fixPolicy .pass)], .pass, [], rfl, rfl⟩,
   ⟨machine { idleBlock with started := true } okSink (bytesOf []) [.host 0 (.fixPolicy .pass)], .pass, [], rfl, rfl⟩⟩

theorem witness_StepKeepsInvariant : ∃ s t : State, s.Inv ∧ step s = .next t ∧ t.blk.busy = true :=
  ⟨machine (runBlock .enc32 300 0 0) okSink (bytesOf []) [], _, machine_inv runBlock_enc32_inv rfl rfl, rfl, rfl⟩

/-! #### Two blocks -/

/-- Block 0 in ENC32 on sink 0, block 1 in DEC32 on source 1. -/
def twoBlocks (turns : List Turn) : State :=
  { State.reset with
    blk := { runBlock .enc32 300 0 0 with source := none }
    others := [(1, { runBlock .dec32 0 0 0 with sink := none, source := some 1 })]
    sinks := [okSink]
    sources := [bytesOf [], bytesOf [0xD3, 0x02]]
    turns := turns }

theorem twoBlocks_inv (turns : List Turn) : (twoBlocks turns).Inv := by
  refine ⟨?_, ?_, ?_, ?_, ?_, ?_⟩
  · simp only [State.table, twoBlocks, State.reset, List.mem_cons, List.not_mem_nil, or_false, forall_eq_or_imp,
    forall_eq]
    constructor <;> refine ⟨?_, ?_, ?_, ?_, ?_, ?_, ?_, ?_, ?_, ?_⟩ <;>
      simp [runBlock, idleBlock, Block.fresh, encoding, isEncode]
  · simp [State.table, twoBlocks, State.reset]
  · show ([0] : List Nat).Nodup
    decide
  · show ([1] : List Nat).Nodup
    decide
  · simp [State.table, twoBlocks, State.reset, runBlock, idleBlock]
  · simp [State.table, twoBlocks, State.reset]

theorem witness_OtherBlocksAreUntouched :
    (∃ (s t : State) (j k : Nat) (b : Block) (rest : List Turn), s.Inv ∧ s.turns = .engine j :: rest ∧
      step s = .next t ∧ k ≠ j ∧ s.blockAt j = some b ∧ b.phase ≠ .idle ∧ (s.blockAt k).isSome) ∧
    (∃ (s t : State) (j k : Nat) (b : Block) (rest : List Turn) (a : HostAction), s.Inv ∧ s.turns = .host j a :: rest ∧
      step s = .next t ∧ k ≠ j ∧ s.blockAt j = some b) :=
  ⟨⟨twoBlocks [.engine 1], _, 1, 0, _, [], twoBlocks_inv _, rfl, rfl, by decide, rfl, by decide, rfl⟩,
   ⟨twoBlocks [.host 1 .reset], _, 1, 0, _, [], .reset, twoBlocks_inv _, rfl, rfl, by decide, rfl⟩⟩

theorem witness_IndependentBlocksCommute :
    ∃ (s : State) (i j : Nat) (a b : Block), s.Inv ∧ i ≠ j ∧ s.blockAt i = some a ∧ s.blockAt j = some b ∧
      a.phase ≠ .idle ∧ b.phase ≠ .idle :=
  ⟨twoBlocks [], 0, 1, _, _, twoBlocks_inv _, by decide, rfl, rfl, by decide, by decide⟩

theorem witness_TurnActsOnItsOwnBlock :
    (∃ (s : State) (k : Nat) (b : Block) (rest : List Turn), s.turns = .engine k :: rest ∧ s.Inv ∧
      s.blockAt k = some b ∧ k ≠ s.cur ∧ b.phase ≠ .idle) ∧
    (∃ (s : State) (k : Nat) (b : Block) (a : HostAction) (rest : List Turn), s.turns = .host k a :: rest ∧ s.Inv ∧
      s.blockAt k = some b ∧ k ≠ s.cur) ∧
    (∃ (s : State) (k : Nat) (rest : List Turn), s.turns = .engine k :: rest ∧ s.blockAt k = none) ∧
    (∃ (s : State) (k : Nat) (a : HostAction) (rest : List Turn), s.turns = .host k a :: rest ∧ s.blockAt k = none) :=
  ⟨⟨twoBlocks [.engine 1], 1, _, [], rfl, twoBlocks_inv _, rfl, by decide, by decide⟩,
   ⟨twoBlocks [.host 1 (.writeArg 5)], 1, _, .writeArg 5, [], rfl, twoBlocks_inv _, rfl, by decide⟩,
   ⟨twoBlocks [.engine 2], 2, [], rfl, rfl⟩, ⟨twoBlocks [.host 2 .reset], 2, .reset, [], rfl, rfl⟩⟩

/-! #### The wire format and whole operations -/

theorem witness_EveryByteIsOneOfTwoKinds :
    isTerminal 0x7F = true ∧ isTerminal 0x80 = false ∧ groupOf 0x80 = 0x7F ∧ groupOf 0xFF = 0x00 := by decide

theorem witness_LengthIsLeast :
    (0x0FFFFFFF#32).toNat < 2 ^ (7 * 4) ∧ ¬ (0x10000000#32).toNat < 2 ^ (7 * 4) ∧ encLen 0x10000000#32 = 5 ∧
    encLen 0x8000000000000000#64 = 10 := by decide

theorem witness_EncodingIsPrefixFree : encBytes 300#32 <+: encBytes 300#32 ∧ encBytes 300#64 <+: encBytes 300#64 := by
  decide

theorem witness_CanonicalSequences :
    (wellShaped [0x80, 0x80, 0x80, 0x80, 0x0F] = true ∧ [0x80, 0x80, 0x80, 0x80, 0x0F].length = 5) ∧
    canonical 32 [0x80, 0x80, 0x80, 0x80, 0x0F] := ⟨by decide, 0xFFFFFFFF#32, by decide⟩

theorem witness_ShortSequencesDecode :
    (wellShaped [0xFF, 0xFF, 0xFF, 0xFF, 0x10] = true ∧ [0xFF, 0xFF, 0xFF, 0xFF, 0x10].length ≤ 5) ∧
    (wellShaped [0x00] = true ∧ [0x00].length ≤ 10) := by decide

theorem witness_EncodeAppendsItsEncoding :
    ∃ (s : State) (op : Instr) (id j : Nat) (k : Sink) (q : Source), isEncode op = true ∧
      s.turns = [.host s.cur (.issue (encode op))] ∧ s.Idle ∧ s.blk.argWritten = true ∧
      sharesSink s = false ∧ s.HasSink id k ∧ k.Accepts ∧ k.feeds = some j ∧ s.sources[j]? = some q ∧
      k.feeds ≠ some (j + 1) :=
  ⟨machine idleBlock fedSink (bytesOf []) [.host 0 (.issue 0x00)], .enc32, 0, 0, _, _, rfl, rfl, ⟨rfl, rfl⟩, rfl, rfl,
   ⟨rfl, rfl⟩, ⟨rfl, rfl⟩, rfl, rfl, by decide⟩

theorem witness_SinkFaultKeepsFirstBytes :
    ∃ (s : State) (op : Instr) (id n j : Nat) (k : Sink) (q : Source) (f : SinkFault) (left : Option (List Byte × Nat)),
      isEncode op = true ∧ s.turns = [.host s.cur (.issue (encode op))] ∧ s.Idle ∧
      s.blk.argWritten = true ∧ sharesSink s = false ∧ s.HasSink id k ∧ n < encLen (s.blk.arg.setWidth (width op)) ∧
      n = 1 ∧ k.answers = List.replicate n .ok ++ [.fail f left] ∧ k.feeds = some j ∧ s.sources[j]? = some q ∧
      k.feeds ≠ some (j + 1) :=
  ⟨machine idleBlock { fedSink with answers := [.ok, .fail ⟨7⟩ none] } (bytesOf []) [.host 0 (.issue 0x01)], .enc64,
   0, 1, 0, _, _, ⟨7⟩, none, rfl, rfl, ⟨rfl, rfl⟩, rfl, rfl, ⟨rfl, rfl⟩, by decide, rfl, rfl, rfl, rfl, by decide⟩

theorem witness_DecodeFollowsFunctionalForm :
    (∃ (s : State) (id : Nat) (q : Source) (bs : List Byte) (e : DecodeEnd),
      s.turns = [.host s.cur (.issue 0x02)] ∧ s.Idle ∧ sharesSource s = false ∧ s.HasSource id q ∧
      q.Plays bs e ∧ e = .eos) ∧
    (∃ (s : State) (id : Nat) (q : Source) (bs : List Byte) (e : DecodeEnd),
      s.turns = [.host s.cur (.issue 0x03)] ∧ s.Idle ∧ sharesSource s = false ∧ s.HasSource id q ∧
      q.Plays bs e ∧ e = .fail ⟨3⟩) :=
  ⟨⟨idle [.host 0 (.issue 0x02)], 0, _, [0xD3, 0x02], .eos, rfl, ⟨rfl, rfl⟩, rfl, ⟨rfl, rfl⟩, ⟨rfl, rfl, rfl, rfl⟩,
    rfl⟩,
   ⟨machine idleBlock okSink { bytesOf [0xFF] with answers := [.serve, .fail ⟨3⟩ none] } [.host 0 (.issue 0x03)],
     0, _, [0xFF],
    .fail ⟨3⟩, rfl, ⟨rfl, rfl⟩, rfl, ⟨rfl, rfl⟩, ⟨rfl, rfl, none, rfl⟩, rfl⟩⟩

theorem witness_OverlongInputIsRejectedAtTheBound :
    ∃ (s : State) (op : Instr) (id : Nat) (q : Source) (bs rest : List Byte), isEncode op = false ∧
      s.turns = [.host s.cur (.issue (encode op))] ∧ s.Idle ∧
      s.blk.policy = .reject ∧ sharesSource s = false ∧ s.HasSource id q ∧ q.Serves ∧ q.rest = bs ++ rest ∧
      bs.length = nmax (width op) ∧ ∀ b ∈ bs, isTerminal b = false :=
  ⟨machine idleBlock okSink (bytesOf [0xFF, 0xFF, 0xFF, 0xFF, 0x80, 0x00]) [.host 0 (.issue 0x02)], .dec32, 0, _,
   [0xFF, 0xFF, 0xFF, 0xFF, 0x80], [0x00], rfl, rfl, ⟨rfl, rfl⟩, rfl, rfl, ⟨rfl, rfl⟩, ⟨rfl, rfl, rfl⟩, rfl, rfl,
     by decide⟩

theorem witness_RejectDecodesTerminate :
    ∃ (s : State) (op : Instr) (id : Nat) (q : Source), isEncode op = false ∧ s.Running op ∧ s.turns = [] ∧
      s.blk.policy = .reject ∧
      s.blk.idx ≤ nmax (width op) - 1 ∧ s.HasSource id q ∧ (∀ a ∈ q.answers, a ≠ .wait) ∧ q.thereafter ≠ .wait :=
  ⟨midDecode .dec64 0 9 [0xFF], .dec64, 0, _, rfl, ⟨rfl, rfl⟩, rfl, rfl, by decide, ⟨rfl, rfl⟩, by decide, by decide⟩

theorem witness_LoopbackRoundTrip :
    ∃ (s : State) (enc dec : Instr) (i j : Nat) (k : Sink) (q : Source),
      ((enc = .enc32 ∧ dec = .dec32) ∨ (enc = .enc64 ∧ dec = .dec64)) ∧
      s.turns = [.host s.cur (.issue (encode enc)), .host s.cur (.issue (encode dec))] ∧ s.Idle ∧
      s.blk.argWritten = true ∧ sharesSink s = false ∧ sharesSource s = false ∧ s.HasSink i k ∧ s.HasSource j q ∧
      k.Accepts ∧ q.Serves ∧ k.feeds = some j ∧ q.rest = [] :=
  ⟨machine idleBlock { okSink with feeds := some 0 } (bytesOf []) [.host 0 (.issue 0x01), .host 0 (.issue 0x03)],
    .enc64, .dec64,
   0, 0, _, _, .inr ⟨rfl, rfl⟩, rfl, ⟨rfl, rfl⟩, rfl, rfl, rfl, ⟨rfl, rfl⟩, ⟨rfl, rfl⟩, ⟨rfl, rfl⟩, ⟨rfl, rfl,
     rfl⟩, rfl, rfl⟩

theorem witness_AssemblerValuesAreNeverTruncated :
    (4294967295 < 2 ^ 32 ∧ ¬ 4294967296 < 2 ^ 32) ∧ (1 ≤ 2147483648 ∧ 2147483648 ≤ 2 ^ (32 - 1)) ∧
    2 ^ (32 - 1) < 2147483649 := by decide

theorem witness_CommandsBecomeHostActions :
    (∃ p, (AsmValue.negative 2147483648).pattern 32 = .ok p) ∧
    (∃ p, (AsmValue.hex 0xFFFFFFFFFFFFFFFF).pattern 64 = .ok p) := ⟨⟨_, rfl⟩, ⟨_, rfl⟩⟩

theorem witness_DirectivesSetUpTheStreams :
    (∃ p, assemble .empty [.directive (.source [0xD3]), .directive (.policy .pass), .directive (.sinkfail 1 ⟨7⟩),
      .command .dec32] = .ok p ∧ p.source = some [0xD3] ∧ p.policy = some .pass ∧ p.sinkfail = some (1, ⟨7⟩)) ∧
    (∃ p, assemble .empty [.directive .loopback] = .ok p ∧ p.loopback = true) ∧
    (∃ p c as, assemble .empty [.command .dec32] = .ok p ∧ AsmCommand.actions c = .ok as ∧ p.actions ≠ []) ∧
    (∃ (p : AsmSetup) (k : Nat) (f : SinkFault), p.sinkfail = some (k, f) ∧ 1 ≤ k ∧ k = 1) ∧
    (∃ p : AsmSetup, p.loopback = true ∧ p.sinkfail = none) ∧
    (∃ p : AsmSetup, p.source.isSome = true ∧ p.policy.isSome = true ∧ p.loopback = false) :=
  ⟨⟨_, rfl, rfl, rfl, rfl⟩, ⟨_, rfl, rfl⟩, ⟨_, .dec64, _, rfl, rfl, by decide⟩,
   ⟨{ AsmSetup.empty with sinkfail := some (1, ⟨7⟩) }, 1, ⟨7⟩, rfl, by decide, rfl⟩,
   ⟨{ AsmSetup.empty with loopback := true }, rfl, rfl⟩,
   ⟨{ AsmSetup.empty with source := some [], policy := some .reject }, rfl, rfl, rfl⟩⟩

end Sys2Proof.Tests
end

/-! PROOF. The statements of spec/10_state.md: what a move may do to the block in focus, that every move keeps the
machine's invariant, where `RESULT` and `ARG` come from, and when a launch stops. -/

namespace Sys2Proof.Machine

/-! ### The invariant of one block -/

/-- An idle block whose `STATUS` and `FAULT_INFO` some completion left keeps its promises. -/
theorem Block.inv_of_idle {b : Block} (c : Completion) (hbusy : b.busy = false) (hphase : b.phase = .idle)
    (hstatus : b.status = statusCode c) (hinfo : b.faultInfo = completionInfo c) : b.Inv where
  busyPhase := by simp [hbusy, hphase]
  statusLegal := by rw [hstatus]; cases c <;> simp [statusCode]
  sinkInfo := by rw [hstatus, hinfo]; cases c <;> simp [statusCode, completionInfo]
  sourceInfo := by rw [hstatus, hinfo]; cases c <;> simp [statusCode, completionInfo]
  encodeArg := by simp [encoding, hphase]
  v32 := by simp [hphase]
  acc32 := by simp [hphase]
  idx32 := by simp [hphase]
  idx64 := by simp [hphase]
  busyStarted := by simp [hbusy]

/-- A block that is not busy is in phase idle (10_state.md R28). -/
theorem Block.Inv.phase_idle {b : Block} (hb : b.Inv) (hbusy : b.busy = false) : b.phase = .idle := by
  by_contra hp
  simpa [hbusy] using hb.busyPhase.2 hp

/-- A block that runs an operation has had its first issue (70_reset_and_hazards.md R142). -/
theorem Block.Inv.started_of_run {b : Block} {op : Instr} (hb : b.Inv) (hp : b.phase = .run op) : b.started = true :=
  hb.busyStarted (hb.busyPhase.2 (by simp [hp]))

/-- A 32-bit value held zero-extended stays a 32-bit value. -/
theorem toNat_extend32_lt (x : BitVec 32) : (x.setWidth 64).toNat < 2 ^ 32 := by
  have := x.isLt
  rw [BitVec.toNat_setWidth]
  omega

theorem Block.Inv.encodeAccepted {b : Block} {op : Instr} (hb : b.Inv) (he : isEncode op = true)
    (ha : b.argWritten = true) (hs : b.started = true) : (b.encodeAccepted (width op) op).Inv where
  busyPhase := by simp
  statusLegal := hb.statusLegal
  sinkInfo := hb.sinkInfo
  sourceInfo := hb.sourceInfo
  encodeArg := fun _ => ha
  v32 := by
    rintro ⟨⟩
    exact toNat_extend32_lt _
  acc32 := by rintro ⟨⟩; cases he
  idx32 := by rintro ⟨⟩; cases he
  idx64 := by rintro ⟨⟩; cases he
  busyStarted := fun _ => hs

theorem Block.Inv.decodeAccepted {b : Block} {op : Instr} (hb : b.Inv) (he : isEncode op = false)
    (hs : b.started = true) : (b.decodeAccepted op).Inv where
  busyPhase := by simp
  statusLegal := hb.statusLegal
  sinkInfo := hb.sinkInfo
  sourceInfo := hb.sourceInfo
  encodeArg := by simp [encoding, he]
  v32 := by rintro ⟨⟩; cases he
  acc32 := by simp
  idx32 := by simp
  idx64 := by simp
  busyStarted := fun _ => hs

theorem Block.Inv.loadV {b : Block} {op : Instr} (hb : b.Inv) (hp : b.phase = .run op) (x : BitVec (width op)) :
    (b.loadV (width op) x).Inv :=
  { hb with
    v32 := by
      intro h
      obtain rfl : op = .enc32 := by simpa [hp] using h
      exact toNat_extend32_lt x }

/-- Under REJECT a decode that is not at the bound may advance `IDX` (41_decode.md R105). -/
theorem idx_lt_of_not_atBound {W : Nat} {b : Block} (h : atBound W b = false) (hr : b.policy = .reject)
    (hi : b.idx ≤ nmax W - 1) : b.idx + 1 ≤ nmax W - 1 := by
  have : b.idx ≠ nmax W - 1 := by simpa [atBound, hr] using h
  omega

theorem Block.Inv.combined {b : Block} {op : Instr} (hb : b.Inv) (hp : b.phase = .run op)
    (hn : atBound (width op) b = false) (x : BitVec (width op)) : (b.combined (width op) x).Inv :=
  { hb with
    acc32 := by
      intro h
      obtain rfl : op = .dec32 := by simpa [hp] using h
      exact toNat_extend32_lt x
    idx32 := by
      intro h hr
      obtain rfl : op = .dec32 := by simpa [hp] using h
      exact idx_lt_of_not_atBound hn hr (hb.idx32 h hr)
    idx64 := by
      intro h hr
      obtain rfl : op = .dec64 := by simpa [hp] using h
      exact idx_lt_of_not_atBound hn hr (hb.idx64 h hr) }

/-! ### The transition of an operation, as a change of its block -/

/-- What a transition of `op` may make of the block in focus of `s`. -/
inductive OpMove (op : Instr) (s : State) : Block → Prop where
  | stays : OpMove op s s.blk
  | completes (c : Completion) : OpMove op s (s.blk.completed c s.cur)
  | decodes (r : Word64) : OpMove op s { s.blk.completed .ok s.cur with result := r, resultWritten := true }
  | iterates (hp : s.blk.phase = .run op) (x : BitVec (width op)) : OpMove op s (s.blk.loadV (width op) x)
  | combines (hp : s.blk.phase = .run op) (hn : atBound (width op) s.blk = false) (x : BitVec (width op)) :
      OpMove op s (s.blk.combined (width op) x)
  | acceptsEncode (he : isEncode op = true) (hs : sharesSink s = false) (ha : s.blk.argWritten = true) :
      OpMove op s (s.blk.encodeAccepted (width op) op)
  | acceptsDecode (he : isEncode op = false) (hs : sharesSource s = false) : OpMove op s (s.blk.decodeAccepted op)

theorem encodeStep_opMove {op : Instr} {s t : State} (hp : s.blk.phase = .run op)
    (hx : encodeStep (width op) s = .next t) :
    OpMove op s t.blk ∧ t.sinks.length = s.sinks.length ∧ t.sources.length = s.sources.length := by
  rcases encodeStep_cases (width op) s with ⟨-, h⟩ | ⟨id, k, -, ⟨-, h⟩ | ⟨-, h⟩ | ⟨f, left, -, h⟩⟩ <;> rw [h] at hx <;>
    cases hx
  · exact ⟨.stays, rfl, rfl⟩
  · exact ⟨.stays, by simp, rfl⟩
  · refine ⟨?_, by simp [State.appended], by simp [State.appended]⟩
    rcases stepRest_cases (s.blk.v.setWidth (width op))
      (s.appended id k (stepByte (s.blk.v.setWidth (width op)))) with ⟨-, h⟩ | ⟨-, h⟩ <;> rw [h]
    · exact .completes .ok
    · exact .iterates hp _
  · exact ⟨.completes _, by simp [State.refusedAppend], by simp⟩

theorem decodeStep_opMove {op : Instr} {s t : State} (hp : s.blk.phase = .run op)
    (hx : decodeStep (width op) (overlongOf op) s = .next t) :
    OpMove op s t.blk ∧ t.sinks.length = s.sinks.length ∧ t.sources.length = s.sources.length := by
  rcases decodeStep_cases (width op) (overlongOf op) s with ⟨-, h⟩ | ⟨id, q, -, ⟨-, h⟩ | ⟨b, rest, -, -, h⟩ |
    ⟨-, -, h⟩ | ⟨f, left, -, h⟩⟩ <;> rw [h] at hx <;> cases hx
  · exact ⟨.stays, rfl, rfl⟩
  · exact ⟨.stays, rfl, by simp⟩
  · refine ⟨?_, by simp, by simp [State.consumed]⟩
    rcases byteStep_cases (width op) (overlongOf op) b (s.consumed id q b rest) with ⟨-, h⟩ | ⟨-, -, h⟩ | ⟨-, hn, h⟩ <;>
      rw [h]
    · exact .decodes _
    · exact .completes .malformedVarint
    · exact .combines hp hn _
  · exact ⟨.completes .sourceExhausted, rfl, by simp [State.sawEos]⟩
  · exact ⟨.completes (.sourceFault f), rfl, by simp [State.refusedRead]⟩

/-- A transition of an operation is one of the moves, and no stream comes or goes. -/
theorem exec_opMove {op : Instr} {s t : State} (hx : exec op s = .next t) :
    OpMove op s t.blk ∧ t.sinks.length = s.sinks.length ∧ t.sources.length = s.sources.length := by
  cases he : isEncode op with
  | true =>
    rcases exec_encode_cases (s := s) he with ⟨hp, h⟩ | ⟨-, -, h⟩ | ⟨-, hs, ha, h⟩ | ⟨-, h | h⟩ <;> rw [h] at hx
    · exact encodeStep_opMove hp hx
    · cases hx; exact ⟨.stays, rfl, rfl⟩
    · cases hx; exact ⟨.acceptsEncode he hs ha, rfl, rfl⟩
    · cases hx
    · cases hx
  | false =>
    rcases exec_decode_cases (s := s) he with ⟨hp, h⟩ | ⟨-, -, h⟩ | ⟨-, hs, h⟩ | ⟨-, h⟩ <;> rw [h] at hx
    · exact decodeStep_opMove hp hx
    · cases hx; exact ⟨.stays, rfl, rfl⟩
    · cases hx; exact ⟨.acceptsDecode he hs, rfl, rfl⟩
    · cases hx

/-! ### The invariant of the machine, seen from the block in focus -/

/-- Block `b` could stand in focus in `s`: it keeps its promises, the streams it uses are used by no other block, and
its attached streams exist. -/
structure State.Admits (s : State) (b : Block) : Prop where
  inv : b.Inv
  /-- No other block's operation uses the sink this block's operation uses (R52). -/
  sinkFree : ∀ id, b.sinkInUse = some id → ∀ p ∈ s.others, p.2.sinkInUse ≠ some id
  /-- Nor the source, a connected sink's source counted in (log 19). -/
  sourceFree : ∀ id, b.sourceInUse s.sinks = some id → ∀ p ∈ s.others, p.2.sourceInUse s.sinks ≠ some id
  sinkExists : ∀ id, b.sink = some id → id < s.sinks.length
  sourceExists : ∀ id, b.source = some id → id < s.sources.length

theorem nodup_filterMap_cons {α β : Type} {f : α → Option β} {a : α} {l : List α} :
    ((a :: l).filterMap f).Nodup ↔ (∀ b, f a = some b → ∀ x ∈ l, f x ≠ some b) ∧ (l.filterMap f).Nodup := by
  cases h : f a with
  | none => simp [h]
  | some b => simp [h]

/-- What a block uses depends on the sinks by their connections only. -/
theorem sourceInUse_congr {ks ks' : List Sink} (h : ∀ i, fedBy ks' i = fedBy ks i) (b : Block) :
    b.sourceInUse ks' = b.sourceInUse ks := by
  rw [Block.sourceInUse, funext h]
  rfl

/-- The invariant splits into that of the block in focus and that of the others. -/
theorem State.inv_iff {s : State} : s.Inv ↔ s.Admits s.blk ∧
    (∀ p ∈ s.others, p.2.Inv ∧ (∀ id, p.2.sink = some id → id < s.sinks.length) ∧
      ∀ id, p.2.source = some id → id < s.sources.length) ∧
    (s.cur :: s.others.map Prod.fst).Nodup ∧ (s.others.filterMap fun p => p.2.sinkInUse).Nodup ∧
    (s.others.filterMap fun p => p.2.sourceInUse s.sinks).Nodup := by
  constructor
  · intro h
    have hk := nodup_filterMap_cons.1 h.sinksExclusive
    have hq := nodup_filterMap_cons.1 h.sourcesExclusive
    have hf : (s.cur, s.blk) ∈ s.table := List.mem_cons_self
    exact ⟨⟨h.blocks _ hf, hk.1, hq.1, h.sinkExists _ hf, h.sourceExists _ hf⟩,
      fun p hp => have hp' : p ∈ s.table := List.mem_cons_of_mem _ hp
        ⟨h.blocks p hp', h.sinkExists p hp', h.sourceExists p hp'⟩, h.numbers, hk.2, hq.2⟩
  · rintro ⟨hb, ho, hn, hk, hq⟩
    exact ⟨List.forall_mem_cons.2 ⟨hb.inv, fun p hp => (ho p hp).1⟩, hn, nodup_filterMap_cons.2 ⟨hb.sinkFree, hk⟩,
      nodup_filterMap_cons.2 ⟨hb.sourceFree, hq⟩, List.forall_mem_cons.2 ⟨hb.sinkExists, fun p hp => (ho p hp).2.1⟩,
      List.forall_mem_cons.2 ⟨hb.sourceExists, fun p hp => (ho p hp).2.2⟩⟩

theorem State.Inv.admits {s : State} (h : s.Inv) : s.Admits s.blk := (State.inv_iff.1 h).1

/-- A move of the block in focus keeps the invariant when the new block is admitted and the streams keep their number
and their connections. -/
theorem State.Inv.move {s t : State} (h : s.Inv) (hc : t.cur = s.cur) (ho : t.others = s.others)
    (hf : ∀ i, fedBy t.sinks i = fedBy s.sinks i) (hk : t.sinks.length = s.sinks.length)
    (hq : t.sources.length = s.sources.length) (hb : s.Admits t.blk) : t.Inv := by
  obtain ⟨-, hothers, hn, hks, hqs⟩ := State.inv_iff.1 h
  obtain ⟨hinv, hsf, hqf, hse, hqe⟩ := hb
  refine State.inv_iff.2 ⟨⟨hinv, ?_, ?_, ?_, ?_⟩, ?_, ?_, ?_, ?_⟩ <;>
    simp only [hc, ho, hk, hq, sourceInUse_congr hf] <;> assumption

/-- The same for a move that leaves the streams as they are. -/
theorem State.Inv.move_block {s t : State} {b : Block} (h : s.Inv) (hc : t.cur = s.cur) (ho : t.others = s.others)
    (hk : t.sinks = s.sinks) (hq : t.sources = s.sources) (he : t.blk = b) (hb : s.Admits b) : t.Inv :=
  h.move hc ho (fun i => by rw [hk]) (by rw [hk]) (by rw [hq]) (by rwa [he])

/-- The order of the blocks and which one is in focus do not matter. -/
theorem State.Inv.of_perm {s m : State} (h : s.Inv) (hp : m.table.Perm s.table) (hk : m.sinks = s.sinks)
    (hq : m.sources = s.sources) : m.Inv where
  blocks := fun p hm => h.blocks p (hp.mem_iff.1 hm)
  numbers := (hp.map _).nodup_iff.2 h.numbers
  sinksExclusive := (hp.filterMap _).nodup_iff.2 h.sinksExclusive
  sourcesExclusive := by
    rw [State.sourcesInUse, hk]
    exact (hp.filterMap _).nodup_iff.2 h.sourcesExclusive
  sinkExists := fun p hm => by rw [hk]; exact h.sinkExists p (hp.mem_iff.1 hm)
  sourceExists := fun p hm => by rw [hq]; exact h.sourceExists p (hp.mem_iff.1 hm)

/-! ### Blocks that are admitted -/

/-- A block that uses the same streams and has the same ones attached is admitted if it keeps its promises. -/
theorem State.Admits.of_same_streams {s : State} {b b' : Block} (h : s.Admits b) (hi : b'.Inv)
    (hp : b'.phase = b.phase) (hk : b'.sink = b.sink) (hq : b'.source = b.source) : s.Admits b' where
  inv := hi
  sinkFree := by
    rw [Block.sinkInUse, hp, hk]
    exact h.sinkFree
  sourceFree := by
    rw [Block.sourceInUse, hp, hk, hq]
    exact h.sourceFree
  sinkExists := hk ▸ h.sinkExists
  sourceExists := hq ▸ h.sourceExists

/-- An idle block uses no stream, so it is admitted with streams that exist. -/
theorem State.Admits.of_idle {s : State} {b : Block} (hi : b.Inv) (hp : b.phase = .idle)
    (hk : ∀ id, b.sink = some id → id < s.sinks.length) (hq : ∀ id, b.source = some id → id < s.sources.length) :
    s.Admits b where
  inv := hi
  sinkFree := by simp [(inUse_of_idle s.sinks hp).1]
  sourceFree := by simp [(inUse_of_idle s.sinks hp).2]
  sinkExists := hk
  sourceExists := hq

/-- An encode is accepted only on a sink, and a source fed by it, that no other operation uses (20_memory.md R52, R56). -/
theorem State.Admits.encodeAccepted {s : State} {op : Instr} (h : s.Admits s.blk) (he : isEncode op = true)
    (hs : sharesSink s = false) (hi : (s.blk.encodeAccepted (width op) op).Inv) :
    s.Admits (s.blk.encodeAccepted (width op) op) := by
  obtain ⟨huse, hfed⟩ := inUse_of_encode (b := s.blk.encodeAccepted (width op) op) s.sinks he rfl
  have hfree : ∀ id, s.blk.sink = some id → sinkUsedElsewhere id s = false := by
    intro id hid
    simpa [sharesSink, hid] using hs
  refine ⟨hi, fun id hid => ?_, fun j hj => ?_, h.sinkExists, h.sourceExists⟩
  · exact (sinkUsedElsewhere_eq_false.1 (hfree id (huse ▸ hid))).1
  · rw [hfed] at hj
    obtain ⟨id, hid, hj⟩ := Option.bind_eq_some_iff.1 hj
    exact (sinkUsedElsewhere_eq_false.1 (hfree id hid)).2 j hj

/-- A decode is accepted only on a source that no other operation uses (20_memory.md R52). -/
theorem State.Admits.decodeAccepted {s : State} {op : Instr} (h : s.Admits s.blk) (he : isEncode op = false)
    (hs : sharesSource s = false) (hi : (s.blk.decodeAccepted op).Inv) : s.Admits (s.blk.decodeAccepted op) := by
  obtain ⟨huse, hread⟩ := inUse_of_decode (b := s.blk.decodeAccepted op) s.sinks he rfl
  refine ⟨hi, by simp [huse], fun id hid => ?_, h.sinkExists, h.sourceExists⟩
  have hid' : s.blk.source = some id := hread ▸ hid
  exact sourceUsedElsewhere_eq_false.1 (by simpa [sharesSource, hid'] using hs)

/-- Unless the block encodes, another sink may be attached or the sink detached (70_reset_and_hazards.md R147). -/
theorem State.Admits.withSink {s : State} {b : Block} {k : Option Nat} (h : s.Admits b) (he : encoding b = false)
    (hk : ∀ id, k = some id → id < s.sinks.length) : s.Admits { b with sink := k } := by
  have huse : ({ b with sink := k } : Block).sinkInUse = b.sinkInUse ∧
      ({ b with sink := k } : Block).sourceInUse s.sinks = b.sourceInUse s.sinks := by
    cases hp : b.phase with
    | idle => simp [Block.sinkInUse, Block.sourceInUse, hp]
    | run op =>
      have : isEncode op = false := by simpa [encoding, hp] using he
      simp [Block.sinkInUse, Block.sourceInUse, hp, this]
  exact ⟨{ h.inv with }, huse.1 ▸ h.sinkFree, huse.2 ▸ h.sourceFree, hk, h.sourceExists⟩

/-- Unless the block decodes, another source may be attached or the source detached (70_reset_and_hazards.md R147). -/
theorem State.Admits.withSource {s : State} {b : Block} {q : Option Nat} (h : s.Admits b) (hd : decoding b = false)
    (hq : ∀ id, q = some id → id < s.sources.length) : s.Admits { b with source := q } := by
  have huse : ({ b with source := q } : Block).sourceInUse s.sinks = b.sourceInUse s.sinks := by
    cases hp : b.phase with
    | idle => simp [Block.sourceInUse, hp]
    | run op =>
      have : isEncode op = true := by simpa [decoding, hp] using hd
      simp [Block.sourceInUse, hp, this]
  exact ⟨{ h.inv with }, h.sinkFree, huse ▸ h.sourceFree, h.sinkExists, hq⟩

/-- Every move of an operation whose run has started makes a block that is admitted. -/
theorem OpMove.admits {op : Instr} {s : State} {b : Block} (hm : OpMove op s b) (h : s.Admits s.blk)
    (hs : s.blk.started = true) : s.Admits b := by
  cases hm with
  | stays => exact h
  | completes c => exact .of_idle (Block.inv_of_idle c rfl rfl rfl rfl) rfl h.sinkExists h.sourceExists
  | decodes r => exact .of_idle (Block.inv_of_idle .ok rfl rfl rfl rfl) rfl h.sinkExists h.sourceExists
  | iterates hp x => exact h.of_same_streams (h.inv.loadV hp x) rfl rfl rfl
  | combines hp hn x => exact h.of_same_streams (h.inv.combined hp hn x) rfl rfl rfl
  | acceptsEncode he hshare ha => exact h.encodeAccepted he hshare (h.inv.encodeAccepted he ha hs)
  | acceptsDecode he hshare => exact h.decodeAccepted he hshare (h.inv.decodeAccepted he hs)

/-! ### Every agent's move keeps the invariant -/

theorem exec_keeps_inv {op : Instr} {s t : State} (h : s.Inv) (hs : s.blk.started = true)
    (hx : exec op s = .next t) : t.Inv := by
  obtain ⟨hc, ho, -, -, -⟩ := exec_keeps hx
  obtain ⟨hm, hk, hq⟩ := exec_opMove hx
  exact h.move hc ho (exec_fedBy hx) hk hq (hm.admits h.admits hs)

theorem engineStep_keeps_inv {s t : State} (h : s.Inv) (hx : engineStep s = .next t) : t.Inv := by
  obtain ⟨-, -, -, -, ⟨-, rfl⟩ | ⟨op, hp, hx⟩⟩ := engineStep_keeps hx
  · exact h
  · exact exec_keeps_inv h (h.admits.inv.started_of_run hp) hx

/-- The first issue marks the run as started, which is no promise broken. -/
theorem State.Inv.mark_started {s : State} (h : s.Inv) : (s.onBlk fun b => { b with started := true }).Inv :=
  h.move_block rfl rfl rfl rfl rfl
    (h.admits.of_same_streams { h.admits.inv with busyStarted := fun _ => rfl } rfl rfl rfl)

/-- A policy fixed before the first issue meets an idle block, whose `IDX` is bounded by nothing. -/
theorem Block.Inv.fixPolicy {b : Block} (h : b.Inv) (hs : b.started = false) (p : OverlongPolicy) :
    ({ b with policy := p } : Block).Inv :=
  { h with
    idx32 := fun hp => by simp [h.started_of_run hp] at hs
    idx64 := fun hp => by simp [h.started_of_run hp] at hs }

theorem hostAct_keeps_inv {a : HostAction} {s t : State} (h : s.Inv)
    (hw : waitsForIdle a = true → s.blk.busy = false) (hx : hostAct a s = .next t) : t.Inv := by
  have hb := h.admits
  obtain ⟨hc, ho, -, hcase⟩ := hostAct_cases hx
  rcases hcase with ⟨x, -, e, hk, hq⟩ | ⟨c, op, -, -, hx⟩ | ⟨c, rfl, e, hk, hq⟩ | ⟨r, -, e, hk, hq⟩ |
    ⟨id, -, hid, he, e, hk, hq⟩ | ⟨id, -, hid, hd, e, hk, hq⟩ | ⟨-, he, e, hk, hq⟩ | ⟨-, hd, e, hk, hq⟩ |
    ⟨p, -, hs, e, hk, hq⟩ | ⟨-, e, hk, hq⟩
  · exact h.move_block hc ho hk hq e (hb.of_same_streams { hb.inv with encodeArg := fun _ => rfl } rfl rfl rfl)
  · exact exec_keeps_inv h.mark_started rfl hx
  · have hbusy := hw rfl
    have hp := hb.inv.phase_idle hbusy
    exact h.move_block hc ho hk hq e
      (.of_idle (Block.inv_of_idle .illegalCommand hbusy hp rfl rfl) hp hb.sinkExists hb.sourceExists)
  · exact h.move_block hc ho hk hq e hb
  · exact h.move_block hc ho hk hq e (hb.withSink he (by rintro _ ⟨⟩; exact hid))
  · exact h.move_block hc ho hk hq e (hb.withSource hd (by rintro _ ⟨⟩; exact hid))
  · exact h.move_block hc ho hk hq e (hb.withSink he (by simp))
  · exact h.move_block hc ho hk hq e (hb.withSource hd (by simp))
  · exact h.move_block hc ho hk hq e (hb.of_same_streams (hb.inv.fixPolicy hs p) rfl rfl rfl)
  · exact h.move_block hc ho hk hq e
      (.of_idle (Block.inv_of_idle .ok rfl rfl rfl rfl) rfl (by simp) (by simp))

/-- Settles O38: the moving block, brought into focus, is admitted again after its engine's or its host's move. -/
theorem stepKeepsInvariant : Obligations.StepKeepsInvariant := by
  intro s t h hx
  obtain ⟨m, -, hp, hk, hq, -, -, -, ⟨hx, -⟩ | ⟨a, rest, -, hw, hx⟩⟩ := step_move hx h.numbers
  · exact engineStep_keeps_inv (h.of_perm hp hk hq) hx
  · exact hostAct_keeps_inv (h.of_perm hp hk hq) hw hx

/-! ### What a step does to one block -/

/-- A step leaves a block as it is, or is an operation's transition on it, or its host's action. -/
theorem step_block {s t : State} {k : Nat} {b b' : Block} (hx : step s = .next t) (hi : s.Inv)
    (hb : s.blockAt k = some b) (hb' : t.blockAt k = some b') :
    b' = b ∨ ∃ m : State, m.blk = b ∧ t.blk = b' ∧
      ((∃ op, exec op m = .next t) ∨ ∃ a rest, s.turns = .host k a :: rest ∧ hostAct a m = .next t) := by
  obtain ⟨m, -, -, -, -, hat, hc, ho, hmove⟩ := step_move hx hi.numbers
  by_cases hk : k = m.cur
  · subst hk
    have hm : m.blk = b := by simpa [← hat] using hb
    have ht : t.blk = b' := by simpa [← hc] using hb'
    rcases hmove with ⟨he, -⟩ | ⟨a, rest, hturn, -, ha⟩
    · obtain ⟨-, -, -, -, ⟨-, rfl⟩ | ⟨op, -, he⟩⟩ := engineStep_keeps he
      · exact .inl (ht.symm.trans hm)
      · exact .inr ⟨m, hm, ht, .inl ⟨op, he⟩⟩
    · exact .inr ⟨m, hm, ht, .inr ⟨a, rest, hturn, ha⟩⟩
  · rw [blockAt_congr hc ho hk, hat, hb] at hb'
    exact .inl (Option.some.inj hb').symm

/-- A host action is a write of `ARG`, an accepted issue, a reset, or leaves `ARG` and `RESULT` alone. -/
theorem hostAct_registers {a : HostAction} {s t : State} (hx : hostAct a s = .next t) :
    (∃ x, a = .writeArg x ∧ t.blk = { s.blk with arg := x, argWritten := true }) ∨
    (∃ op, exec op (s.onBlk fun b => { b with started := true }) = .next t) ∨
    (a = .reset ∧ t.blk = s.blk.afterReset) ∨
    (t.blk.arg = s.blk.arg ∧ t.blk.resultWritten = s.blk.resultWritten ∧ t.blk.result = s.blk.result) := by
  obtain ⟨-, -, -, ⟨x, ha, e, -⟩ | ⟨c, op, -, -, hx⟩ | ⟨c, -, e, -⟩ | ⟨r, -, e, -⟩ | ⟨id, -, -, -, e, -⟩ |
    ⟨id, -, -, -, e, -⟩ | ⟨-, -, e, -⟩ | ⟨-, -, e, -⟩ | ⟨p, -, -, e, -⟩ | ⟨ha, e, -⟩⟩ := hostAct_cases hx
  · exact .inl ⟨x, ha, e⟩
  · exact .inr (.inl ⟨op, hx⟩)
  on_goal 8 => exact .inr (.inr (.inl ⟨ha, e⟩))
  all_goals exact .inr (.inr (.inr (by simp [e])))

/-- A host action changes `ARG` only as a write of it or a reset (10_state.md R22). -/
theorem hostAct_arg {a : HostAction} {s t : State} (hx : hostAct a s = .next t) :
    t.blk.arg = s.blk.arg ∨ a = .writeArg t.blk.arg ∨ a = .reset := by
  rcases hostAct_registers hx with ⟨x, rfl, e⟩ | ⟨op, hx⟩ | ⟨ha, -⟩ | ⟨harg, -⟩
  · exact .inr (.inl (by rw [e]))
  · obtain ⟨-, -, -, -, hkeep⟩ := exec_keeps hx
    exact .inl hkeep.arg
  · exact .inr (.inr ha)
  · exact .inl harg

/-- `RESULT` counts as written in `b'` only if it did in `b` with the same value, or a decode has just completed OK
(10_state.md R23). -/
def ResultFrom (b b' : Block) : Prop :=
  b'.resultWritten = true →
    (b.resultWritten = true ∧ b'.result = b.result) ∨
    ∃ op, isEncode op = false ∧ b.phase = .run op ∧ b'.phase = .idle ∧ b'.status = 0x00#8

theorem ResultFrom.of_same {b b' : Block} (hw : b'.resultWritten = b.resultWritten) (hr : b'.result = b.result) :
    ResultFrom b b' := fun h => .inl ⟨hw ▸ h, hr⟩

theorem ExecKeeps.resultFrom {op : Instr} {b b' : Block} (h : ExecKeeps op b b') : ResultFrom b b' := by
  rcases h.result with ⟨hw, hr⟩ | hdone
  · exact .of_same hw hr
  · exact fun _ => .inr ⟨op, hdone⟩

theorem hostAct_resultFrom {a : HostAction} {s t : State} (hx : hostAct a s = .next t) : ResultFrom s.blk t.blk := by
  rcases hostAct_registers hx with ⟨x, -, e⟩ | ⟨op, hx⟩ | ⟨-, e⟩ | ⟨-, hw, hr⟩
  · rw [e]
    exact .of_same rfl rfl
  · obtain ⟨-, -, -, -, hkeep⟩ := exec_keeps hx
    exact hkeep.resultFrom
  · exact fun h => by simp [e] at h
  · exact .of_same hw hr

/-- Settles O27: by `step_block`, on an operation's transition and on the host's actions. -/
theorem resultComesOnlyFromDecode : Obligations.ResultComesOnlyFromDecode := by
  intro s t k b b' hi hx hb hb'
  rcases step_block hx hi hb hb' with rfl | ⟨m, rfl, rfl, ⟨op, hx⟩ | ⟨a, rest, -, hx⟩⟩
  · exact ResultFrom.of_same rfl rfl
  · obtain ⟨-, -, -, -, hkeep⟩ := exec_keeps hx
    exact hkeep.resultFrom
  · exact hostAct_resultFrom hx

/-- Settles O28: by `step_block`; no transition of an operation writes `ARG`, and of the host's actions only two do. -/
theorem blockNeverWritesArg : Obligations.BlockNeverWritesArg := by
  intro s t k b b' hi hx hb hb' hne
  rcases step_block hx hi hb hb' with rfl | ⟨m, rfl, rfl, ⟨op, hx⟩ | ⟨a, rest, hturn, hx⟩⟩
  · exact absurd rfl hne
  · obtain ⟨-, -, -, -, hkeep⟩ := exec_keeps hx
    exact absurd hkeep.arg hne
  · rcases hostAct_arg hx with h | rfl | rfl
    · exact absurd h hne
    · exact .inl ⟨rest, hturn⟩
    · exact .inr ⟨rest, hturn⟩

/-! ### Operations and `ARG` -/

/-- The state with another value in the focus block's `ARG`. -/
def State.withArg (x : Word64) (s : State) : State := { s with blk := { s.blk with arg := x } }

theorem stepRest_withArg {W : Nat} (v : BitVec W) (x : Word64) (s : State) :
    stepRest v (s.withArg x) = (stepRest v s).withArg x := by
  rcases stepRest_cases v s with ⟨hv, h⟩ | ⟨hv, h⟩ <;> rw [h, stepRest]
  · rw [if_pos hv]
    rfl
  · rw [if_neg hv]
    rfl

/-- With no sink to answer an encode step is held (20_memory.md R57, log 10). -/
theorem encodeStep_unattached {W : Nat} {s : State} (h : ∀ id k, ¬ s.HasSink id k) : encodeStep W s = .next s := by
  rw [encodeStep_uniform, appendStep, sinkAppend_unattached h]

/-- A step of an encode in progress does not look at `ARG`. -/
theorem encodeStep_withArg {W : Nat} {s t : State} (x : Word64) (h : encodeStep W s = .next t) :
    encodeStep W (s.withArg x) = .next (t.withArg x) := by
  rcases encodeStep_cases W s with ⟨hn, e⟩ | ⟨id, k, hk, ⟨hn, e⟩ | ⟨hn, e⟩ | ⟨f, left, hn, e⟩⟩ <;> rw [e] at h <;>
    cases h
  · exact encodeStep_unattached (s := s.withArg x) hn
  · exact encodeStep_wait (s := s.withArg x) hk hn
  · rw [encodeStep_ok (s := s.withArg x) hk hn, ← stepRest_withArg]
    rfl
  · exact encodeStep_fail (s := s.withArg x) hk hn

theorem encodeAccepted_withArg {W : Nat} {op : Instr} {s : State} {x : Word64}
    (hx : operand W x = operand W s.blk.arg) :
    (s.withArg x).onBlk (Block.encodeAccepted W op) = (s.onBlk (Block.encodeAccepted W op)).withArg x := by
  simp only [State.onBlk, Block.encodeAccepted, State.withArg, hx]

/-- Acceptance of an encode looks at the low W bits of `ARG` only (40_encode.md R80). -/
theorem acceptEncode_withArg {W : Nat} {op : Instr} {s t : State} {x : Word64} (hx : operand W x = operand W s.blk.arg)
    (h : acceptEncode W op s = .next t) : acceptEncode W op (s.withArg x) = .next (t.withArg x) := by
  have hshare : sharesSink (s.withArg x) = sharesSink s := rfl
  have hwritten : (s.withArg x).blk.argWritten = s.blk.argWritten := rfl
  unfold acceptEncode at h ⊢
  rw [hshare, hwritten, encodeAccepted_withArg hx]
  cases hs : sharesSink s with
  | true => simp [hs] at h
  | false =>
    cases ha : s.blk.argWritten with
    | false => simp [hs, ha] at h
    | true =>
      simp only [hs, ha, Bool.false_eq_true, if_false, if_true] at h ⊢
      cases h
      rfl

/-- An encode takes the same transition whatever `ARG` holds above its operand. -/
theorem encodeOp_withArg {W : Nat} {op : Instr} {s t : State} {x : Word64} (hx : operand W x = operand W s.blk.arg)
    (h : encodeOp W op s = .next t) : encodeOp W op (s.withArg x) = .next (t.withArg x) := by
  have hphase : (s.withArg x).blk.phase = s.blk.phase := rfl
  have hbusy : (s.withArg x).blk.busy = s.blk.busy := rfl
  unfold encodeOp at h ⊢
  rw [hphase, hbusy]
  cases hp : s.blk.phase with
  | idle =>
    cases hb : s.blk.busy with
    | true =>
      simp only [hp, hb] at h ⊢
      cases h
      rfl
    | false =>
      simp only [hp, hb] at h ⊢
      exact acceptEncode_withArg hx h
  | run running =>
    by_cases hr : running = op
    · simp only [hp, hr] at h ⊢
      exact encodeStep_withArg x h
    · simp only [hp, if_neg hr] at h ⊢
      cases h
      rfl

/-- Settles O30: the 32-bit case of `encodeOp_withArg`. -/
theorem enc32IgnoresUpperArg : Obligations.Enc32IgnoresUpperArg :=
  fun _ _ _ hx h => encodeOp_withArg hx h

/-! ### Turns of a running block -/

/-- Settles O5: the engine of a running block runs its operation, and an issue to it is held. -/
theorem stepRunsOperationInProgress : Obligations.StepRunsOperationInProgress := by
  rintro s op ⟨hbusy, hphase⟩
  refine ⟨fun ht => ?_, fun rest ht => ?_, fun c rest ht => ?_⟩
  · simp only [step, takeTurn, ht]
    exact engineStep_run hphase
  · have hpop : s.popTurn = { s with turns := rest } := by rw [State.popTurn, ht, List.tail_cons]
    simp only [step, takeTurn, ht, focus_self, ← hpop]
    exact engineStep_run hphase
  · simp only [step, takeTurn, ht, focus_self, waitsForIdle, hbusy, Bool.and_self, if_true]
    exact engineStep_run hphase

/-! ### Launches that stop -/

theorem exec_encode_idle {op : Instr} {s : State} (he : isEncode op = true) (hi : s.Idle) :
    exec op s = acceptEncode (width op) op s := by
  simp [exec_encode he, encodeOp, hi.1, hi.2]

theorem exec_decode_idle {op : Instr} {s : State} (he : isEncode op = false) (hi : s.Idle) :
    exec op s = acceptDecode op s := by
  simp [exec_decode he, decodeOp, hi.1, hi.2]

theorem exec_refused_of_sharesSink {op : Instr} {s : State} (he : isEncode op = true) (hi : s.Idle)
    (h : sharesSink s = true) : exec op s = .refused .streamShared := by
  rw [exec_encode_idle he hi, acceptEncode, if_pos h]

/-- A decode on a source that another block's operation uses is refused (20_memory.md R52). -/
theorem exec_refused_of_source_used {op : Instr} {s : State} {id j : Nat} {b : Block} (he : isEncode op = false)
    (hi : s.Idle) (hs : s.blk.source = some id) (hb : (j, b) ∈ s.others) (hu : b.sourceInUse s.sinks = some id) :
    exec op s = .refused .streamShared := by
  have : sharesSource s = true := by
    simp only [sharesSource, hs, sourceUsedElsewhere, List.any_eq_true]
    exact ⟨(j, b), hb, by simp [hu]⟩
  rw [exec_decode_idle he hi, acceptDecode, if_pos this]

theorem sharesSink_of_sink_used {s : State} {id j : Nat} {b : Block} (hs : s.blk.sink = some id)
    (hb : (j, b) ∈ s.others) (hu : b.sinkInUse = some id) : sharesSink s = true := by
  simp only [sharesSink, hs, sinkUsedElsewhere, Bool.or_eq_true, List.any_eq_true]
  exact .inl ⟨(j, b), hb, by simp [hu]⟩

/-- An encode on a sink connected to a source that another block's operation uses is refused (log 19). -/
theorem sharesSink_of_fed_used {s : State} {id n j : Nat} {k : Sink} {b : Block} (hk : s.HasSink id k)
    (hn : k.feeds = some n) (hb : (j, b) ∈ s.others) (hu : b.sourceInUse s.sinks = some n) : sharesSink s = true := by
  have hfed : fedBy s.sinks id = some n := by simp [fedBy, hk.2, hn]
  simp only [sharesSink, hk.1, sinkUsedElsewhere, hfed, sourceUsedElsewhere, Bool.or_eq_true, List.any_eq_true]
  exact .inr ⟨(j, b), hb, by simp [hu]⟩

/-- An encode in progress on a connected sink uses the source it feeds. -/
theorem sourceInUse_of_encode {ks : List Sink} {b : Block} {op : Instr} {i n : Nat} {x : Sink}
    (he : isEncode op = true) (hp : b.phase = .run op) (hi : b.sink = some i) (hx : ks[i]? = some x)
    (hn : x.feeds = some n) : b.sourceInUse ks = some n := by
  rw [(inUse_of_encode ks he hp).2]
  simp [fedBy, hi, hx, hn]

/-- Settles O10: each clause names the use that `sharesSink` or `sharesSource` finds. -/
theorem launchStopsByName : Obligations.LaunchStopsByName := by
  refine ⟨?_, ?_, ?_, ?_, ?_⟩
  · intro s op he hi ha hs
    simp [exec_encode_idle he hi, acceptEncode, ha, hs]
  · intro s op id j b he hi hs hb hu
    exact exec_refused_of_sharesSink he hi (sharesSink_of_sink_used hs hb hu)
  · intro s op id j b he hi hs hb hu
    exact exec_refused_of_source_used he hi hs hb hu
  · intro s op other id n j k b he hi hk hn hb hp
    refine ⟨fun hd hq => ?_, fun i x ho hsink hx hfeed => ?_⟩
    · exact exec_refused_of_sharesSink he hi (sharesSink_of_fed_used hk hn hb (by rw [(inUse_of_decode _ hd hp).2, hq]))
    · exact exec_refused_of_sharesSink he hi
        (sharesSink_of_fed_used hk hn hb (sourceInUse_of_encode ho hp hsink hx hfeed))
  · intro s op other id i j x b he hi hs hb hp ho hsink hx hfeed
    exact exec_refused_of_source_used he hi hs hb (sourceInUse_of_encode ho hp hsink hx hfeed)

/-! ### The start of a run -/

theorem Block.fresh_inv : Block.fresh.Inv := Block.inv_of_idle .ok rfl rfl rfl rfl

theorem State.resetWith_zero : State.resetWith 0 = State.reset := rfl

/-- At the start of a run every block is fresh. -/
theorem fresh_of_mem_resetWith {n : Nat} {p : Nat × Block} (hp : p ∈ (State.resetWith n).table) :
    p.2 = Block.fresh := by
  rcases List.mem_cons.1 hp with rfl | hp
  · rfl
  · obtain ⟨i, -, rfl⟩ := List.mem_map.1 hp
    rfl

/-- The blocks of a start are numbered from 0. -/
theorem resetWith_numbers (n : Nat) : (State.resetWith n).table.map Prod.fst = List.range (n + 1) := by
  simp [State.table, State.resetWith, State.reset, List.range_succ_eq_map, Function.comp_def]

/-- Of what a fresh block has none of, the start of a run has none. -/
theorem resetWith_filterMap_eq_nil {f : Block → Option Nat} (hf : f Block.fresh = none) (n : Nat) :
    ((State.resetWith n).table.filterMap fun p => f p.2) = [] :=
  List.filterMap_eq_nil_iff.2 fun p hp => by rw [fresh_of_mem_resetWith hp, hf]

theorem resetWith_inv (n : Nat) : (State.resetWith n).Inv where
  blocks := fun p hp => fresh_of_mem_resetWith hp ▸ Block.fresh_inv
  numbers := resetWith_numbers n ▸ List.nodup_range
  sinksExclusive := by
    rw [State.sinksInUse, resetWith_filterMap_eq_nil rfl]
    exact List.nodup_nil
  sourcesExclusive := by
    rw [State.sourcesInUse, resetWith_filterMap_eq_nil rfl]
    exact List.nodup_nil
  sinkExists := fun p hp id h => by rw [fresh_of_mem_resetWith hp] at h; cases h
  sourceExists := fun p hp id h => by rw [fresh_of_mem_resetWith hp] at h; cases h

/-- Settles O37: every block of a start is fresh, with the single block of reset as the case of no further instance. -/
theorem resetHasInvariant : Obligations.ResetHasInvariant :=
  ⟨State.resetWith_zero ▸ resetWith_inv 0, resetWith_inv⟩

end Sys2Proof.Machine

/-! PROOF. The statements of spec/20_memory.md: an encode and a decode over a connected sink and source give the operand
back, one access a transition, held accesses, and engine moves of two blocks in either order. -/

namespace Sys2Proof.Machine

/-! ### The encoding by its first byte -/

/-- More fuel than a value needs changes nothing. -/
theorem leastLen_succ_fuel {x : Nat} (fuel n : Nat) (h : x < 2 ^ (7 * (n + fuel))) :
    leastLen x (fuel + 1) n = leastLen x fuel n := by
  induction fuel generalizing n with
  | zero => simp only [leastLen, if_pos (show x < 2 ^ (7 * n) from h)]
  | succ fuel ih =>
    have ih' := ih (n + 1) (by rwa [Nat.add_right_comm])
    rw [leastLen, ih']
    rfl

/-- Without its lowest group a value needs one group less. -/
theorem leastLen_div (x fuel n : Nat) : leastLen x fuel (n + 1) = leastLen (x / 128) fuel n + 1 := by
  induction fuel generalizing n with
  | zero => rfl
  | succ fuel ih =>
    have hlt : x < 2 ^ (7 * (n + 1)) ↔ x / 128 < 2 ^ (7 * n) := by
      rw [Nat.div_lt_iff_lt_mul (by norm_num), Nat.mul_succ, Nat.pow_add]
    simp only [leastLen, hlt, ih (n + 1)]
    split <;> rfl

theorem toNat_lt_two_pow_nmax {W : Nat} (v : BitVec W) : v.toNat < 2 ^ (7 * nmax W) :=
  v.isLt.trans_le (Nat.pow_le_pow_right (by norm_num) (bits_le_nmax W))

/-- A value of one group has an encoding of one byte (30_encoding.md R64). -/
theorem encLen_of_last {W : Nat} {v : BitVec W} (h : v >>> 7 = 0) : encLen v = 1 := by
  have hv : v.toNat < 2 ^ (7 * 1) := (shr7_eq_zero v).1 h
  unfold encLen
  cases nmax W with
  | zero => rfl
  | succ fuel => rw [leastLen, if_pos hv]

/-- A longer value has one byte more than what is left of it after its lowest group. -/
theorem encLen_of_more {W : Nat} {v : BitVec W} (h : v >>> 7 ≠ 0) : encLen v = encLen (v >>> 7) + 1 := by
  have hv : ¬ v.toNat < 2 ^ (7 * 1) := fun hlt => h ((shr7_eq_zero v).2 hlt)
  have hmax := toNat_lt_two_pow_nmax v
  unfold encLen
  rw [toNat_shr7]
  cases hf : nmax W with
  | zero => rw [hf] at hmax; exact absurd (hmax.trans (by norm_num)) hv
  | succ fuel =>
    have hdiv : v.toNat / 128 < 2 ^ (7 * (1 + fuel)) := by
      rw [hf] at hmax
      rw [Nat.div_lt_iff_lt_mul (by norm_num)]
      calc v.toNat < 2 ^ (7 * (fuel + 1)) := hmax
        _ ≤ 2 ^ (7 * (1 + fuel)) * 128 := by rw [Nat.add_comm]; omega
    rw [leastLen_succ_fuel fuel 1 hdiv, leastLen, if_neg hv, leastLen_div]

theorem encLen_pos {W : Nat} (v : BitVec W) : 0 < encLen v := by
  by_cases h : v >>> 7 = 0
  · simp [encLen_of_last h]
  · simp [encLen_of_more h]

/-- A value of one group is encoded as its terminal byte. -/
theorem encBytes_of_last {W : Nat} {v : BitVec W} (h : v >>> 7 = 0) : encBytes v = [term (v.setWidth 7)] := by
  simp [encBytes, encLen_of_last h, groupAt_zero]

/-- A longer value is encoded as the continuation byte of its lowest group and then the rest of the value. -/
theorem encBytes_of_more {W : Nat} {v : BitVec W} (h : v >>> 7 ≠ 0) :
    encBytes v = cont (v.setWidth 7) :: encBytes (v >>> 7) := by
  obtain ⟨n, hn⟩ := Nat.exists_eq_succ_of_ne_zero (encLen_pos (v >>> 7)).ne'
  simp [encBytes, encLen_of_more h, hn, List.range_succ_eq_map, groupAt_zero, groupAt_shr, Function.comp_def]

/-- Induction over a value group by group, as its encoding is made. -/
theorem shr7_induction {W : Nat} {P : BitVec W → Prop} (last : ∀ v : BitVec W, v >>> 7 = 0 → P v)
    (more : ∀ v : BitVec W, v >>> 7 ≠ 0 → P (v >>> 7) → P v) (v : BitVec W) : P v := by
  by_cases h : v >>> 7 = 0
  · exact last v h
  · exact more v h (shr7_induction last more (v >>> 7))
termination_by v.toNat
decreasing_by
  have : 128 ≤ v.toNat := Nat.le_of_not_lt fun hlt => h ((shr7_eq_zero v).2 hlt)
  rw [toNat_shr7]
  omega

theorem encBytes_length {W : Nat} (v : BitVec W) : (encBytes v).length = encLen v := by
  have := encLen_pos v
  simp [encBytes]
  omega

/-! ### The kinds of byte -/

theorem isTerminal_term (g : Group) : isTerminal (term g) = true := by
  revert g
  decide

theorem groupOf_term (g : Group) : groupOf (term g) = g := by
  revert g
  decide

theorem isTerminal_cont (g : Group) : isTerminal (cont g) = false := by
  revert g
  decide

theorem groupOf_cont (g : Group) : groupOf (cont g) = g := by
  revert g
  decide

/-! ### Decoding an encoding -/

/-- The lowest `i` groups of a value. -/
def lowGroups {W : Nat} (i : Nat) (v : BitVec W) : BitVec W := (v.setWidth (7 * i)).setWidth W

theorem lowGroups_zero {W : Nat} (v : BitVec W) : lowGroups 0 v = 0 := by
  apply BitVec.eq_of_getLsbD_eq
  simp [lowGroups]

/-- Combining the lowest `i` groups with the next one gives the lowest `i + 1` (41_decode.md R104). -/
theorem combine_lowGroups {W i : Nat} (oc : OverlongCombine W) (v : BitVec W) (hi : i < nmax W) :
    combine W oc (lowGroups i v) ((v >>> (7 * i)).setWidth 7) i = lowGroups (i + 1) v := by
  rw [combine, if_pos hi]
  apply BitVec.eq_of_getLsbD_eq
  intro j hj
  have hlow : (lowGroups i v).getLsbD j = (decide (j < 7 * i) && v.getLsbD j) := by simp [lowGroups, hj]
  have hlow' : (lowGroups (i + 1) v).getLsbD j = (decide (j < 7 * (i + 1)) && v.getLsbD j) := by simp [lowGroups, hj]
  rw [BitVec.getLsbD_or, hlow, hlow', BitVec.getLsbD_shiftLeft, BitVec.getLsbD_setWidth, BitVec.getLsbD_setWidth,
    BitVec.getLsbD_ushiftRight]
  by_cases h : j < 7 * i
  · simp [h, show j < 7 * (i + 1) by omega]
  · have hj' : 7 * i + (j - 7 * i) = j := by omega
    have hlt : (j - 7 * i < 7) = (j < 7 * (i + 1)) := by rw [eq_iff_iff]; omega
    simp [h, hj, hj', hlt, show j - 7 * i < W by omega]

/-- A value with nothing left above its lowest `i` groups is these groups. -/
theorem lowGroups_of_shr_eq_zero {W i : Nat} {v : BitVec W} (h : v >>> (7 * i) = 0) : lowGroups i v = v := by
  apply BitVec.eq_of_toNat_eq
  have hlt : v.toNat < 2 ^ (7 * i) := by
    have hdiv := congrArg BitVec.toNat h
    rw [BitVec.toNat_ushiftRight, Nat.shiftRight_eq_div_pow, BitVec.ofNat_eq_ofNat, BitVec.toNat_ofNat, Nat.zero_mod,
      Nat.div_eq_zero_iff] at hdiv
    exact hdiv.resolve_left (by positivity)
  rw [lowGroups, BitVec.toNat_setWidth, BitVec.toNat_setWidth, Nat.mod_eq_of_lt hlt, Nat.mod_eq_of_lt v.isLt]

/-- A group of a value with a bit set is one of its NMAX(W) groups. -/
theorem lt_nmax_of_shr_ne_zero {W i : Nat} {v : BitVec W} (h : v >>> (7 * i) ≠ 0) : i < nmax W := by
  by_contra hi
  have := bits_le_nmax W
  exact h (BitVec.ushiftRight_eq_zero (by omega))

theorem shr_succ_group {W : Nat} (v : BitVec W) (i : Nat) : v >>> (7 * (i + 1)) = (v >>> (7 * i)) >>> 7 := by
  rw [← BitVec.shiftRight_add, Nat.mul_succ]

/-- 41_decode.md R110 on the loop of R107, from group `i` on. -/
theorem decodeLoop_encBytes {W : Nat} (oc : OverlongCombine W) (p : OverlongPolicy) (e : DecodeEnd) (t : List Byte)
    (v x : BitVec W) (i c : Nat) (hx : v >>> (7 * i) = x) (hi : i < nmax W) :
    decodeLoop W oc p e (encBytes x ++ t) (lowGroups i v) i c = (.ok v, c + encLen x) := by
  induction x using shr7_induction generalizing i c with
  | last x h =>
    rw [encBytes_of_last h, encLen_of_last h, List.singleton_append, decodeLoop, if_pos (isTerminal_term _),
      groupOf_term, ← hx, combine_lowGroups oc v hi,
      lowGroups_of_shr_eq_zero (by rw [shr_succ_group, hx, h])]
  | more x h ih =>
    have hshr : v >>> (7 * (i + 1)) = x >>> 7 := by rw [shr_succ_group, hx]
    have hi' : i + 1 < nmax W := lt_nmax_of_shr_ne_zero (hshr ▸ h)
    have hbound : ¬ (p = .reject ∧ i = nmax W - 1) := fun hb => by omega
    rw [encBytes_of_more h, encLen_of_more h, List.cons_append, decodeLoop, isTerminal_cont, if_neg Bool.false_ne_true,
      if_neg hbound, groupOf_cont, ← hx, combine_lowGroups oc v hi, hx, ih (i + 1) (c + 1) hshr hi', Nat.add_assoc,
      Nat.add_comm 1]

/-! ### Issues and held turns -/

/-- No agent but the engine of the block in focus moves while that block is busy: no turn is left, or an issue to it is
next and is held (70_reset_and_hazards.md R143). -/
def State.EngineOnly (s : State) : Prop := s.turns = [] ∨ ∃ c rest, s.turns = .host s.cur (.issue c) :: rest

/-- While only its engine moves, a running block takes its operation's transitions. -/
theorem step_of_engineOnly {s : State} {op : Instr} (hr : s.Running op) (hturn : s.EngineOnly) : step s = exec op s := by
  obtain ⟨hnone, -, hissue⟩ := stepRunsOperationInProgress s op hr
  rcases hturn with ht | ⟨c, rest, ht⟩
  · exact hnone ht
  · exact hissue c rest ht

theorem decode_encode (op : Instr) : decode (encode op) = .ok op := by
  cases op <;> rfl

/-- The state in which the next turn, an issue to the block in focus, is taken: the run counts as started. -/
def State.issued (s : State) : State := s.popTurn.onBlk fun b => { b with started := true }

/-- An issue to a block that is not busy runs the operation (70_reset_and_hazards.md R143). -/
theorem step_of_issue {s : State} {op : Instr} {rest : List Turn}
    (ht : s.turns = .host s.cur (.issue (encode op)) :: rest) (hb : s.blk.busy = false) :
    step s = exec op s.issued := by
  simp only [step, takeTurn, ht, focus_self, hb, Bool.and_false, Bool.false_eq_true, if_false, hostAct, issue,
    decode_encode]
  rfl

/-- An accepted encode (40_encode.md R80). -/
theorem step_accepts_encode {s : State} {op : Instr} {rest : List Turn} (he : isEncode op = true)
    (ht : s.turns = .host s.cur (.issue (encode op)) :: rest) (hi : s.Idle) (ha : s.blk.argWritten = true)
    (hs : sharesSink s = false) : step s = .next (s.issued.onBlk (Block.encodeAccepted (width op) op)) := by
  have hs' : sharesSink s.issued = false := hs
  have ha' : s.issued.blk.argWritten = true := ha
  rw [step_of_issue ht hi.1, exec_encode_idle he (s := s.issued) hi, acceptEncode, hs', ha']
  rfl

/-- An accepted decode (41_decode.md R100). -/
theorem step_accepts_decode {s : State} {op : Instr} {rest : List Turn} (he : isEncode op = false)
    (ht : s.turns = .host s.cur (.issue (encode op)) :: rest) (hi : s.Idle) (hs : sharesSource s = false) :
    step s = .next (s.issued.onBlk (Block.decodeAccepted op)) := by
  have hs' : sharesSource s.issued = false := hs
  rw [step_of_issue ht hi.1, exec_decode_idle he (s := s.issued) hi, acceptDecode, hs']
  rfl

/-! ### A whole encode -/

/-- The sources after a sink that feeds `target` has taken the bytes `bs` (20_memory.md R56). -/
def gainBytes (target : Option Nat) (bs : List Byte) (qs : List Source) : List Source :=
  bs.foldl (fun qs b => gainByte target b qs) qs

/-- The source fed by a sink gains the bytes at its end. -/
theorem gainBytes_fed {j : Nat} {bs : List Byte} {qs : List Source} {q : Source} (h : qs[j]? = some q) :
    (gainBytes (some j) bs qs)[j]? = some { q with rest := q.rest ++ bs } := by
  induction bs generalizing qs q with
  | nil => simpa [gainBytes] using h
  | cons b bs ih => simpa [gainBytes] using ih (gainByte_fed h)

/-- A sink after it has taken the bytes `bs`, one answer for each (20_memory.md R41). -/
def Sink.pushAll (bs : List Byte) (k : Sink) : Sink :=
  { k with bytes := k.bytes ++ bs, pos := k.pos + bs.length, answers := k.answers.drop bs.length }

/-- The streams and the history after sink `id`, before it `k`, has taken the bytes `bs`. -/
def State.appendedAll (s : State) (id : Nat) (k : Sink) (bs : List Byte) : State :=
  { s with
    sinks := s.sinks.set id (k.pushAll bs)
    sources := gainBytes k.feeds bs s.sources
    history := s.history ++ bs.map fun b => ⟨s.cur, .append b⟩ }

theorem State.appended_eq_appendedAll (s : State) (id : Nat) (k : Sink) (b : Byte) :
    s.appended id k b = s.appendedAll id k [b] := by
  simp [State.appended, State.appendedAll, Sink.pushAll, gainBytes]

theorem State.appendedAll_appendedAll (s : State) (id : Nat) (k : Sink) (bs bs' : List Byte) :
    (s.appendedAll id k bs).appendedAll id (k.pushAll bs) bs' = s.appendedAll id k (bs ++ bs') := by
  simp [State.appendedAll, Sink.pushAll, gainBytes, Nat.add_assoc]

theorem State.HasSink.appendedAll {s : State} {id : Nat} {k : Sink} (h : s.HasSink id k) (bs : List Byte) :
    (s.appendedAll id k bs).HasSink id (k.pushAll bs) := by
  have hlt : id < s.sinks.length := (List.getElem?_eq_some_iff.1 h.2).1
  exact ⟨h.1, by simp [State.appendedAll, hlt]⟩

/-- One step of an encode in progress that its sink accepts. -/
theorem step_encode_accepted {op : Instr} {s : State} {id : Nat} {k : Sink} {v : BitVec (width op)}
    (he : isEncode op = true) (hv : s.blk.v.setWidth (width op) = v) (hr : s.Running op) (ht : s.EngineOnly)
    (hk : s.HasSink id k) (ha : k.Accepts) : step s = .next (stepRest v (s.appendedAll id k [stepByte v])) := by
  have hnext : k.next = .ok := by simp [Sink.next, ha.1, ha.2]
  rw [step_of_engineOnly hr ht, exec_running_encode he hr.2, encodeStep_ok hk hnext, hv,
    State.appended_eq_appendedAll]

/-- 40_encode.md R83 on the machine: an encode in progress whose sink accepts every append takes one step for each byte
of the encoding of `V`, appends exactly these bytes and completes OK. -/
theorem runs_encode {op : Instr} {s : State} {id : Nat} {k : Sink} {v : BitVec (width op)} (he : isEncode op = true)
    (hv : s.blk.v.setWidth (width op) = v) (hr : s.Running op) (ht : s.EngineOnly) (hk : s.HasSink id k)
    (ha : k.Accepts) : ∃ b, runs (encLen v) s = .next { s.appendedAll id k (encBytes v) with blk := b } ∧
      s.blk.EndedAs 0x00#8 .none b := by
  induction v using shr7_induction generalizing s k with
  | last v h =>
    refine ⟨_, ?_, s.blk.completed_endedAs .ok s.cur⟩
    rw [encLen_of_last h, encBytes_of_last h, runs_succ (step_encode_accepted he hv hr ht hk ha), stepRest, if_pos h,
      stepByte, if_pos h]
    rfl
  | more v h ih =>
    have hk' : ((s.appendedAll id k [stepByte v]).onBlk (Block.loadV (width op) (v >>> 7))).HasSink id
      (k.pushAll [stepByte v]) := hk.appendedAll _
    have ha' : (k.pushAll [stepByte v]).Accepts := ⟨by simp [Sink.pushAll, ha.1], ha.2⟩
    have hv' := setWidth_setWidth_of_le (width_le op) (v >>> 7)
    obtain ⟨b, hrun, hend⟩ := ih (s := (s.appendedAll id k [stepByte v]).onBlk (Block.loadV (width op) (v >>> 7)))
      hv' hr ht hk' ha'
    refine ⟨b, ?_, hend⟩
    have hbytes : encBytes v = [stepByte v] ++ encBytes (v >>> 7) := by
      rw [encBytes_of_more h, stepByte, if_neg h, List.singleton_append]
    rw [encLen_of_more h, runs_succ (step_encode_accepted he hv hr ht hk ha), stepRest, if_neg h, hrun, hbytes,
      ← State.appendedAll_appendedAll]
    rfl

/-! ### A whole decode -/

/-- The streams and the history after the first `n` bytes that source `id`, before it `q`, lists have been read. -/
def State.consumedAll (s : State) (id : Nat) (q : Source) (n : Nat) : State :=
  { s with
    sources := s.sources.set id (q.readOff n)
    history := s.history ++ (q.rest.take n).map fun b => ⟨s.cur, .read b⟩ }

@[simp] theorem State.consumedAll_blk (s : State) (id q n) : (s.consumedAll id q n).blk = s.blk := rfl

theorem State.consumed_eq_consumedAll (s : State) (id : Nat) {q : Source} {b : Byte} {rest : List Byte}
    (h : q.rest = b :: rest) : s.consumed id q b rest = s.consumedAll id q 1 := by
  simp [State.consumed, State.consumedAll, Source.readOff, h]

theorem Source.readOff_readOff (m n : Nat) (q : Source) : (q.readOff m).readOff n = q.readOff (m + n) := by
  simp [Source.readOff, Nat.add_assoc]

theorem State.consumedAll_consumedAll (s : State) (id : Nat) (q : Source) (m n : Nat) :
    (s.consumedAll id q m).consumedAll id (q.readOff m) n = s.consumedAll id q (m + n) := by
  have hrest : (q.readOff m).rest = q.rest.drop m := rfl
  simp [State.consumedAll, Source.readOff_readOff, hrest, List.take_add]

theorem State.HasSource.consumedAll {s : State} {id : Nat} {q : Source} (h : s.HasSource id q) (n : Nat) :
    (s.consumedAll id q n).HasSource id (q.readOff n) := by
  have hlt : id < s.sources.length := (List.getElem?_eq_some_iff.1 h.2).1
  exact ⟨h.1, by simp [State.consumedAll, hlt]⟩

theorem Source.Serves.readOff {q : Source} (h : q.Serves) (n : Nat) : (q.readOff n).Serves :=
  ⟨by simp [Source.readOff, h.1], h.2⟩

theorem atBound_iff {W : Nat} {b : Block} : atBound W b = true ↔ b.policy = .reject ∧ b.idx = nmax W - 1 := by
  simp [atBound]

section
variable {op : Instr} {s : State} {id : Nat} {q : Source} {b : Byte} {rest : List Byte}
  (he : isEncode op = false) (hr : s.Running op) (ht : s.EngineOnly) (hq : s.HasSource id q) (hs : q.Serves)
include he hr ht hq hs

/-- One step of a decode in progress whose source has a byte. -/
theorem step_decode_served (hb : q.rest = b :: rest) :
    step s = .next (byteStep (width op) (overlongOf op) b (s.consumedAll id q 1)) := by
  have hnext : q.next = .serve := by simp [Source.next, hs.1, hs.2.1]
  rw [step_of_engineOnly hr ht, exec_running_decode he hr.2, decodeStep_byte hq hnext (.inl hb),
    s.consumed_eq_consumedAll id hb]

theorem step_decode_terminal (hb : q.rest = b :: rest) (hterm : isTerminal b = true) :
    step s = .next (completeDecode ((combine (width op) (overlongOf op) (s.blk.accAt (width op)) (groupOf b)
      s.blk.idx).setWidth 64) (s.consumedAll id q 1)) := by
  rw [step_decode_served he hr ht hq hs hb, byteStep, if_pos hterm]
  rfl

theorem step_decode_continuation (hb : q.rest = b :: rest) (hterm : isTerminal b = false)
    (hbound : ¬ (s.blk.policy = .reject ∧ s.blk.idx = nmax (width op) - 1)) :
    step s = .next ((s.consumedAll id q 1).onBlk (Block.combined (width op)
      (combine (width op) (overlongOf op) (s.blk.accAt (width op)) (groupOf b) s.blk.idx))) := by
  have hat : ¬ atBound (width op) s.blk = true := fun h => hbound (atBound_iff.1 h)
  rw [step_decode_served he hr ht hq hs hb, byteStep, hterm, if_neg Bool.false_ne_true, continuationStep,
    State.consumedAll_blk, if_neg hat]

end

/-- 41_decode.md R107 on the machine: a decode in progress on a source that serves every read, for which the loop of the
functional form ends OK with `v`, takes one step for each byte the loop consumes and completes OK with `v` in `RESULT`. -/
theorem runs_decode_ok {op : Instr} {s : State} {id c m : Nat} {q : Source} {bs : List Byte} {v : BitVec (width op)}
    (he : isEncode op = false) (hr : s.Running op) (ht : s.EngineOnly) (hq : s.HasSource id q) (hs : q.Serves)
    (hbs : q.rest = bs) (hloop : decodeLoop (width op) (overlongOf op) s.blk.policy .eos bs
      (s.blk.accAt (width op)) s.blk.idx c = (.ok v, m)) :
    ∃ n b, m = c + n ∧ runs n s = .next { s.consumedAll id q n with blk := b } ∧
      { s.blk with result := v.setWidth 64, resultWritten := true }.EndedAs 0x00#8 .none b := by
  induction bs generalizing s q c with
  | nil => cases hloop
  | cons b bs ih =>
    rw [decodeLoop] at hloop
    split_ifs at hloop with hterm hbound
    · cases hloop
      exact ⟨1, _, rfl, runs_succ (step_decode_terminal he hr ht hq hs hbs hterm),
        Block.completed_endedAs { s.blk with result := _, resultWritten := true } .ok s.cur⟩
    · cases hloop
    · have hstep := step_decode_continuation he hr ht hq hs hbs (by simpa using hterm) hbound
      generalize combine (width op) (overlongOf op) (s.blk.accAt (width op)) (groupOf b) s.blk.idx = acc at hstep hloop
      rw [← setWidth_setWidth_of_le (width_le op) acc] at hloop
      have hrest : (q.readOff 1).rest = bs := by simp [Source.readOff, hbs]
      obtain ⟨n, b', hm, hrun, hend⟩ := ih (s := (s.consumedAll id q 1).onBlk (Block.combined (width op) acc)) hr ht
        (hq.consumedAll 1) (hs.readOff 1) hrest hloop
      refine ⟨n + 1, b', by omega, ?_, hend⟩
      rw [runs_succ hstep, hrun, Nat.add_comm, ← State.consumedAll_consumedAll]
      rfl

/-! ### An encode and a decode on a connected pair -/

/-! ### The block after an operation has ended -/

section
variable {b b' : Block} {code : BitVec 8} {info : FaultInfo} (h : b.EndedAs code info b')
include h

theorem Block.EndedAs.idle : b'.busy = false ∧ b'.phase = .idle := by
  rw [h]
  exact ⟨rfl, rfl⟩

theorem Block.EndedAs.status : b'.status = code := by rw [h]

theorem Block.EndedAs.faultInfo : b'.faultInfo = info := by rw [h]

theorem Block.EndedAs.result : b'.result = b.result := by rw [h]

theorem Block.EndedAs.resultWritten : b'.resultWritten = b.resultWritten := by rw [h]

theorem Block.EndedAs.source : b'.source = b.source := by rw [h]

end

/-- An encode issued to an idle block whose sink accepts every append: it is accepted, appends the encoding of the
operand and completes OK (40_encode.md R83 to R85). -/
theorem runs_issued_encode {op : Instr} {s : State} {id : Nat} {k : Sink} {rest : List Turn} (he : isEncode op = true)
    (ht : s.turns = .host s.cur (.issue (encode op)) :: rest) (hrest : s.popTurn.EngineOnly) (hi : s.Idle)
    (hw : s.blk.argWritten = true) (hs : sharesSink s = false) (hk : s.HasSink id k) (ha : k.Accepts) :
    ∃ b, runs (encLen (operand (width op) s.blk.arg) + 1) s =
        .next { s.popTurn.appendedAll id k (encBytes (operand (width op) s.blk.arg)) with blk := b } ∧
      { s.blk with started := true }.EndedAs 0x00#8 .none b := by
  rw [runs_succ (step_accepts_encode he ht hi hw hs)]
  exact runs_encode (s := s.issued.onBlk (Block.encodeAccepted (width op) op)) he
    (setWidth_setWidth_of_le (width_le op) _) ⟨rfl, rfl⟩ hrest hk ha

/-- A decode issued to an idle block whose source lists the encoding of `v`: it is accepted, reads the encoding and
completes OK with `v` in `RESULT`, under either policy (41_decode.md R110). -/
theorem runs_issued_decode {op : Instr} {s : State} {id : Nat} {q : Source} {rest : List Turn} (v : BitVec (width op))
    (he : isEncode op = false) (ht : s.turns = .host s.cur (.issue (encode op)) :: rest)
    (hrest : s.popTurn.EngineOnly) (hi : s.Idle) (hs : sharesSource s = false) (hq : s.HasSource id q)
    (hserve : q.Serves) (hv : q.rest = encBytes v) :
    ∃ b, runs (encLen v + 1) s = .next { s.popTurn.consumedAll id q (encLen v) with blk := b } ∧
      { s.blk with started := true, result := v.setWidth 64, resultWritten := true }.EndedAs 0x00#8 .none b := by
  have hmax : 0 < nmax (width op) := by cases op <;> decide
  have hloop := decodeLoop_encBytes (overlongOf op) s.blk.policy .eos [] v v 0 0 (BitVec.ushiftRight_zero v) hmax
  have hacc : (s.issued.blk.decodeAccepted op).accAt (width op) = 0 := BitVec.setWidth_zero (width op) 64
  rw [List.append_nil, lowGroups_zero, ← hacc] at hloop
  rw [runs_succ (step_accepts_decode he ht hi hs)]
  obtain ⟨n, b, hn, hrun, hend⟩ := runs_decode_ok (s := s.issued.onBlk (Block.decodeAccepted op)) he ⟨rfl, rfl⟩ hrest hq
    hserve hv hloop
  obtain rfl : n = encLen v := by omega
  exact ⟨b, hrun, hend⟩

/-- What a sink takes changes nothing for a launch of a decode: no stream comes into use and no connection changes. -/
theorem sharesSource_appendedAll {s : State} {id : Nat} {k : Sink} {b : Block} (hk : s.HasSink id k)
    (hb : b.source = s.blk.source) (bs : List Byte) :
    sharesSource { s.appendedAll id k bs with blk := b } = sharesSource s := by
  have hfed : ∀ i, fedBy (s.appendedAll id k bs).sinks i = fedBy s.sinks i := fedBy_set hk.2 rfl
  have hothers : (s.appendedAll id k bs).others = s.others := rfl
  simp only [sharesSource, sourceUsedElsewhere, hb, hothers, sourceInUse_congr hfed]

theorem Sink.Accepts.pushAll_encBytes {W : Nat} {k : Sink} (h : k.Accepts) (v : BitVec W) :
    k.pushAll (encBytes v) = { k with bytes := k.bytes ++ encBytes v, pos := k.pos + encLen v } := by
  simp [Sink.pushAll, encBytes_length, h.1]

/-- A source gains what the sink connected to it takes (20_memory.md R56). -/
theorem State.HasSource.fed {s : State} {id j : Nat} {k : Sink} {q : Source} {b : Block} (hq : s.HasSource j q)
    (hf : k.feeds = some j) (hb : b.source = s.blk.source) (bs : List Byte) :
    State.HasSource { s.appendedAll id k bs with blk := b } j { q with rest := q.rest ++ bs } :=
  ⟨hb.trans hq.1, by simpa only [State.appendedAll, hf] using gainBytes_fed hq.2⟩

/-- Settles O53: the encode leaves its encoding in the connected source, which is then all that the decode reads. -/
theorem loopbackRoundTrip : Obligations.LoopbackRoundTrip := by
  intro s enc dec i j k q hops ht hi hw hsink hsource hk hq ha hserve hfeed hempty
  obtain ⟨he, hd, hwidth⟩ : isEncode enc = true ∧ isEncode dec = false ∧ width dec = width enc := by
    rcases hops with ⟨rfl, rfl⟩ | ⟨rfl, rfl⟩ <;> exact ⟨rfl, rfl, rfl⟩
  have hpop : s.popTurn.turns = [.host s.cur (.issue (encode dec))] := by rw [State.popTurn_turns, ht, List.tail_cons]
  have hlast : s.popTurn.popTurn.turns = [] := by rw [State.popTurn_turns, hpop, List.tail_cons]
  obtain ⟨b, hrun, hb⟩ := runs_issued_encode he ht (.inr ⟨_, _, hpop⟩) hi hw hsink hk ha
  generalize hbs : encBytes (operand (width enc) s.blk.arg) = bs at hrun
  have hbytes : q.rest ++ bs = encBytes (operand (width dec) s.blk.arg) := by rw [hempty, hwidth, hbs, List.nil_append]
  have hshare := (sharesSource_appendedAll (s := s.popTurn) hk hb.source bs).trans hsource
  have hfed := State.HasSource.fed (s := s.popTurn) (id := i) hq hfeed hb.source bs
  obtain ⟨b', hrun', hb'⟩ := runs_issued_decode (s := { s.popTurn.appendedAll i k bs with blk := b })
    (operand (width dec) s.blk.arg) hd hpop (.inl hlast) hb.idle hshare hfed hserve hbytes
  have hread := (hfed.consumedAll (encLen (operand (width dec) s.blk.arg))).2
  have hrun'' := (runs_add hrun).trans hrun'
  refine ⟨_, _, hrun'', ⟨hlast, hb'.idle.1⟩, hb'.status, hb'.faultInfo, hb'.resultWritten, ?_, ?_, _, hread, ?_⟩
  · rw [hb'.result, hwidth]
    rfl
  · subst hbs
    exact congrArg (s.sinks.set i) (ha.pushAll_encBytes (operand (width enc) s.blk.arg))
  · simp [Source.readOff, hbytes, encBytes_length]

/-! ### Accesses that are held -/

/-- With no source to answer a decode step is held (20_memory.md R57, log 10). -/
theorem decodeStep_unattached {W : Nat} {oc : OverlongCombine W} {s : State} (h : ∀ id q, ¬ s.HasSource id q) :
    decodeStep W oc s = .next s := by
  rw [decodeStep, sourceRead_unattached h]

/-- Settles O14: a held access is the step lemma of its family for a stream that waits or is not there. -/
theorem unansweredAccessHolds : Obligations.UnansweredAccessHolds := by
  rintro s op ⟨-, hp⟩
  refine ⟨fun id k he hk hn => ?_, fun id q hd hq hn => ?_, fun he hk => ?_, fun hd hq => ?_⟩
  · rw [exec_running_encode he hp, encodeStep_wait hk hn]
  · rw [exec_running_decode hd hp, decodeStep_wait hq hn]
  · rw [exec_running_encode he hp, encodeStep_unattached fun id k h => by simpa [hk] using h.1]
  · rw [exec_running_decode hd hp, decodeStep_unattached fun id q h => by simpa [hq] using h.1]

/-! ### One access a transition -/

@[simp] theorem stepRest_history {W : Nat} (v : BitVec W) (s : State) : (stepRest v s).history = s.history := by
  rcases stepRest_cases v s with ⟨-, h⟩ | ⟨-, h⟩ <;> rw [h] <;> rfl

@[simp] theorem byteStep_history (W : Nat) (oc : OverlongCombine W) (b : Byte) (s : State) :
    (byteStep W oc b s).history = s.history := by
  rcases byteStep_cases W oc b s with ⟨-, h⟩ | ⟨-, -, h⟩ | ⟨-, -, h⟩ <;> rw [h] <;> rfl

/-- The history of `t` is that of `s` with one event of the block in focus more (20_memory.md R46). -/
def State.OneEventMore (s t : State) : Prop := ∃ a, t.history = s.history ++ [⟨s.cur, a⟩]

/-- A block has one sink attached at most. -/
theorem State.HasSink.unique {s : State} {id id' : Nat} {k k' : Sink} (h : s.HasSink id k) (h' : s.HasSink id' k') :
    k = k' := by
  obtain rfl : id = id' := Option.some.inj (h.1.symm.trans h'.1)
  exact Option.some.inj (h.2.symm.trans h'.2)

/-- A block has one source attached at most. -/
theorem State.HasSource.unique {s : State} {id id' : Nat} {q q' : Source} (h : s.HasSource id q)
    (h' : s.HasSource id' q') : q = q' := by
  obtain rfl : id = id' := Option.some.inj (h.1.symm.trans h'.1)
  exact Option.some.inj (h.2.symm.trans h'.2)

/-- An encode step is held and records nothing, or records its one append. -/
theorem encodeStep_access {W : Nat} {s t : State} (h : encodeStep W s = .next t) :
    (t.history = s.history ∧ ∀ id k, s.HasSink id k → k.next = .wait) ∨ s.OneEventMore t := by
  rcases encodeStep_cases W s with ⟨hn, e⟩ | ⟨id, k, hk, ⟨hn, e⟩ | ⟨-, e⟩ | ⟨f, left, -, e⟩⟩ <;> rw [e] at h <;> cases h
  · exact .inl ⟨rfl, fun id k hk => absurd hk (hn id k)⟩
  · refine .inl ⟨rfl, fun id' k' hk' => ?_⟩
    rwa [hk'.unique hk]
  · exact .inr ⟨_, stepRest_history _ _⟩
  · exact .inr ⟨_, rfl⟩

/-- A decode step is held and records nothing, or records its one read. -/
theorem decodeStep_access {W : Nat} {oc : OverlongCombine W} {s t : State} (h : decodeStep W oc s = .next t) :
    (t.history = s.history ∧ ∀ id q, s.HasSource id q → q.next = .wait) ∨ s.OneEventMore t := by
  rcases decodeStep_cases W oc s with ⟨hn, e⟩ | ⟨id, q, hq, ⟨hn, e⟩ | ⟨b, rest, -, -, e⟩ | ⟨-, -, e⟩ | ⟨f, left, -, e⟩⟩ <;>
    rw [e] at h <;> cases h
  · exact .inl ⟨rfl, fun id q hq => absurd hq (hn id q)⟩
  · refine .inl ⟨rfl, fun id' q' hq' => ?_⟩
    rwa [hq'.unique hq]
  · exact .inr ⟨_, byteStep_history _ _ _ _⟩
  · exact .inr ⟨_, rfl⟩
  · exact .inr ⟨_, rfl⟩

/-- A transition that is not a step of its operation in progress records nothing. -/
theorem exec_history_of_not_running {op : Instr} {s t : State} (hp : s.blk.phase ≠ .run op) (h : exec op s = .next t) :
    t.history = s.history := by
  cases he : isEncode op with
  | true =>
    rcases exec_encode_cases (s := s) he with ⟨hp', -⟩ | ⟨-, -, e⟩ | ⟨-, -, -, e⟩ | ⟨-, e | e⟩
    · exact absurd hp' hp
    all_goals cases e.symm.trans h
    all_goals rfl
  | false =>
    rcases exec_decode_cases (s := s) he with ⟨hp', -⟩ | ⟨-, -, e⟩ | ⟨-, -, e⟩ | ⟨-, e⟩
    · exact absurd hp' hp
    all_goals cases e.symm.trans h
    all_goals rfl

/-- Settles O26: only a step of the operation in progress accesses a stream, and once, if the stream answers. -/
theorem oneAccessPerStep : Obligations.OneAccessPerStep := by
  intro s t op h
  by_cases hp : s.blk.phase = .run op
  · cases he : isEncode op with
    | true =>
      rcases encodeStep_access (exec_running_encode he hp ▸ h) with ⟨hh, hw⟩ | ha
      · exact ⟨.inl hh, fun _ => ⟨fun id k _ hk hn => absurd (hw id k hk) hn, nofun⟩⟩
      · exact ⟨.inr ha, fun _ => ⟨fun _ _ _ _ _ => ha, nofun⟩⟩
    | false =>
      rcases decodeStep_access (exec_running_decode he hp ▸ h) with ⟨hh, hw⟩ | ha
      · exact ⟨.inl hh, fun _ => ⟨nofun, fun id q _ hq hn => absurd (hw id q hq) hn⟩⟩
      · exact ⟨.inr ha, fun _ => ⟨nofun, fun _ _ _ _ _ => ha⟩⟩
  · exact ⟨.inl (exec_history_of_not_running hp h), fun hr => absurd hr.2 hp⟩

/-! ### What an engine's move depends on -/

/-- `s` and `s'` have the same block in focus, under the same number, and agree on sink `x` and source `y`, as far as
these name a stream. -/
structure State.Alike (x y : Option Nat) (s s' : State) : Prop where
  cur : s'.cur = s.cur
  blk : s'.blk = s.blk
  sinks : ∀ id, x = some id → s'.sinks[id]? = s.sinks[id]?
  sources : ∀ id, y = some id → s'.sources[id]? = s.sources[id]?

section
variable {x y : Option Nat} {s s' : State}

theorem State.Alike.onBlk (h : State.Alike x y s s') {f f' : Block → Block} (hf : f' s.blk = f s.blk) :
    State.Alike x y (s.onBlk f) (s'.onBlk f') :=
  ⟨h.cur, by simp [h.blk, hf], h.sinks, h.sources⟩

theorem State.Alike.complete (h : State.Alike x y s s') (c : Completion) :
    State.Alike x y (Machine.complete c s) (Machine.complete c s') :=
  h.onBlk (by rw [h.cur])

theorem State.Alike.stepRest (h : State.Alike x y s s') {W : Nat} (v : BitVec W) :
    State.Alike x y (Machine.stepRest v s) (Machine.stepRest v s') := by
  unfold Machine.stepRest
  split
  · exact h.complete .ok
  · exact h.onBlk rfl

theorem State.Alike.byteStep (h : State.Alike x y s s') (W : Nat) (oc : OverlongCombine W) (b : Byte) :
    State.Alike x y (Machine.byteStep W oc b s) (Machine.byteStep W oc b s') := by
  unfold Machine.byteStep terminalStep continuationStep completeDecode
  rw [h.blk, h.cur]
  split_ifs
  · exact h.onBlk rfl
  · exact h.complete .malformedVarint
  · exact h.onBlk rfl

/-- The same sink put back in both. -/
theorem State.Alike.set_sink {id : Nat} (h : State.Alike (some id) y s s') (k : Sink) :
    State.Alike (some id) y { s with sinks := s.sinks.set id k } { s' with sinks := s'.sinks.set id k } := by
  refine ⟨h.cur, h.blk, ?_, h.sources⟩
  rintro _ ⟨⟩
  simp only [List.getElem?_set_self', h.sinks id rfl]

/-- The same source put back in both. -/
theorem State.Alike.set_source {id : Nat} (h : State.Alike x (some id) s s') (q : Source) :
    State.Alike x (some id) { s with sources := s.sources.set id q } { s' with sources := s'.sources.set id q } := by
  refine ⟨h.cur, h.blk, h.sinks, ?_⟩
  rintro _ ⟨⟩
  simp only [List.getElem?_set_self', h.sources id rfl]

/-- The history is no part of it. -/
theorem State.Alike.with_history (h : State.Alike x y s s') (hs hs' : List Event) :
    State.Alike x y { s with history := hs } { s' with history := hs' } :=
  ⟨h.cur, h.blk, h.sinks, h.sources⟩

/-- The same source fed in both. -/
theorem State.Alike.gainByte (h : State.Alike x y s s') (b : Byte) :
    State.Alike x y { s with sources := Machine.gainByte y b s.sources }
      { s' with sources := Machine.gainByte y b s'.sources } := by
  refine ⟨h.cur, h.blk, h.sinks, ?_⟩
  rintro j rfl
  simp only [Machine.gainByte, List.getElem?_modify_eq, h.sources j rfl]

theorem State.Alike.hasSink (h : State.Alike s.blk.sink y s s') (id : Nat) (k : Sink) :
    s'.HasSink id k ↔ s.HasSink id k := by
  unfold State.HasSink
  rw [h.blk]
  exact and_congr_right fun hid => by rw [h.sinks id hid]

theorem State.Alike.hasSource (h : State.Alike x s.blk.source s s') (id : Nat) (q : Source) :
    s'.HasSource id q ↔ s.HasSource id q := by
  unfold State.HasSource
  rw [h.blk]
  exact and_congr_right fun hid => by rw [h.sources id hid]

/-- An encode step depends on its block, the attached sink and the source that sink is connected to. -/
theorem encodeStep_alike {W : Nat} {t : State} (h : State.Alike s.blk.sink (s.blk.sink.bind (fedBy s.sinks)) s s')
    (hx : encodeStep W s = .next t) :
    ∃ t', encodeStep W s' = .next t' ∧ State.Alike s.blk.sink (s.blk.sink.bind (fedBy s.sinks)) t t' := by
  rcases encodeStep_cases W s with ⟨hn, e⟩ | ⟨id, k, hk, hcase⟩
  · cases e.symm.trans hx
    exact ⟨s', encodeStep_unattached fun id k hk => hn id k ((h.hasSink id k).1 hk), h⟩
  · have hk' := (h.hasSink id k).2 hk
    have hfed : s.blk.sink.bind (fedBy s.sinks) = k.feeds := by simp [fedBy, hk.1, hk.2]
    rw [hfed, hk.1] at h ⊢
    rcases hcase with ⟨hn, e⟩ | ⟨hn, e⟩ | ⟨f, left, hn, e⟩ <;> cases e.symm.trans hx
    · exact ⟨_, encodeStep_wait hk' hn, h.set_sink _⟩
    · refine ⟨_, encodeStep_ok hk' hn, ?_⟩
      rw [h.blk]
      exact (((h.set_sink _).gainByte _).with_history _ _).stepRest _
    · refine ⟨_, encodeStep_fail hk' hn, ?_⟩
      rw [h.blk]
      exact ((h.set_sink _).with_history _ _).complete _

/-- A decode step depends on its block and the attached source. -/
theorem decodeStep_alike {W : Nat} {oc : OverlongCombine W} {t : State} (h : State.Alike x s.blk.source s s')
    (hx : decodeStep W oc s = .next t) :
    ∃ t', decodeStep W oc s' = .next t' ∧ State.Alike x s.blk.source t t' := by
  rcases decodeStep_cases W oc s with ⟨hn, e⟩ | ⟨id, q, hq, hcase⟩
  · cases e.symm.trans hx
    exact ⟨s', decodeStep_unattached fun id q hq => hn id q ((h.hasSource id q).1 hq), h⟩
  · have hq' := (h.hasSource id q).2 hq
    rw [hq.1] at h ⊢
    rcases hcase with ⟨hn, e⟩ | ⟨b, rest, hn, hb, e⟩ | ⟨hn, he, e⟩ | ⟨f, left, hn, e⟩ <;> cases e.symm.trans hx
    · exact ⟨_, decodeStep_wait hq' hn, h.set_source _⟩
    · exact ⟨_, decodeStep_byte hq' hn hb, ((h.set_source _).with_history _ _).byteStep _ _ _⟩
    · exact ⟨_, decodeStep_eos hq' hn he, ((h.set_source _).with_history _ _).complete _⟩
    · exact ⟨_, decodeStep_fail hq' hn, ((h.set_source _).with_history _ _).complete _⟩

/-- An engine's move depends on its block and the streams its operation in progress uses (20_memory.md R51, R52). -/
theorem engineStep_alike {t : State} (h : State.Alike s.blk.sinkInUse (s.blk.sourceInUse s.sinks) s s')
    (hx : engineStep s = .next t) :
    ∃ t', engineStep s' = .next t' ∧ State.Alike s.blk.sinkInUse (s.blk.sourceInUse s.sinks) t t' := by
  cases hp : s.blk.phase with
  | idle =>
    cases (engineStep_idle hp).symm.trans hx
    exact ⟨s', engineStep_idle (by rw [h.blk, hp]), h⟩
  | run op =>
    have hp' : s'.blk.phase = .run op := by rw [h.blk, hp]
    rw [engineStep_run hp] at hx
    rw [engineStep_run hp']
    cases he : isEncode op with
    | true =>
      obtain ⟨hsink, hsource⟩ := inUse_of_encode s.sinks he hp
      rw [hsink, hsource] at h ⊢
      rw [exec_running_encode he hp] at hx
      rw [exec_running_encode he hp']
      exact encodeStep_alike h hx
    | false =>
      obtain ⟨-, hsource⟩ := inUse_of_decode s.sinks he hp
      rw [hsource] at h ⊢
      rw [exec_running_decode he hp] at hx
      rw [exec_running_decode he hp']
      exact decodeStep_alike h hx

/-! ### What an engine's move leaves as it was -/

/-- An encode step leaves every sink but the attached one and every source but the one that sink feeds. -/
theorem encodeStep_frame {W : Nat} {t : State} (hx : encodeStep W s = .next t) :
    (∀ id, s.blk.sink ≠ some id → t.sinks[id]? = s.sinks[id]?) ∧
      ∀ j, s.blk.sink.bind (fedBy s.sinks) ≠ some j → t.sources[j]? = s.sources[j]? := by
  rcases encodeStep_cases W s with ⟨-, e⟩ | ⟨id, k, hk, hcase⟩
  · cases e.symm.trans hx
    exact ⟨fun _ _ => rfl, fun _ _ => rfl⟩
  · have hfed : s.blk.sink.bind (fedBy s.sinks) = k.feeds := by simp [fedBy, hk.1, hk.2]
    have hset : ∀ k' id', s.blk.sink ≠ some id' → (s.sinks.set id k')[id']? = s.sinks[id']? := fun k' id' hne =>
      List.getElem?_set_ne fun heq => hne (hk.1.trans (congrArg some heq))
    rw [hfed]
    rcases hcase with ⟨-, e⟩ | ⟨-, e⟩ | ⟨f, left, -, e⟩ <;> cases e.symm.trans hx
    · exact ⟨hset _, fun _ _ => rfl⟩
    · rw [stepRest_sinks, stepRest_sources]
      exact ⟨hset _, fun j hj => gainByte_other hj⟩
    · exact ⟨hset _, fun _ _ => rfl⟩

/-- A decode step leaves every source but the attached one. -/
theorem decodeStep_frame {W : Nat} {oc : OverlongCombine W} {t : State} (hx : decodeStep W oc s = .next t) (j : Nat)
    (hj : s.blk.source ≠ some j) : t.sources[j]? = s.sources[j]? := by
  rcases decodeStep_cases W oc s with ⟨-, e⟩ | ⟨id, q, hq, hcase⟩
  · cases e.symm.trans hx
    rfl
  · have hset : ∀ q', (s.sources.set id q')[j]? = s.sources[j]? := fun q' =>
      List.getElem?_set_ne fun heq => hj (hq.1.trans (congrArg some heq))
    rcases hcase with ⟨-, e⟩ | ⟨b, rest, -, -, e⟩ | ⟨-, -, e⟩ | ⟨f, left, -, e⟩ <;> cases e.symm.trans hx
    · exact hset _
    · rw [byteStep_sources]
      exact hset _
    · exact hset _
    · exact hset _

/-- An engine's move leaves every stream alone that its operation does not use (20_memory.md R51). -/
theorem engineStep_frame {t : State} (hx : engineStep s = .next t) :
    (∀ id, s.blk.sinkInUse ≠ some id → t.sinks[id]? = s.sinks[id]?) ∧
      ∀ j, s.blk.sourceInUse s.sinks ≠ some j → t.sources[j]? = s.sources[j]? := by
  cases hp : s.blk.phase with
  | idle =>
    cases (engineStep_idle hp).symm.trans hx
    exact ⟨fun _ _ => rfl, fun _ _ => rfl⟩
  | run op =>
    rw [engineStep_run hp] at hx
    cases he : isEncode op with
    | true =>
      obtain ⟨hsink, hsource⟩ := inUse_of_encode s.sinks he hp
      rw [hsink, hsource]
      exact encodeStep_frame (exec_running_encode he hp ▸ hx)
    | false =>
      obtain ⟨-, hsource⟩ := inUse_of_decode s.sinks he hp
      rw [exec_running_decode he hp] at hx
      rw [hsource]
      exact ⟨fun id _ => by rw [decodeStep_sinks hx], decodeStep_frame hx⟩

/-- An engine's move connects and disconnects no sink (20_memory.md R56). -/
theorem engineStep_fedBy {t : State} (hx : engineStep s = .next t) (i : Nat) : fedBy t.sinks i = fedBy s.sinks i := by
  obtain ⟨-, -, -, -, ⟨-, rfl⟩ | ⟨op, -, hx⟩⟩ := engineStep_keeps hx
  · rfl
  · exact exec_fedBy hx i

end

/-- An operation in progress always has a next state (60_exceptions.md R121). -/
theorem exec_running_total {op : Instr} {s : State} (hp : s.blk.phase = .run op) : ∃ t, exec op s = .next t := by
  cases he : isEncode op with
  | true =>
    rw [exec_running_encode he hp]
    rcases encodeStep_cases (width op) s with ⟨-, e⟩ | ⟨id, k, -, ⟨-, e⟩ | ⟨-, e⟩ | ⟨f, left, -, e⟩⟩ <;> exact ⟨_, e⟩
  | false =>
    rw [exec_running_decode he hp]
    rcases decodeStep_cases (width op) (overlongOf op) s with ⟨-, e⟩ | ⟨id, q, -, ⟨-, e⟩ | ⟨b, rest, -, -, e⟩ |
      ⟨-, -, e⟩ | ⟨f, left, -, e⟩⟩ <;> exact ⟨_, e⟩

theorem engineStep_total (s : State) : ∃ t, engineStep s = .next t := by
  cases hp : s.blk.phase with
  | idle => exact ⟨s, engineStep_idle hp⟩
  | run op =>
    rw [engineStep_run hp]
    exact exec_running_total hp

/-! ### Engine turns -/

theorem swapOut_isSome {k : Nat} {b : Block} {l : List (Nat × Block)} (out : Nat × Block) (h : l.lookup k = some b) :
    ∃ b' l', swapOut k out l = some (b', l') := by
  induction l with
  | nil => cases h
  | cons p rest ih =>
    obtain ⟨j, c⟩ := p
    by_cases hj : j = k
    · exact ⟨_, _, by rw [swapOut, if_pos hj]⟩
    · have hne : (k == j) = false := by simpa using Ne.symm hj
      rw [List.lookup, hne] at h
      obtain ⟨b', l', hr⟩ := ih h
      exact ⟨b', (j, c) :: l', by simp only [swapOut, if_neg hj, hr]⟩

/-- A block the system has can be brought into focus. -/
theorem focus_isSome {k : Nat} {s : State} {b : Block} (h : s.blockAt k = some b) : ∃ m, focus k s = some m := by
  by_cases hk : k = s.cur
  · exact ⟨s, by rw [hk, focus_self]⟩
  · rw [blockAt_other hk] at h
    obtain ⟨b', l', hr⟩ := swapOut_isSome (s.cur, s.blk) h
    exact ⟨{ s with cur := k, blk := b', others := l' }, by simp only [focus, if_neg hk, hr]⟩

/-- Block `k`, which is `b`, takes an engine turn from `s` to `t`; `m` is `s` with that block in focus. -/
structure EngineTurn (s : State) (k : Nat) (b : Block) (m t : State) : Prop where
  cur : m.cur = k
  blk : m.blk = b
  sinks : m.sinks = s.sinks
  sources : m.sources = s.sources
  move : engineStep m = .next t
  self : t.blockAt k = some t.blk
  others : ∀ j, j ≠ k → t.blockAt j = s.blockAt j

/-- An engine turn of a block that the system has. -/
theorem step_engineTurn {s : State} {k : Nat} {b : Block} {rest : List Turn} (hi : s.Inv)
    (ht : s.turns = .engine k :: rest) (hb : s.blockAt k = some b) :
    ∃ m t, step s = .next t ∧ t.turns = rest ∧ EngineTurn s k b m t := by
  obtain ⟨m, hm⟩ := focus_isSome hb
  obtain ⟨hcur, hsinks, hsources, hturns, -, -, -⟩ := focus_spec hm
  have hat := focus_blockAt hm hi.numbers
  obtain ⟨t, hx⟩ := engineStep_total m.popTurn
  obtain ⟨hc, ho, hturn, -, -⟩ := engineStep_keeps hx
  have htcur : t.cur = k := hc.trans hcur
  have hstep : step s = .next t := by simp only [step, takeTurn, ht, hm, hx]
  refine ⟨m.popTurn, t, hstep, ?_, hcur, ?_, hsinks, hsources, hx, ?_, fun j hj => ?_⟩
  · rw [hturn, State.popTurn_turns, hturns, ht, List.tail_cons]
  · have hself := blockAt_cur m
    rw [hcur, hat, hb] at hself
    exact (Option.some.inj hself).symm
  · rw [← htcur, blockAt_cur]
  · exact (blockAt_congr hc ho (hcur ▸ hj)).trans (hat j)

section
variable {s t m : State} {k : Nat} {b : Block} (h : EngineTurn s k b m t)
include h

theorem EngineTurn.fedBy (i : Nat) : fedBy t.sinks i = Machine.fedBy s.sinks i := by
  rw [engineStep_fedBy h.move, h.sinks]

theorem EngineTurn.sinks_frame (id : Nat) (hid : b.sinkInUse ≠ some id) : t.sinks[id]? = s.sinks[id]? := by
  rw [(engineStep_frame h.move).1 id (h.blk ▸ hid), h.sinks]

theorem EngineTurn.sources_frame (j : Nat) (hj : b.sourceInUse s.sinks ≠ some j) : t.sources[j]? = s.sources[j]? := by
  rw [(engineStep_frame h.move).2 j (by rwa [h.blk, h.sinks]), h.sources]

end

/-! ### Turns of two blocks -/

/-- Two entries of which a list keeps no value twice have no value in common. -/
theorem ne_of_nodup_filterMap {α β : Type} {f : α → Option β} {l : List α} (h : (l.filterMap f).Nodup) {a b : α}
    (ha : a ∈ l) (hb : b ∈ l) (hne : a ≠ b) {x : β} (hx : f a = some x) : f b ≠ some x := by
  induction l with
  | nil => cases ha
  | cons c l ih =>
    obtain ⟨hhead, htail⟩ := nodup_filterMap_cons.1 h
    rcases List.mem_cons.1 ha with rfl | hal <;> rcases List.mem_cons.1 hb with rfl | hbl
    · exact absurd rfl hne
    · exact hhead x hx b hbl
    · exact fun hx' => hhead x hx' a hal hx
    · exact ih htail hal hbl

/-- Operations in progress on two blocks use no stream in common (20_memory.md R52). -/
theorem State.Inv.streams_disjoint {s : State} {i j : Nat} {a b : Block} (h : s.Inv) (hij : i ≠ j)
    (ha : s.blockAt i = some a) (hb : s.blockAt j = some b) :
    (∀ id, a.sinkInUse = some id → b.sinkInUse ≠ some id) ∧
      ∀ id, a.sourceInUse s.sinks = some id → b.sourceInUse s.sinks ≠ some id := by
  have hma := (lookup_iff_mem h.numbers i a).1 ha
  have hmb := (lookup_iff_mem h.numbers j b).1 hb
  have hne : (i, a) ≠ (j, b) := fun e => hij (congrArg Prod.fst e)
  exact ⟨fun _ => ne_of_nodup_filterMap h.sinksExclusive hma hmb hne,
    fun _ => ne_of_nodup_filterMap h.sourcesExclusive hma hmb hne⟩

/-- A block makes the same move of its own streams after an engine turn of another block that uses none of them. -/
theorem EngineTurn.alike {s m t m' t' m'' u : State} {i j : Nat} {a b : Block} (hfirst : EngineTurn s i a m t)
    (hother : EngineTurn s j b m' t') (hsecond : EngineTurn t' i a m'' u)
    (hsinks : ∀ id, a.sinkInUse = some id → b.sinkInUse ≠ some id)
    (hsources : ∀ id, a.sourceInUse s.sinks = some id → b.sourceInUse s.sinks ≠ some id) :
    State.Alike a.sinkInUse (a.sourceInUse s.sinks) t u := by
  have hview : State.Alike a.sinkInUse (a.sourceInUse s.sinks) m m'' := by
    refine ⟨by rw [hfirst.cur, hsecond.cur], by rw [hfirst.blk, hsecond.blk], fun id hid => ?_, fun id hid => ?_⟩
    · rw [hsecond.sinks, hother.sinks_frame id (hsinks id hid), hfirst.sinks]
    · rw [hsecond.sources, hother.sources_frame id (hsources id hid), hfirst.sources]
  rw [← hfirst.blk, ← hfirst.sinks] at hview ⊢
  obtain ⟨u', hu', halike⟩ := engineStep_alike hview hfirst.move
  cases hu'.symm.trans hsecond.move
  exact halike

/-- Lists `l₁₂` and `l₂₁`, made from `l` by changes at `x` and at `y` in the two orders, are the same when each change
comes out the same in both. -/
theorem eq_of_changes_commute {α : Type} {l l₁ l₂ l₁₂ l₂₁ : List α} {x y : Option Nat}
    (hxy : ∀ n, x = some n → y ≠ some n) (h₁ : ∀ n, x ≠ some n → l₁[n]? = l[n]?)
    (h₁₂ : ∀ n, y ≠ some n → l₁₂[n]? = l₁[n]?) (h₂ : ∀ n, y ≠ some n → l₂[n]? = l[n]?)
    (h₂₁ : ∀ n, x ≠ some n → l₂₁[n]? = l₂[n]?) (hx : ∀ n, x = some n → l₂₁[n]? = l₁[n]?)
    (hy : ∀ n, y = some n → l₁₂[n]? = l₂[n]?) : l₁₂ = l₂₁ := by
  refine List.ext_getElem? fun n => ?_
  by_cases hxn : x = some n
  · rw [h₁₂ n (hxy n hxn), hx n hxn]
  · by_cases hyn : y = some n
    · rw [hy n hyn, h₂₁ n hxn]
    · rw [h₁₂ n hyn, h₁ n hxn, h₂₁ n hxn, h₂ n hyn]

/-- Two engine turns one after the other. -/
theorem runs_two_engineTurns {s : State} {i j : Nat} {a b : Block} (rest : List Turn) (h : s.Inv) (hij : i ≠ j)
    (ha : s.blockAt i = some a) (hb : s.blockAt j = some b) :
    ∃ m t m' t', EngineTurn s i a m t ∧ EngineTurn t j b m' t' ∧
      runs 2 { s with turns := .engine i :: .engine j :: rest } = .next t' := by
  have hinv : State.Inv { s with turns := .engine i :: .engine j :: rest } := h.of_perm (.refl _) rfl rfl
  obtain ⟨m, t, hstep, hturn, hfirst⟩ := step_engineTurn hinv rfl ha
  have hb' : t.blockAt j = some b := (hfirst.others j hij.symm).trans hb
  obtain ⟨m', t', hstep', -, hsecond⟩ := step_engineTurn (stepKeepsInvariant _ t hinv hstep) hturn hb'
  exact ⟨m, t, m', t', { hfirst with }, hsecond, by rw [runs_succ hstep, runs_succ hstep', runs_zero]⟩

/-- Settles O40: each block's move depends on its own streams only, and the other block's move leaves these alone. -/
theorem independentBlocksCommute : Obligations.IndependentBlocksCommute := by
  intro s i j a b rest h hij ha hb
  obtain ⟨mi, ti, mj', t, hi, hij', hrun⟩ := runs_two_engineTurns rest h hij ha hb
  obtain ⟨mj, tj, mi', u, hj, hji', hrun'⟩ := runs_two_engineTurns rest h hij.symm hb ha
  obtain ⟨hsinks, hsources⟩ := h.streams_disjoint hij ha hb
  obtain ⟨hsinks', hsources'⟩ := h.streams_disjoint hij.symm hb ha
  have hai := hi.alike hj hji' hsinks hsources
  have hbj := hj.alike hi hij' hsinks' hsources'
  have hqb : b.sourceInUse ti.sinks = b.sourceInUse s.sinks := sourceInUse_congr hi.fedBy b
  have hqa : a.sourceInUse tj.sinks = a.sourceInUse s.sinks := sourceInUse_congr hj.fedBy a
  refine ⟨t, u, hrun, hrun', fun k => ?_, ?_, ?_⟩
  · by_cases hki : k = i
    · rw [hki, hij'.others i hij, hi.self, hji'.self, hai.blk]
    · by_cases hkj : k = j
      · rw [hkj, hij'.self, hji'.others j hij.symm, hj.self, hbj.blk]
      · rw [hij'.others k hkj, hi.others k hki, hji'.others k hki, hj.others k hkj]
  · exact eq_of_changes_commute hsinks hi.sinks_frame hij'.sinks_frame hj.sinks_frame hji'.sinks_frame hai.sinks hbj.sinks
  · exact eq_of_changes_commute hsources hi.sources_frame (hqb ▸ hij'.sources_frame) hj.sources_frame
      (hqa ▸ hji'.sources_frame) hai.sources hbj.sources

end Sys2Proof.Machine

/-! PROOF. The statements of spec/30_encoding.md: the command words, the two kinds of byte, the length of an encoding,
which sequences are encodings, decoding a short sequence, and what an assembled program sets up. -/

namespace Sys2Proof.Machine

/-! ### The command word -/

/-- Settles O1: the words of the table, one by one. -/
theorem tableWordsDecodeAsWritten : Obligations.TableWordsDecodeAsWritten := by
  refine ⟨rfl, rfl, rfl, rfl, rfl, rfl, rfl, rfl, fun i => ?_⟩
  cases i <;> decide

theorem decode_eq_ok_iff {c : Byte} {i : Instr} :
    decode c = .ok i ↔ fieldRsvd c = 0#6 ∧ selectOp (fieldD c) (fieldW c) = i := by
  unfold decode
  split <;> simp [*]

/-- A legal word is the word of the operation its two bits select (30_encoding.md R69, R70). -/
theorem encode_selectOp {c : Byte} (h : fieldRsvd c = 0#6) : encode (selectOp (fieldD c) (fieldW c)) = c := by
  revert c
  decide

/-- Settles O2: a legal word is the word of what it decodes to, and an operation's word decodes to it. -/
theorem decodeInvertsEncode : Obligations.DecodeInvertsEncode := by
  intro c i
  constructor
  · intro h
    obtain ⟨hlegal, rfl⟩ := decode_eq_ok_iff.1 h
    exact encode_selectOp hlegal
  · rintro rfl
    exact decode_encode i

theorem fieldRsvd_ne_zero_iff (c : Byte) : fieldRsvd c ≠ 0#6 ↔ 0x04 ≤ c.toNat := by
  have hc := c.isLt
  rw [fieldRsvd, ne_eq, ← BitVec.toNat_inj, BitVec.extractLsb'_toNat, BitVec.toNat_ofNat, Nat.shiftRight_eq_div_pow]
  omega

theorem decode_eq_error_iff {c : Byte} : decode c = .error (.reservedBits (fieldRsvd c)) ↔ fieldRsvd c ≠ 0#6 := by
  unfold decode
  split <;> simp [*]

/-- Settles O3: a reserved bit set is a value of 4 or more, and the one reason for the decoder's error. -/
theorem reservedWordsAreRejected : Obligations.ReservedWordsAreRejected :=
  fun c => ⟨fieldRsvd_ne_zero_iff c, decode_eq_error_iff.symm⟩

/-! ### The two kinds of byte -/

theorem isTerminal_iff_toNat_lt (b : Byte) : isTerminal b = true ↔ b.toNat < 0x80 := by
  revert b
  decide

theorem isTerminal_iff_toInt_nonneg (b : Byte) : isTerminal b = true ↔ 0 ≤ b.toInt := by
  have hb := b.isLt
  rw [isTerminal_iff_toNat_lt, BitVec.toInt_eq_toNat_cond]
  split <;> omega

theorem groupOf_of_terminal {b : Byte} (h : isTerminal b = true) : groupOf b = b.setWidth 7 := if_pos h

theorem toNat_groupOf_of_terminal {b : Byte} (h : isTerminal b = true) : (groupOf b).toNat = b.toNat := by
  have hlt := (isTerminal_iff_toNat_lt b).1 h
  rw [groupOf_of_terminal h, BitVec.toNat_setWidth, Nat.mod_eq_of_lt hlt]

theorem toNat_groupOf_of_continuation {b : Byte} (h : isTerminal b = false) :
    (groupOf b).toNat = (b ^^^ 0xFF#8).toNat := by
  revert b
  decide

/-- A terminal byte is its group, stored plainly (30_encoding.md R60). -/
theorem term_groupOf {b : Byte} (h : isTerminal b = true) : term (groupOf b) = b := by
  revert b
  decide

/-- A continuation byte is its group, complemented (30_encoding.md R61). -/
theorem cont_groupOf {b : Byte} (h : isTerminal b = false) : cont (groupOf b) = b := by
  revert b
  decide

/-- Settles O41: `term` and `cont` invert `groupOf` on the bytes of their kind, and it inverts them. -/
theorem everyByteIsOneOfTwoKinds : Obligations.EveryByteIsOneOfTwoKinds :=
  ⟨fun b => ⟨isTerminal_iff_toNat_lt b, isTerminal_iff_toInt_nonneg b,
      fun h => ⟨(term_groupOf h).symm, toNat_groupOf_of_terminal h⟩,
      fun h => ⟨(cont_groupOf h).symm, toNat_groupOf_of_continuation h⟩⟩,
    fun g => ⟨isTerminal_term g, groupOf_term g, isTerminal_cont g, groupOf_cont g⟩⟩

/-! ### The length of an encoding -/

/-- The number of groups of a value is the least that holds it (30_encoding.md R64). -/
theorem encLen_le_iff {W m : Nat} (v : BitVec W) (hm : 1 ≤ m) : encLen v ≤ m ↔ v.toNat < 2 ^ (7 * m) := by
  induction v using shr7_induction generalizing m with
  | last v h =>
    have hv := (shr7_eq_zero v).1 h
    have hpow : 2 ^ 7 ≤ 2 ^ (7 * m) := Nat.pow_le_pow_right (by norm_num) (by omega)
    rw [encLen_of_last h]
    omega
  | more v h ih =>
    have hv : ¬ v.toNat < 128 := fun hlt => h ((shr7_eq_zero v).2 hlt)
    obtain ⟨n, rfl⟩ := Nat.exists_eq_add_of_le' hm
    rw [encLen_of_more h]
    cases n with
    | zero =>
      have := encLen_pos (v >>> 7)
      norm_num
      omega
    | succ n =>
      rw [Nat.add_le_add_iff_right, ih (Nat.le_add_left 1 n), toNat_shr7, Nat.div_lt_iff_lt_mul (by norm_num),
        Nat.mul_succ 7 (n + 1), Nat.pow_add]

theorem encLen_le_nmax {W : Nat} (hW : 1 ≤ nmax W) (v : BitVec W) : encLen v ≤ nmax W :=
  (encLen_le_iff v hW).2 (toNat_lt_two_pow_nmax v)

/-- R64 at any width with at least one group. -/
theorem encLen_least {W : Nat} (hW : 1 ≤ nmax W) (v : BitVec W) :
    (encBytes v).length = encLen v ∧ 1 ≤ encLen v ∧ encLen v ≤ nmax W ∧ v.toNat < 2 ^ (7 * encLen v) ∧
      ∀ m, 1 ≤ m → v.toNat < 2 ^ (7 * m) → encLen v ≤ m :=
  ⟨encBytes_length v, encLen_pos v, encLen_le_nmax hW v, (encLen_le_iff v (encLen_pos v)).1 le_rfl,
    fun _ hm => (encLen_le_iff v hm).2⟩

/-- Settles O42: `encLen_least` at the two widths, whose NMAX(W) is 5 and 10. -/
theorem lengthIsLeast : Obligations.LengthIsLeast :=
  ⟨encLen_least (W := 32) (by decide), encLen_least (W := 64) (by decide)⟩

/-! ### Sequences of bytes -/

theorem wellShaped_singleton (b : Byte) : wellShaped [b] = isTerminal b := rfl

theorem wellShaped_cons {b : Byte} {t : List Byte} (ht : t ≠ []) :
    wellShaped (b :: t) = (!isTerminal b && wellShaped t) := by
  cases t with
  | nil => exact absurd rfl ht
  | cons c t => rfl

theorem encBytes_ne_nil {W : Nat} (v : BitVec W) : encBytes v ≠ [] := by simp [encBytes]

theorem wellShaped_encBytes {W : Nat} (v : BitVec W) : wellShaped (encBytes v) = true := by
  induction v using shr7_induction with
  | last v h => rw [encBytes_of_last h, wellShaped_singleton, isTerminal_term]
  | more v h ih => rw [encBytes_of_more h, wellShaped_cons (encBytes_ne_nil _), isTerminal_cont, ih]; rfl

/-- The number that the groups of a byte sequence write in base 128, the lowest first (30_encoding.md R67). -/
def seqNat : List Byte → Nat
  | [] => 0
  | b :: t => (groupOf b).toNat + 128 * seqNat t

theorem seqNat_singleton (b : Byte) : seqNat [b] = (groupOf b).toNat := by simp [seqNat]

/-- An encoding writes its value. -/
theorem seqNat_encBytes {W : Nat} (v : BitVec W) : seqNat (encBytes v) = v.toNat := by
  induction v using shr7_induction with
  | last v h =>
    have hv := (shr7_eq_zero v).1 h
    rw [encBytes_of_last h, seqNat_singleton, groupOf_term, BitVec.toNat_setWidth, Nat.mod_eq_of_lt hv]
  | more v h ih =>
    rw [encBytes_of_more h, seqNat, groupOf_cont, ih, BitVec.toNat_setWidth, toNat_shr7]
    exact Nat.mod_add_div _ _

theorem seqNat_append (bs : List Byte) (b : Byte) :
    seqNat (bs ++ [b]) = seqNat bs + 128 ^ bs.length * (groupOf b).toNat := by
  induction bs with
  | nil => simp [seqNat]
  | cons c bs ih => simp only [List.cons_append, seqNat, ih, List.length_cons]; ring

theorem seqNat_lt (bs : List Byte) : seqNat bs < 128 ^ bs.length := by
  induction bs with
  | nil => simp [seqNat]
  | cons b bs ih =>
    have hg := (groupOf b).isLt
    rw [seqNat, List.length_cons, Nat.pow_succ]
    omega

/-! ### Canonical sequences -/

/-- A sequence of R66 has a last byte, and that byte is terminal. -/
theorem exists_last_of_wellShaped {bs : List Byte} (h : wellShaped bs = true) :
    ∃ init b, bs = init ++ [b] ∧ isTerminal b = true := by
  induction bs with
  | nil => cases h
  | cons b t ih =>
    by_cases ht : t = []
    · subst ht
      exact ⟨[], b, rfl, h⟩
    · rw [wellShaped_cons ht, Bool.and_eq_true] at h
      obtain ⟨init, c, rfl, hc⟩ := ih h.2
      exact ⟨b :: init, c, rfl, hc⟩

/-- With `b` last, the sequence writes a number below `m` times the weight of `b` exactly when `b` is below `m`. -/
theorem seqNat_append_lt_iff {init : List Byte} {b : Byte} (hb : isTerminal b = true) (m : Nat) :
    seqNat (init ++ [b]) < 128 ^ init.length * m ↔ b.toNat < m := by
  have hlow := seqNat_lt init
  rw [seqNat_append, toNat_groupOf_of_terminal hb]
  constructor
  · intro h
    exact Nat.lt_of_mul_lt_mul_left ((Nat.le_add_left _ _).trans_lt h)
  · intro h
    calc seqNat init + 128 ^ init.length * b.toNat < 128 ^ init.length * (b.toNat + 1) := by rw [Nat.mul_succ]; omega
      _ ≤ 128 ^ init.length * m := Nat.mul_le_mul_left _ h

/-- A sequence whose last byte is not 0x00 writes a number of at least that byte's weight. -/
theorem weight_le_seqNat {init : List Byte} {b : Byte} (hb : isTerminal b = true) (hne : b ≠ 0x00#8) :
    128 ^ init.length ≤ seqNat (init ++ [b]) := by
  have hpos : ¬ b.toNat < 1 := fun h => hne (BitVec.eq_of_toNat_eq (Nat.lt_one_iff.1 h))
  simpa using mt (seqNat_append_lt_iff (init := init) hb 1).1 hpos

theorem seqNat_pos {bs : List Byte} (h : wellShaped bs = true) (hlast : bs.getLast? ≠ some 0x00#8) : 0 < seqNat bs := by
  obtain ⟨init, b, rfl, hb⟩ := exists_last_of_wellShaped h
  have hne : b ≠ 0x00#8 := by simpa using hlast
  exact (by positivity : 0 < 128 ^ init.length).trans_le (weight_le_seqNat hb hne)

/-- A sequence with no surplus last byte is the encoding of the number it writes. -/
theorem encBytes_of_toNat_eq_seqNat {W : Nat} {bs : List Byte} {v : BitVec W} (h : wellShaped bs = true)
    (hlast : 2 ≤ bs.length → bs.getLast? ≠ some 0x00#8) (hv : v.toNat = seqNat bs) : encBytes v = bs := by
  induction bs generalizing v with
  | nil => cases h
  | cons b t ih =>
    have hg := (groupOf b).isLt
    rw [seqNat] at hv
    have hlow : v.setWidth 7 = groupOf b := by
      apply BitVec.eq_of_toNat_eq
      rw [BitVec.toNat_setWidth]
      omega
    by_cases ht : t = []
    · subst ht
      have hend : v >>> 7 = 0 := (shr7_eq_zero v).2 (by rw [hv]; exact hg)
      rw [encBytes_of_last hend, hlow, term_groupOf h]
    · rw [wellShaped_cons ht, Bool.and_eq_true, Bool.not_eq_true'] at h
      obtain ⟨hb, ht'⟩ := h
      have hlast' : t.getLast? ≠ some 0x00#8 := by
        have := List.length_pos_iff.2 ht
        rw [← List.getLast?_cons_of_ne_nil ht]
        exact hlast (by rw [List.length_cons]; omega)
      have hpos := seqNat_pos ht' hlast'
      have hmore : v >>> 7 ≠ 0 := fun hz => by
        have := (shr7_eq_zero v).1 hz
        omega
      rw [encBytes_of_more hmore, hlow, cont_groupOf hb, ih ht' (fun _ => hlast') (by rw [toNat_shr7]; omega)]

/-- The last byte of an encoding is 0x00 only in the encoding of 0. -/
theorem getLast?_encBytes_ne_zero {W : Nat} {v : BitVec W} (h : v ≠ 0) : (encBytes v).getLast? ≠ some 0x00#8 := by
  induction v using shr7_induction with
  | last v hend =>
    intro hlast
    have hterm : term (v.setWidth 7) = 0x00#8 := by simpa [encBytes_of_last hend] using hlast
    have hlow : v.setWidth 7 = 0#7 := by rw [← groupOf_term (v.setWidth 7), hterm]; rfl
    have hv := seqNat_encBytes v
    rw [encBytes_of_last hend, seqNat_singleton, groupOf_term, hlow] at hv
    exact h (BitVec.eq_of_toNat_eq hv.symm)
  | more v hmore ih =>
    rw [encBytes_of_more hmore, List.getLast?_cons_of_ne_nil (encBytes_ne_nil _)]
    exact ih hmore

/-- The canonical sequences of width W are those of R66 that write a W-bit number with no surplus last byte. -/
theorem canonical_iff {W : Nat} {bs : List Byte} : canonical W bs ↔
    wellShaped bs = true ∧ seqNat bs < 2 ^ W ∧ (2 ≤ bs.length → bs.getLast? ≠ some 0x00#8) := by
  constructor
  · rintro ⟨v, rfl⟩
    refine ⟨wellShaped_encBytes v, by rw [seqNat_encBytes]; exact v.isLt, fun hlen => getLast?_encBytes_ne_zero ?_⟩
    rintro rfl
    rw [encBytes_length, encLen_of_last (v := (0 : BitVec W)) (by simp)] at hlen
    omega
  · rintro ⟨h, hlt, hlast⟩
    exact ⟨⟨seqNat bs, hlt⟩, (encBytes_of_toNat_eq_seqNat h hlast rfl).symm⟩

/-- Such a sequence writes a W-bit number when it has at most NMAX(W) bytes, the NMAX(W)-th being small enough. -/
theorem seqNat_lt_two_pow_iff {W : Nat} {bs : List Byte} (hW : 0 < W) (h : wellShaped bs = true)
    (hlast : 2 ≤ bs.length → bs.getLast? ≠ some 0x00#8) :
    seqNat bs < 2 ^ W ↔ bs.length ≤ nmax W ∧
      (bs.length = nmax W → ∀ b, bs.getLast? = some b → b.toNat < 2 ^ (W - 7 * (nmax W - 1))) := by
  obtain ⟨init, b, rfl, hb⟩ := exists_last_of_wellShaped h
  have hmax : 7 * (nmax W - 1) < W ∧ W ≤ 7 * nmax W ∧ 1 ≤ nmax W := by unfold nmax; omega
  obtain ⟨hlow, hhigh, hone⟩ := hmax
  simp only [List.length_append, List.length_singleton, List.getLast?_concat, Option.some.injEq, forall_eq'] at hlast ⊢
  rcases Nat.lt_trichotomy (init.length + 1) (nmax W) with hn | hn | hn
  · have hlt : seqNat (init ++ [b]) < 2 ^ W := calc
      seqNat (init ++ [b]) < 128 ^ (init ++ [b]).length := seqNat_lt _
      _ = 2 ^ (7 * (init.length + 1)) := by rw [List.length_append, List.length_singleton, Nat.pow_mul]
      _ ≤ 2 ^ W := Nat.pow_le_pow_right (by norm_num) (by omega)
    simp [hlt, hn.le, hn.ne]
  · have hpow : 2 ^ W = 128 ^ init.length * 2 ^ (W - 7 * (nmax W - 1)) := by
      rw [show (128 : Nat) = 2 ^ 7 by rfl, ← Nat.pow_mul, ← Nat.pow_add]
      congr 1
      omega
    rw [hpow, seqNat_append_lt_iff hb]
    simp [hn]
  · have hne : b ≠ 0x00#8 := by simpa using hlast (by omega)
    have hge : 2 ^ W ≤ seqNat (init ++ [b]) := calc
      2 ^ W ≤ 2 ^ (7 * init.length) := Nat.pow_le_pow_right (by norm_num) (by omega)
      _ = 128 ^ init.length := by rw [Nat.pow_mul]
      _ ≤ seqNat (init ++ [b]) := weight_le_seqNat hb hne
    exact iff_of_false hge.not_gt fun h => by omega

/-- R68 at any width. -/
theorem canonical_iff_length_le {W : Nat} (hW : 0 < W) (bs : List Byte) : canonical W bs ↔
    wellShaped bs = true ∧ bs.length ≤ nmax W ∧ (2 ≤ bs.length → bs.getLast? ≠ some 0x00#8) ∧
      (bs.length = nmax W → ∀ b, bs.getLast? = some b → b.toNat < 2 ^ (W - 7 * (nmax W - 1))) := by
  rw [canonical_iff]
  constructor
  · rintro ⟨h, hlt, hlast⟩
    obtain ⟨hlen, hbound⟩ := (seqNat_lt_two_pow_iff hW h hlast).1 hlt
    exact ⟨h, hlen, hlast, hbound⟩
  · rintro ⟨h, hlen, hlast, hbound⟩
    exact ⟨h, (seqNat_lt_two_pow_iff hW h hlast).2 ⟨hlen, hbound⟩, hlast⟩

/-- Settles O45: the bounds of R68 are those of `canonical_iff_length_le` at the two widths. -/
theorem canonicalSequences : Obligations.CanonicalSequences :=
  ⟨canonical_iff_length_le (W := 32) (by decide), canonical_iff_length_le (W := 64) (by decide)⟩

/-! ### Decoding a short sequence -/

/-- 41_decode.md R107 on a sequence of R66 that stays within the NMAX(W) groups. -/
theorem decodeLoop_wellShaped {W : Nat} (oc : OverlongCombine W) (p : OverlongPolicy) (e : DecodeEnd)
    {bs : List Byte} (t : List Byte) (acc : BitVec W) (i c : Nat) (h : wellShaped bs = true)
    (hlen : i + bs.length ≤ nmax W) :
    decodeLoop W oc p e (bs ++ t) acc i c = (.ok (acc ||| wireValueFrom W i bs), c + bs.length) := by
  induction bs generalizing acc i c with
  | nil => cases h
  | cons b bs ih =>
    rw [List.length_cons] at hlen
    have hcombine : combine W oc acc (groupOf b) i = acc ||| ((groupOf b).setWidth W <<< (7 * i)) :=
      if_pos (by omega)
    rw [List.cons_append, decodeLoop, hcombine]
    by_cases hbs : bs = []
    · subst hbs
      simp [if_pos (show isTerminal b = true from h), wireValueFrom]
    · rw [wellShaped_cons hbs, Bool.and_eq_true, Bool.not_eq_true'] at h
      obtain ⟨hb, hbs'⟩ := h
      have hbound : ¬ (p = .reject ∧ i = nmax W - 1) := fun hreject => by
        have := List.length_pos_iff.2 hbs
        omega
      rw [hb, if_neg Bool.false_ne_true, if_neg hbound, ih _ _ _ hbs' (by omega), wireValueFrom, BitVec.or_assoc,
        List.length_cons, Nat.add_assoc, Nat.add_comm 1]

theorem decodeFn_wellShaped {W : Nat} (oc : OverlongCombine W) (p : OverlongPolicy) (bs t : List Byte) (e : DecodeEnd)
    (h : wellShaped bs = true) (hlen : bs.length ≤ nmax W) :
    decodeFn W oc p (bs ++ t) e = (.ok (wireValue W bs), bs.length) := by
  rw [decodeFn, decodeLoop_wellShaped oc p e t 0 0 0 h (by rwa [Nat.zero_add]), Nat.zero_add]
  simp [wireValue]

/-- Settles O46: `decodeFn_wellShaped` at the two widths. -/
theorem shortSequencesDecode : Obligations.ShortSequencesDecode :=
  ⟨decodeFn_wellShaped, decodeFn_wellShaped⟩

/-! ### The values and the commands of the assembler -/

/-- The pattern of `-n` is the two's complement of `n`, from `-1` to `-2^(W-1)` (30_encoding.md R73). -/
theorem toInt_ofInt_neg {W n : Nat} (hW : 0 < W) (h : n ≤ 2 ^ (W - 1)) :
    (BitVec.ofInt W (-(n : Int))).toInt = -(n : Int) := by
  have h' : (n : Int) ≤ 2 ^ (W - 1) := by exact_mod_cast h
  have hpos : (0 : Int) < 2 ^ (W - 1) := by positivity
  exact BitVec.toInt_ofInt_eq_self hW (by omega) (by omega)

theorem pattern_negative {W n : Nat} (h1 : 1 ≤ n) (h2 : n ≤ 2 ^ (W - 1)) :
    (AsmValue.negative n).pattern W = .ok (BitVec.ofInt W (-(n : Int))) := if_pos ⟨h1, h2⟩

theorem pattern_negative_refused {W n : Nat} (h : n = 0 ∨ 2 ^ (W - 1) < n) :
    (AsmValue.negative n).pattern W = .error .valueOutOfRange := if_neg (by omega)

/-- Settles O54: by the ranges that `AsmValue.pattern` tests, of which a negative value's is that of its width. -/
theorem assemblerValuesAreNeverTruncated : Obligations.AssemblerValuesAreNeverTruncated := by
  intro W hW n
  have hpos : 0 < W := by omega
  exact ⟨rfl, rfl, fun h1 h2 => ⟨_, pattern_negative h1 h2, toInt_ofInt_neg hpos h2⟩, pattern_negative_refused⟩

theorem encodeActions_of_pattern {W : Nat} {c : Byte} {x : AsmValue} {p : BitVec W} (h : x.pattern W = .ok p) :
    encodeActions W c x = .ok [.writeArg (p.setWidth 64), .issue c] := by
  simp [encodeActions, h]

/-- Settles O55: an encode by `encodeActions_of_pattern`, the others as they are written. -/
theorem commandsBecomeHostActions : Obligations.CommandsBecomeHostActions := by
  refine ⟨fun x p h => encodeActions_of_pattern h, fun x p h => ?_, rfl, rfl, fun _ => rfl⟩
  have := encodeActions_of_pattern (c := encode .enc64) h
  rwa [BitVec.setWidth_eq] at this

/-! ### Assembling the lines of a program -/

/-- What a line that is not refused may do to a set-up (30_encoding.md R73, R74). -/
inductive LineAdds (p : AsmSetup) : AsmLine → AsmSetup → Prop where
  | blank : LineAdds p .blank p
  | command {c : AsmCommand} {as : List HostAction} (h : c.actions = .ok as) :
      LineAdds p (.command c) { p with actions := p.actions ++ as }
  | source {bs : List Byte} (hs : p.source = none) (hl : p.loopback = false) :
      LineAdds p (.directive (.source bs)) { p with source := some bs }
  | loopback (hs : p.source = none) (hl : p.loopback = false) :
      LineAdds p (.directive .loopback) { p with loopback := true }
  | policy {x : OverlongPolicy} (hp : p.policy = none) :
      LineAdds p (.directive (.policy x)) { p with policy := some x }
  | sinkfail {k : Nat} {f : SinkFault} (hf : p.sinkfail = none) (hk : 1 ≤ k) :
      LineAdds p (.directive (.sinkfail k f)) { p with sinkfail := some (k, f) }

theorem ite_error_eq_ok_iff {c : Prop} [Decidable c] {r : Refusal} {e : Except Refusal AsmSetup} {q : AsmSetup} :
    (if c then .error r else e) = .ok q ↔ ¬ c ∧ e = .ok q := by
  split <;> simp [*]

theorem directive_adds {p q : AsmSetup} {d : AsmDirective} (h : p.directive d = .ok q) :
    LineAdds p (.directive d) q := by
  unfold AsmSetup.directive at h
  obtain ⟨-, h⟩ := ite_error_eq_ok_iff.1 h
  cases d with
  | source bs =>
    obtain ⟨hfree, ⟨⟩⟩ := ite_error_eq_ok_iff.1 h
    obtain ⟨hs, hl⟩ : p.source = none ∧ p.loopback = false := by simpa using hfree
    exact .source hs hl
  | loopback =>
    obtain ⟨hfree, ⟨⟩⟩ := ite_error_eq_ok_iff.1 h
    obtain ⟨hs, hl⟩ : p.source = none ∧ p.loopback = false := by simpa using hfree
    exact .loopback hs hl
  | policy x =>
    obtain ⟨hfree, ⟨⟩⟩ := ite_error_eq_ok_iff.1 h
    exact .policy (by simpa using hfree)
  | sinkfail k f =>
    obtain ⟨hfree, ⟨⟩⟩ := ite_error_eq_ok_iff.1 h
    obtain ⟨hf, hk⟩ : p.sinkfail = none ∧ k ≠ 0 := by simpa using hfree
    exact .sinkfail hf (Nat.pos_of_ne_zero hk)

theorem line_command {p : AsmSetup} {c : AsmCommand} {as : List HostAction} (h : c.actions = .ok as) :
    p.line (.command c) = .ok { p with actions := p.actions ++ as } := by
  simp [AsmSetup.line, h]

theorem line_adds {p q : AsmSetup} {l : AsmLine} (h : p.line l = .ok q) : LineAdds p l q := by
  cases l with
  | blank => cases h; exact .blank
  | command c =>
    cases hc : c.actions with
    | ok as => rw [line_command hc] at h; cases h; exact .command hc
    | error r => simp [AsmSetup.line, hc] at h
  | directive d => exact directive_adds h

/-- A program's first line adds to the set-up, and the rest of the program to what it leaves. -/
theorem assemble_cons {p q : AsmSetup} {l : AsmLine} {ls : List AsmLine} (h : assemble p (l :: ls) = .ok q) :
    ∃ p', p.line l = .ok p' ∧ assemble p' ls = .ok q := by
  rw [assemble] at h
  split at h
  next p' hline => exact ⟨p', hline, h⟩
  next => cases h

theorem assemble_append {p q : AsmSetup} {ls : List AsmLine} (h : assemble p ls = .ok q) (ls' : List AsmLine) :
    assemble p (ls ++ ls') = assemble q ls' := by
  induction ls generalizing p with
  | nil => cases h; rfl
  | cons l ls ih =>
    obtain ⟨p', hline, hrest⟩ := assemble_cons h
    rw [List.cons_append, assemble, hline]
    exact ih hrest

/-- What every line keeps, a program keeps. -/
theorem assemble_keeps {P : AsmSetup → Prop} (hline : ∀ p l p', LineAdds p l p' → P p → P p') {p q : AsmSetup}
    {ls : List AsmLine} (h : assemble p ls = .ok q) (hp : P p) : P q := by
  induction ls generalizing p with
  | nil => cases h; exact hp
  | cons l ls ih =>
    obtain ⟨p', hl, hrest⟩ := assemble_cons h
    exact ih hrest (hline p l p' (line_adds hl) hp)

/-- What line `d` alone brings about holds after a program exactly when it held before or `d` is one of its lines. -/
theorem assemble_sets_iff {P : AsmSetup → Prop} {d : AsmLine}
    (hline : ∀ p l p', LineAdds p l p' → (P p' ↔ P p ∨ l = d)) {p q : AsmSetup} {ls : List AsmLine}
    (h : assemble p ls = .ok q) : P q ↔ P p ∨ d ∈ ls := by
  induction ls generalizing p with
  | nil => cases h; simp
  | cons l ls ih =>
    obtain ⟨p', hl, hrest⟩ := assemble_cons h
    rw [ih hrest, hline p l p' (line_adds hl), List.mem_cons, or_assoc, eq_comm (a := l)]

/-! ### What the directives of an assembled program set up -/

section
variable {p q : AsmSetup} {ls : List AsmLine}

theorem assemble_source_iff (h : assemble p ls = .ok q) (bs : List Byte) :
    q.source = some bs ↔ p.source = some bs ∨ .directive (.source bs) ∈ ls :=
  assemble_sets_iff (P := fun p => p.source = some bs) (fun p l p' hl => by cases hl <;> simp [*]) h

theorem assemble_loopback_iff (h : assemble p ls = .ok q) :
    q.loopback = true ↔ p.loopback = true ∨ .directive .loopback ∈ ls :=
  assemble_sets_iff (P := fun p => p.loopback = true) (fun p l p' hl => by cases hl <;> simp [*]) h

theorem assemble_policy_iff (h : assemble p ls = .ok q) (x : OverlongPolicy) :
    q.policy = some x ↔ p.policy = some x ∨ .directive (.policy x) ∈ ls :=
  assemble_sets_iff (P := fun p => p.policy = some x) (fun p l p' hl => by cases hl <;> simp [*]) h

theorem assemble_sinkfail_iff (h : assemble p ls = .ok q) (k : Nat) (f : SinkFault) :
    q.sinkfail = some (k, f) ↔ p.sinkfail = some (k, f) ∨ .directive (.sinkfail k f) ∈ ls :=
  assemble_sets_iff (P := fun p => p.sinkfail = some (k, f)) (fun p l p' hl => by cases hl <;> simp [*]) h

end

/-- What every line keeps: `.source` and `.loopback` are not both there, and the failing append counts from 1 (R74). -/
structure AsmSetup.Sound (p : AsmSetup) : Prop where
  exclusive : ¬(p.source.isSome = true ∧ p.loopback = true)
  counted : ∀ k f, p.sinkfail = some (k, f) → 1 ≤ k

theorem AsmSetup.Sound.line {p q : AsmSetup} {l : AsmLine} (hl : LineAdds p l q) (h : p.Sound) : q.Sound := by
  cases hl with
  | blank | command | policy => exact ⟨h.exclusive, h.counted⟩
  | source hs hl => exact ⟨by simp [hl], h.counted⟩
  | loopback hs hl => exact ⟨by simp [hs], h.counted⟩
  | sinkfail hf hk => exact ⟨h.exclusive, by rintro _ _ ⟨⟩; exact hk⟩

theorem AsmSetup.Sound.empty : AsmSetup.empty.Sound := ⟨by simp [AsmSetup.empty], by simp [AsmSetup.empty]⟩

theorem assemble_sound {q : AsmSetup} {ls : List AsmLine} (h : assemble .empty ls = .ok q) : q.Sound :=
  assemble_keeps (fun _ _ _ => AsmSetup.Sound.line) h .empty

/-! ### The streams and the turns of a set-up -/

theorem AsmSetup.host_eq (p : AsmSetup) :
    p.host = p.policy.toList.map .fixPolicy ++ [.attachSink 0, .attachSource 0] ++ p.actions := by
  unfold AsmSetup.host
  cases p.policy <;> rfl

theorem AsmSetup.sink_accepts {p : AsmSetup} (h : p.sinkfail = none) : p.sink.Accepts := by
  simp [Sink.Accepts, AsmSetup.sink, h]

theorem AsmSetup.sink_answers {p : AsmSetup} {k : Nat} {f : SinkFault} (h : p.sinkfail = some (k, f)) :
    p.sink.answers = List.replicate (k - 1) .ok ++ [.fail f none] := by
  simp [AsmSetup.sink, h]

/-- The sink of `.sinkfail k name` answers `ok` to every append but the `k`-th (30_encoding.md R74). -/
theorem AsmSetup.sink_answer {p : AsmSetup} {k : Nat} {f : SinkFault} (h : p.sinkfail = some (k, f)) (hk : 1 ≤ k)
    (n : Nat) : p.sink.answers[n]?.getD p.sink.thereafter = if n + 1 = k then .fail f none else .ok := by
  have hthere : p.sink.thereafter = .ok := rfl
  rw [AsmSetup.sink_answers h, hthere]
  rcases Nat.lt_trichotomy n (k - 1) with hn | hn | hn
  · rw [if_neg (by omega), List.getElem?_append_left (by simpa using hn), List.getElem?_replicate_of_lt hn]
    rfl
  · rw [if_pos (by omega), hn, List.getElem?_append_right (by simp)]
    simp
  · rw [if_neg (by omega), List.getElem?_eq_none (by simp; omega)]
    rfl

/-! ### Directives that are refused -/

section
variable {p : AsmSetup}

theorem directive_after_command (h : p.actions ≠ []) (d : AsmDirective) : p.directive d = .error .badProgram := if_pos h

theorem source_refused (h : p.source.isSome = true ∨ p.loopback = true) (bs : List Byte) :
    p.directive (.source bs) = .error .badProgram := by
  simp only [AsmSetup.directive, Bool.or_eq_true, if_pos h, ite_self]

theorem loopback_refused (h : p.source.isSome = true ∨ p.loopback = true) :
    p.directive .loopback = .error .badProgram := by
  simp only [AsmSetup.directive, Bool.or_eq_true, if_pos h, ite_self]

theorem policy_refused (h : p.policy.isSome = true) (x : OverlongPolicy) :
    p.directive (.policy x) = .error .badProgram := by
  simp only [AsmSetup.directive, if_pos h, ite_self]

theorem sinkfail_refused {k : Nat} (h : p.sinkfail.isSome = true ∨ k = 0) (f : SinkFault) :
    p.directive (.sinkfail k f) = .error .badProgram := by
  simp only [AsmSetup.directive, Bool.or_eq_true, beq_iff_eq, if_pos h, ite_self]

end

/-- Settles O56: the fields by what a line may add, the streams and turns by the set-up's own, and the refusals. -/
theorem directivesSetUpTheStreams : Obligations.DirectivesSetUpTheStreams := by
  refine ⟨fun ls p h => ?_, fun p => ?_, fun p k f h hk n => AsmSetup.sink_answer h hk n,
    fun p d h => directive_after_command h d, fun p bs x k f =>
      ⟨fun h => ⟨source_refused h bs, loopback_refused h⟩, fun h => policy_refused h x,
        fun h => sinkfail_refused (.inl h) f, sinkfail_refused (.inr rfl) f⟩⟩
  · obtain ⟨hexclusive, hcounted⟩ := assemble_sound h
    refine ⟨fun bs => ?_, ?_, fun x => ?_, fun k f => ?_, hexclusive, hcounted, fun c as hc => ?_⟩
    · simpa [AsmSetup.empty] using assemble_source_iff h bs
    · simpa [AsmSetup.empty] using assemble_loopback_iff h
    · simpa [AsmSetup.empty] using assemble_policy_iff h x
    · simpa [AsmSetup.empty] using assemble_sinkfail_iff h k f
    · rw [assemble_append h, assemble, line_command hc]
      rfl
  · refine ⟨rfl, ⟨rfl, rfl, rfl⟩, rfl, rfl, fun h => by simp [AsmSetup.sink, h],
      fun h => by simp [AsmSetup.sink, h], AsmSetup.sink_accepts, ?_⟩
    rw [AsmSetup.launch, AsmSetup.host_eq]

end Sys2Proof.Machine

/-! PROOF. The statements of spec/40_encode.md: acceptance of an encode, its steps and their frame, the loop against the
closed form, no encoding beginning another, and whole encodes up to their completion or their sink's failure. -/

namespace Sys2Proof.Machine

/-! ### Acceptance -/

/-- Settles O9: an idle block accepts, and a busy one holds the issue while its own operation moves. -/
theorem encodeAcceptanceLoadsV : Obligations.EncodeAcceptanceLoadsV := by
  refine ⟨fun s op he hi hw hs => ?_, fun s op running rest _ hr ht => ?_⟩
  · rw [exec_encode_idle he hi, acceptEncode, hs, hw]
    rfl
  · exact (stepRunsOperationInProgress s running hr).2.2 _ _ ht

/-! ### One step of an encode -/

/-- The group a step takes from `V` is that of the whole 64-bit field (log 4). -/
theorem setWidth_group (op : Instr) (x : BitVec 64) : (x.setWidth (width op)).setWidth 7 = x.setWidth 7 :=
  BitVec.setWidth_setWidth_of_le _ (by cases op <;> decide)

theorem stepByte_of_last {W : Nat} {v : BitVec W} (h : v >>> 7 = 0) : stepByte v = term (v.setWidth 7) := if_pos h

theorem stepByte_of_more {W : Nat} {v : BitVec W} (h : v >>> 7 ≠ 0) : stepByte v = cont (v.setWidth 7) := if_neg h

section
variable {op : Instr} {s : State} {id : Nat} {k : Sink} (he : isEncode op = true) (hr : s.Running op)
  (hk : s.HasSink id k)
include he hr hk

/-- The last iteration, accepted: the last group is appended plainly and the encode completes OK (40_encode.md R82). -/
theorem exec_encode_last (hlast : s.blk.v.setWidth (width op) >>> 7 = 0) (hn : k.next = .ok) :
    ∃ t, exec op s = .next t ∧ s.blk.EndedAs 0x00#8 .none t.blk ∧
      t = { s.appended id k (term (s.blk.v.setWidth 7)) with blk := t.blk } := by
  refine ⟨complete .ok (s.appended id k (term (s.blk.v.setWidth 7))), ?_, s.blk.completed_endedAs .ok s.cur, rfl⟩
  rw [exec_running_encode he hr.2, encodeStep_ok hk hn, stepByte_of_last hlast, setWidth_group, stepRest, if_pos hlast]

/-- An iteration that goes on, accepted: a group is appended complemented and `V` loses it (40_encode.md R82). -/
theorem exec_encode_more (hmore : s.blk.v.setWidth (width op) >>> 7 ≠ 0) (hn : k.next = .ok) :
    exec op s = .next { s.appended id k (cont (s.blk.v.setWidth 7)) with
      blk := s.blk.loadV (width op) (s.blk.v.setWidth (width op) >>> 7) } := by
  rw [exec_running_encode he hr.2, encodeStep_ok hk hn, stepByte_of_more hmore, setWidth_group, stepRest, if_neg hmore]
  rfl

/-- A refused append ends the encode with the sink's failure (60_exceptions.md R122). -/
theorem exec_encode_refused {f : SinkFault} {left : Option (List Byte × Nat)} (hn : k.next = .fail f left) :
    ∃ t, exec op s = .next t ∧ s.blk.EndedAs 0x01#8 (.sink f) t.blk ∧
      t = { s.refusedAppend id k (stepByte (s.blk.v.setWidth (width op))) f left with blk := t.blk } :=
  ⟨complete (.sinkFault f) (s.refusedAppend id k (stepByte (s.blk.v.setWidth (width op))) f left),
    by rw [exec_running_encode he hr.2, encodeStep_fail hk hn], s.blk.completed_endedAs (.sinkFault f) s.cur, rfl⟩

end

/-- Settles O12: the iteration by what is left of `V` and by the sink's answer. -/
theorem encodeIterationAppendsGroup : Obligations.EncodeIterationAppendsGroup := by
  intro s op id k he hr hk _
  refine ⟨fun hlast => ⟨exec_encode_last he hr hk hlast, fun f left hn => ?_⟩,
    fun hmore => ⟨exec_encode_more he hr hk hmore, fun f left hn => ?_⟩⟩
  · have h := exec_encode_refused he hr hk hn
    rwa [stepByte_of_last hlast, setWidth_group] at h
  · have h := exec_encode_refused he hr hk hn
    rwa [stepByte_of_more hmore, setWidth_group] at h

/-! ### The zero step -/

/-- Nothing is left of a zero `V`, and its group's terminal byte is 0x00 (40_encode.md R88). -/
theorem last_of_zero {op : Instr} {x : BitVec 64} (h : x.setWidth (width op) = 0) :
    x.setWidth (width op) >>> 7 = 0 ∧ term (x.setWidth 7) = 0x00#8 := by
  rw [← setWidth_group op, h]
  simp [term]

/-- Settles O13: at 0 the uniform step of `encodeStep_uniform` is that of the last iteration. -/
theorem zeroCaseIsTheGeneralCase : Obligations.ZeroCaseIsTheGeneralCase := by
  intro s op he hr hz
  obtain ⟨hlast, hbyte⟩ := last_of_zero hz
  refine ⟨?_, hlast, hbyte⟩
  rw [exec_running_encode he hr.2, encodeStep_uniform, stepByte_of_last hlast, setWidth_group, stepRest, if_pos hlast]

/-- An encode step that does not complete is held or loads what is left of `V`, which is not 0 (40_encode.md R82). -/
theorem encodeStep_blk_of_run {W : Nat} {op : Instr} {s t : State} (h : encodeStep W s = .next t)
    (hp : t.blk.phase = .run op) : t.blk = s.blk ∨ ∃ x : BitVec W, x ≠ 0 ∧ t.blk = s.blk.loadV W x := by
  rcases encodeStep_cases W s with ⟨-, e⟩ | ⟨id, k, -, ⟨-, e⟩ | ⟨-, e⟩ | ⟨f, left, -, e⟩⟩ <;> cases e.symm.trans h
  · exact .inl rfl
  · exact .inl rfl
  · rcases stepRest_cases (s.blk.v.setWidth W) (s.appended id k (stepByte (s.blk.v.setWidth W))) with ⟨-, e'⟩ |
      ⟨hmore, e'⟩ <;> rw [e'] at hp ⊢
    · cases hp
    · exact .inr ⟨_, hmore, rfl⟩
  · cases hp

/-- An accepted encode holds its operand in `V` (40_encode.md R80). -/
theorem exec_encode_of_idle {op : Instr} {s t : State} (he : isEncode op = true) (hi : s.Idle)
    (h : exec op s = .next t) : t = s.onBlk (Block.encodeAccepted (width op) op) := by
  rw [exec_encode_idle he hi, acceptEncode] at h
  split_ifs at h
  cases h
  rfl

/-- Settles O11: the zero step is a last iteration, a step that goes on leaves `V` not 0, and acceptance loads `V`. -/
theorem encodeZeroStepAppendsZero : Obligations.EncodeZeroStepAppendsZero := by
  refine ⟨fun s op he hr => ⟨fun id k hk hz => ?_, fun t h hp => ?_⟩, fun s t op he hi h => ?_⟩
  · obtain ⟨hlast, hbyte⟩ := last_of_zero hz
    refine ⟨fun hn => ?_, fun f left hn => ?_⟩
    · have h := exec_encode_last he hr hk hlast hn
      rwa [hbyte] at h
    · have h := exec_encode_refused he hr hk hn
      rwa [stepByte_of_last hlast, setWidth_group, hbyte] at h
  · rw [exec_running_encode he hr.2] at h
    rcases encodeStep_blk_of_run h hp with hsame | ⟨x, hx, hload⟩
    · exact .inl hsame
    · refine .inr ?_
      rwa [hload, Block.loadV, setWidth_setWidth_of_le (width_le op)]
  · rw [exec_encode_of_idle he hi h, State.onBlk_blk, Block.encodeAccepted, setWidth_setWidth_of_le (width_le op),
      operand]

/-! ### The frame of an encode -/

/-- What an encode leaves of the registers it does not name, as long as it goes on (40_encode.md R84, R85). -/
theorem exec_encode_keeps_of_run {op : Instr} {s t : State} (he : isEncode op = true) (h : exec op s = .next t)
    (hp : t.blk.phase = .run op) : t.blk.acc = s.blk.acc ∧ t.blk.idx = s.blk.idx ∧ t.blk.status = s.blk.status ∧
      t.blk.faultInfo = s.blk.faultInfo := by
  rcases exec_encode_cases (s := s) he with ⟨-, e⟩ | ⟨-, -, e⟩ | ⟨-, -, -, e⟩ | ⟨-, e | e⟩ <;> rw [e] at h
  · rcases encodeStep_blk_of_run h hp with hb | ⟨x, -, hb⟩ <;> rw [hb] <;> exact ⟨rfl, rfl, rfl, rfl⟩
  · cases h; exact ⟨rfl, rfl, rfl, rfl⟩
  · cases h; exact ⟨rfl, rfl, rfl, rfl⟩
  · cases h
  · cases h

/-- An encode changes no sink but the attached one and no source but the one that sink feeds. -/
theorem exec_encode_frame {op : Instr} {s t : State} (he : isEncode op = true) (h : exec op s = .next t) :
    (∀ j, s.blk.sink ≠ some j → t.sinks[j]? = s.sinks[j]?) ∧
      ∀ j, s.blk.sink.bind (fedBy s.sinks) ≠ some j → t.sources[j]? = s.sources[j]? := by
  rcases exec_encode_cases (s := s) he with ⟨-, e⟩ | ⟨-, -, e⟩ | ⟨-, -, -, e⟩ | ⟨-, e | e⟩ <;> rw [e] at h
  · exact encodeStep_frame h
  · cases h; exact ⟨fun _ _ => rfl, fun _ _ => rfl⟩
  · cases h; exact ⟨fun _ _ => rfl, fun _ _ => rfl⟩
  · cases h
  · cases h

/-- The source an encode would feed is the one its attached sink is connected to (20_memory.md R56). -/
theorem exists_sink_of_fed {s : State} {j : Nat} (h : s.blk.sink.bind (fedBy s.sinks) = some j) :
    ∃ id k, s.HasSink id k ∧ k.feeds = some j := by
  obtain ⟨id, hid, hfed⟩ := Option.bind_eq_some_iff.1 h
  obtain ⟨k, hk, hfeeds⟩ := Option.bind_eq_some_iff.1 hfed
  exact ⟨id, k, ⟨hid, hk⟩, hfeeds⟩

/-- Settles O22: the frame every transition has, and what an encode leaves of its working registers and the streams. -/
theorem encodeFrame : Obligations.EncodeFrame := by
  intro s t op he h
  obtain ⟨hcur, hothers, hturns, hgot, hkeeps⟩ := exec_keeps h
  obtain ⟨hwritten, hresult⟩ : t.blk.resultWritten = s.blk.resultWritten ∧ t.blk.result = s.blk.result := by
    rcases hkeeps.result with hsame | ⟨hd, -⟩
    · exact hsame
    · exact absurd (he.symm.trans hd) (by decide)
  obtain ⟨hsinks, hsources⟩ := exec_encode_frame he h
  refine ⟨⟨hcur, hothers, hturns, hgot⟩, ⟨hkeeps.arg, hkeeps.argWritten, hresult, hwritten, hkeeps.sink, hkeeps.source,
    hkeeps.policy, hkeeps.started⟩, exec_encode_keeps_of_run he h, hsinks, fun j hj => hsources j fun hfed => ?_⟩
  obtain ⟨id, k, hk, hfeeds⟩ := exists_sink_of_fed hfed
  exact hj id k hk hfeeds

/-! ### The loop and the closed form -/

/-- With fuel for every byte the loop of 40_encode.md R83 gives the closed form. -/
theorem encodeGo_eq_encBytes {W fuel : Nat} (v : BitVec W) (h : encLen v ≤ fuel) : encodeGo fuel v = encBytes v := by
  obtain ⟨n, rfl⟩ := Nat.exists_eq_add_of_le' ((encLen_pos v).trans_le h)
  induction v using shr7_induction generalizing n with
  | last v hlast => rw [encodeGo, if_pos hlast, encBytes_of_last hlast]
  | more v hmore ih =>
    rw [encLen_of_more hmore, Nat.add_le_add_iff_right] at h
    obtain ⟨m, rfl⟩ := Nat.exists_eq_add_of_le' ((encLen_pos (v >>> 7)).trans_le h)
    rw [encodeGo, if_neg hmore, ih m h, encBytes_of_more hmore]

theorem encodeFn_eq_encBytes {W : Nat} (hW : 1 ≤ nmax W) (v : BitVec W) : encodeFn v = encBytes v := by
  by_cases h : v = 0
  · subst h
    rw [encodeFn, if_pos rfl, encBytes_of_last (by simp)]
    simp [term]
  · rw [encodeFn, if_neg h, encodeGo_eq_encBytes v (encLen_le_nmax hW v)]

/-- Settles O43: NMAX(W) is fuel enough at both widths. -/
theorem encodeLoopGivesClosedForm : Obligations.EncodeLoopGivesClosedForm :=
  ⟨encodeFn_eq_encBytes (by decide), encodeFn_eq_encBytes (by decide)⟩

/-! ### No encoding begins another -/

/-- A sequence of 30_encoding.md R66 ends at its first terminal byte, so no longer one begins with it. -/
theorem eq_of_wellShaped_prefix {bs cs : List Byte} (hb : wellShaped bs = true) (hc : wellShaped cs = true)
    (h : bs <+: cs) : bs = cs := by
  induction bs generalizing cs with
  | nil => cases hb
  | cons b t ih =>
    obtain ⟨u, rfl, hu⟩ := List.cons_prefix_iff.1 h
    by_cases ht : t = [] <;> by_cases hu' : u = []
    · rw [ht, hu']
    · subst ht
      rw [wellShaped_singleton] at hb
      simp [wellShaped_cons hu', hb] at hc
    · subst hu'
      exact absurd (List.prefix_nil.1 hu) ht
    · rw [wellShaped_cons ht, Bool.and_eq_true] at hb
      rw [wellShaped_cons hu', Bool.and_eq_true] at hc
      rw [ih hb.2 hc.2 hu]

theorem eq_of_encBytes_prefix {W : Nat} {v w : BitVec W} (h : encBytes v <+: encBytes w) : v = w := by
  have hsame := eq_of_wellShaped_prefix (wellShaped_encBytes v) (wellShaped_encBytes w) h
  apply BitVec.eq_of_toNat_eq
  rw [← seqNat_encBytes v, hsame, seqNat_encBytes]

/-- The encoding of a value does not depend on the width it is encoded at. -/
theorem encBytes_eq_of_toNat_eq {W W' : Nat} {v : BitVec W} {w : BitVec W'} (h : w.toNat = v.toNat) :
    encBytes v = encBytes w := by
  obtain ⟨hshape, -, hlast⟩ := canonical_iff.1 ⟨v, rfl⟩
  exact (encBytes_of_toNat_eq_seqNat hshape hlast (h.trans (seqNat_encBytes v).symm)).symm

/-- Settles O44: an encoding ends at its terminal byte and writes its value, whatever the width. -/
theorem encodingIsPrefixFree : Obligations.EncodingIsPrefixFree :=
  ⟨fun v => ⟨encBytes_length v, wellShaped_encBytes v,
      encBytes_eq_of_toNat_eq (BitVec.toNat_setWidth_of_le (by decide))⟩,
    fun v => ⟨encBytes_length v, wellShaped_encBytes v⟩, fun _ _ => eq_of_encBytes_prefix,
    fun _ _ => eq_of_encBytes_prefix⟩

/-! ### Whole encodes -/

/-- Only the source a sink feeds gains bytes. -/
theorem gainBytes_other {target : Option Nat} {bs : List Byte} {qs : List Source} {j : Nat} (h : target ≠ some j) :
    (gainBytes target bs qs)[j]? = qs[j]? := by
  induction bs generalizing qs with
  | nil => rfl
  | cons b bs ih => exact ih.trans (gainByte_other h)

/-- The source a sink feeds gains the bytes the sink takes (20_memory.md R56). -/
theorem State.appendedAll_source_fed {s : State} {id j : Nat} {k : Sink} {q : Source} (hj : k.feeds = some j)
    (hq : s.sources[j]? = some q) (bs : List Byte) :
    (s.appendedAll id k bs).sources[j]? = some { q with rest := q.rest ++ bs } := by
  rw [State.appendedAll, hj]
  exact gainBytes_fed hq

/-- Settles O48: `runs_issued_encode`, with the issue as the only turn. -/
theorem encodeAppendsItsEncoding : Obligations.EncodeAppendsItsEncoding := by
  intro s op id k he ht hi hw hs hk ha
  have hpop : s.popTurn.turns = [] := by rw [State.popTurn_turns, ht, List.tail_cons]
  obtain ⟨b, hrun, hb⟩ := runs_issued_encode he ht (.inl hpop) hi hw hs hk ha
  rw [Nat.add_comm] at hrun
  refine ⟨_, hrun, ⟨hpop, hb.idle.1⟩, hb, ?_, fun j hj => gainBytes_other hj,
    fun j q hj hq => State.appendedAll_source_fed (s := s) (id := id) hj hq _, rfl⟩
  exact congrArg (s.sinks.set id) (ha.pushAll_encBytes _)

theorem Sink.pushAll_pushAll (k : Sink) (bs bs' : List Byte) : (k.pushAll bs).pushAll bs' = k.pushAll (bs ++ bs') := by
  simp [Sink.pushAll, Nat.add_assoc]

/-- An encoding begins with the byte of the first step. -/
theorem encBytes_head {W : Nat} (v : BitVec W) : (encBytes v)[0]? = some (stepByte v) := by
  by_cases h : v >>> 7 = 0
  · rw [encBytes_of_last h, stepByte_of_last h, List.getElem?_cons_zero]
  · rw [encBytes_of_more h, stepByte_of_more h, List.getElem?_cons_zero]

/-- 40_encode.md R87 on the machine: an encode in progress whose sink takes `n` bytes of the encoding of `V` and refuses
the next, `x`, takes one step for each of them and ends with the sink's failure. -/
theorem runs_encode_refused {op : Instr} {s : State} {id n : Nat} {k : Sink} {v : BitVec (width op)} {f : SinkFault}
    {left : Option (List Byte × Nat)} (he : isEncode op = true) (hv : s.blk.v.setWidth (width op) = v)
    (hr : s.Running op) (ht : s.EngineOnly) (hk : s.HasSink id k) (hn : n < encLen v)
    (ha : k.answers = List.replicate n .ok ++ [.fail f left]) :
    ∃ x b, (encBytes v)[n]? = some x ∧ s.blk.EndedAs 0x01#8 (.sink f) b ∧
      runs (n + 1) s = .next { (s.appendedAll id k ((encBytes v).take n)).refusedAppend id
        (k.pushAll ((encBytes v).take n)) x f left with blk := b } := by
  induction n generalizing s k v with
  | zero =>
    have hnext : k.next = .fail f left := by simp [Sink.next, ha]
    obtain ⟨t, hx, hend, hstate⟩ := exec_encode_refused he hr hk hnext
    refine ⟨stepByte v, t.blk, encBytes_head v, hend, ?_⟩
    rw [runs_succ ((step_of_engineOnly hr ht).trans hx), hstate, hv]
    simp [State.refusedAppend, State.appendedAll, Sink.pushAll, gainBytes]
  | succ n ih =>
    have hmore : v >>> 7 ≠ 0 := fun hlast => by
      rw [encLen_of_last hlast] at hn
      omega
    have hbytes : encBytes v = cont (v.setWidth 7) :: encBytes (v >>> 7) := encBytes_of_more hmore
    rw [encLen_of_more hmore, Nat.add_lt_add_iff_right] at hn
    have hnext : k.next = .ok := by simp [Sink.next, ha, List.replicate_succ]
    have hrest : (k.pushAll [stepByte v]).answers = List.replicate n .ok ++ [.fail f left] := by
      simp [Sink.pushAll, ha, List.replicate_succ]
    have hstep : step s = .next ((s.appendedAll id k [stepByte v]).onBlk (Block.loadV (width op) (v >>> 7))) := by
      rw [step_of_engineOnly hr ht, exec_running_encode he hr.2, encodeStep_ok hk hnext, hv,
        State.appended_eq_appendedAll, stepRest, if_neg hmore]
    obtain ⟨x, b, hx, hend, hrun⟩ := ih
      (s := (s.appendedAll id k [stepByte v]).onBlk (Block.loadV (width op) (v >>> 7)))
      (setWidth_setWidth_of_le (width_le op) _) hr ht (hk.appendedAll _) hn hrest
    refine ⟨x, b, by rw [hbytes, List.getElem?_cons_succ, hx], hend, ?_⟩
    have htake : (encBytes v).take (n + 1) = [stepByte v] ++ (encBytes (v >>> 7)).take n := by
      rw [hbytes, stepByte_of_more hmore, List.take_succ_cons, List.singleton_append]
    rw [runs_succ hstep, hrun, htake, ← State.appendedAll_appendedAll, ← Sink.pushAll_pushAll]
    rfl

/-- An encode issued to an idle block whose sink takes `n` bytes of the encoding of the operand and refuses the next,
`x`: it is accepted, appends these bytes and ends with the sink's failure (40_encode.md R87). -/
theorem runs_issued_encode_refused {op : Instr} {s : State} {id n : Nat} {k : Sink} {rest : List Turn} {f : SinkFault}
    {left : Option (List Byte × Nat)} (he : isEncode op = true)
    (ht : s.turns = .host s.cur (.issue (encode op)) :: rest) (hrest : s.popTurn.EngineOnly) (hi : s.Idle)
    (hw : s.blk.argWritten = true) (hs : sharesSink s = false) (hk : s.HasSink id k)
    (hn : n < encLen (operand (width op) s.blk.arg)) (ha : k.answers = List.replicate n .ok ++ [.fail f left]) :
    ∃ x b, (encBytes (operand (width op) s.blk.arg))[n]? = some x ∧
      { s.blk with started := true }.EndedAs 0x01#8 (.sink f) b ∧
      runs (n + 1 + 1) s =
        .next { (s.popTurn.appendedAll id k ((encBytes (operand (width op) s.blk.arg)).take n)).refusedAppend id
          (k.pushAll ((encBytes (operand (width op) s.blk.arg)).take n)) x f left with blk := b } := by
  rw [runs_succ (step_accepts_encode he ht hi hw hs)]
  exact runs_encode_refused (s := s.issued.onBlk (Block.encodeAccepted (width op) op)) he
    (setWidth_setWidth_of_le (width_le op) _) ⟨rfl, rfl⟩ hrest hk hn ha

/-- The sinks after one has taken the bytes `bs` and refused the next: what that append makes of it is `left`'s (R41). -/
theorem State.refusedAppend_sinks_of_appendedAll (s : State) (id : Nat) (k : Sink) (bs : List Byte) (x : Byte)
    (f : SinkFault) (left : Option (List Byte × Nat)) :
    ((s.appendedAll id k bs).refusedAppend id (k.pushAll bs) x f left).sinks = s.sinks.set id { k with
      bytes := (left.map Prod.fst).getD (k.bytes ++ bs)
      pos := (left.map Prod.snd).getD (k.pos + bs.length)
      answers := k.answers.drop (bs.length + 1) } := by
  simp [State.refusedAppend, State.appendedAll, Sink.pushAll]

/-- Settles O49: `runs_issued_encode_refused`, with the issue as the only turn. -/
theorem sinkFaultKeepsFirstBytes : Obligations.SinkFaultKeepsFirstBytes := by
  intro s op id n k f left he ht hi hw hs hk hn ha
  have hpop : s.popTurn.turns = [] := by rw [State.popTurn_turns, ht, List.tail_cons]
  obtain ⟨x, b, -, hb, hrun⟩ := runs_issued_encode_refused he ht (.inl hpop) hi hw hs hk hn ha
  rw [Nat.add_comm (n + 1) 1, ← Nat.add_assoc] at hrun
  refine ⟨_, hrun, ⟨hpop, hb.idle.1⟩, hb, ?_, fun j hj => gainBytes_other hj,
    fun j q hj hq => State.appendedAll_source_fed (s := s) (id := id) hj hq _⟩
  have hlen : ((encBytes (operand (width op) s.blk.arg)).take n).length = n :=
    List.length_take_of_le (hn.le.trans_eq (encBytes_length _).symm)
  have hused : k.answers.drop (n + 1) = [] := by simp [ha]
  rw [State.refusedAppend_sinks_of_appendedAll, hlen, hused]
  rfl

end Sys2Proof.Machine

/-! PROOF. The statements of spec/41_decode.md: a decode of an encoding, the combine, acceptance of a decode, its steps
and their frame, and whole decodes up to their completion. -/

namespace Sys2Proof.Machine

/-! ### The functional form on an encoding -/

theorem decodeFn_encBytes {W : Nat} (hW : 0 < nmax W) (oc : OverlongCombine W) (p : OverlongPolicy) (v : BitVec W)
    (t : List Byte) (e : DecodeEnd) : decodeFn W oc p (encBytes v ++ t) e = (.ok v, encLen v) := by
  have h := decodeLoop_encBytes oc p e t v v 0 0 (BitVec.ushiftRight_zero v) hW
  rwa [lowGroups_zero, Nat.zero_add] at h

/-- Settles O47: `decodeFn_encBytes` at the two widths. -/
theorem roundTrip : Obligations.RoundTrip :=
  ⟨decodeFn_encBytes (by decide), decodeFn_encBytes (by decide)⟩

/-! ### The combine -/

theorem combine_of_lt {W i : Nat} (oc : OverlongCombine W) (acc : BitVec W) (g : Group) (h : i < nmax W) :
    combine W oc acc g i = acc ||| g.setWidth W <<< (7 * i) := if_pos h

theorem combine_of_ge {W i : Nat} (oc : OverlongCombine W) (acc : BitVec W) (g : Group) (h : nmax W ≤ i) :
    combine W oc acc g i = oc acc g i := if_neg (by omega)

/-- An accumulator below group `i` has no bit in common with what is shifted to that group. -/
theorem and_shiftLeft_group_eq_zero {W i : Nat} {acc x : BitVec W} (h : acc.toNat < 2 ^ (7 * i)) :
    acc &&& x <<< (7 * i) = 0#W := by
  apply BitVec.eq_of_getLsbD_eq
  intro j hj
  rw [BitVec.getLsbD_and, BitVec.getLsbD_shiftLeft, BitVec.getLsbD_zero]
  by_cases hji : j < 7 * i
  · simp [hji]
  · have hpow : acc.toNat < 2 ^ j := h.trans_le (Nat.pow_le_pow_right (by decide) (by omega))
    rw [← BitVec.testBit_toNat, Nat.testBit_lt_two_pow hpow, Bool.false_and]

theorem xor_eq_or_of_and_eq_zero {W : Nat} {x y : BitVec W} (h : x &&& y = 0#W) : x ^^^ y = x ||| y := by
  apply BitVec.eq_of_getLsbD_eq
  intro j hj
  have hbit : (x.getLsbD j && y.getLsbD j) = false := by rw [← BitVec.getLsbD_and, h, BitVec.getLsbD_zero]
  rw [BitVec.getLsbD_xor, BitVec.getLsbD_or]
  cases hx : x.getLsbD j
  · rw [Bool.false_xor, Bool.false_or]
  · rw [hx, Bool.true_and] at hbit
    rw [hbit, Bool.xor_false, Bool.or_false]

/-- 41_decode.md R104 at any width: in range the group lies within the width and above the accumulator. -/
theorem combine_agrees {W : Nat} (oc : OverlongCombine W) (acc : BitVec W) (g : Group) (i : Nat) (hi : i < nmax W)
    (hacc : acc.toNat < 2 ^ (7 * i)) :
    7 * i < W ∧ combine W oc acc g i = acc ||| g.setWidth W <<< (7 * i) ∧
      combine W oc acc g i = acc ^^^ g.setWidth W <<< (7 * i) ∧
      combine W oc acc g i = acc + g.setWidth W <<< (7 * i) := by
  have hdisjoint : acc &&& g.setWidth W <<< (7 * i) = 0#W := and_shiftLeft_group_eq_zero hacc
  have hor := combine_of_lt oc acc g hi
  refine ⟨?_, hor, ?_, ?_⟩
  · unfold nmax at hi
    omega
  · rw [hor, xor_eq_or_of_and_eq_zero hdisjoint]
  · rw [hor, BitVec.add_eq_or_of_and_eq_zero _ _ hdisjoint]

/-- Settles O21: `combine_agrees` at the two widths. -/
theorem inRangeCombinesAgree : Obligations.InRangeCombinesAgree :=
  ⟨combine_agrees, combine_agrees⟩

/-! ### Acceptance -/

/-- Settles O15: an idle block accepts, and a busy one holds the issue while its own operation moves. -/
theorem decodeAcceptanceClearsAcc : Obligations.DecodeAcceptanceClearsAcc := by
  refine ⟨fun s op hd hi hs => ?_, fun s op running rest _ hr ht => ?_⟩
  · rw [exec_decode_idle hd hi, acceptDecode, hs]
    rfl
  · exact (stepRunsOperationInProgress s running hr).2.2 _ _ ht

/-! ### One step of a decode -/

theorem groupOf_of_continuation {b : Byte} (h : isTerminal b = false) : groupOf b = (b ^^^ 0xFF#8).setWidth 7 := by
  rw [groupOf, h, if_neg Bool.false_ne_true]

theorem isTerminal_eq_false_iff (b : Byte) : isTerminal b = false ↔ 0x80 ≤ b.toNat := by
  rw [← Bool.not_eq_true, isTerminal_iff, not_lt]

/-- What decode `op` makes of `ACC` and group `g` on block `b`, held zero-extended (41_decode.md R102, R103, log 4). -/
def Block.combinedField (op : Instr) (b : Block) (g : Group) : Word64 :=
  (combine (width op) (overlongOf op) (b.accAt (width op)) g b.idx).setWidth 64

theorem Block.combinedField_lt (op : Instr) (b : Block) (g : Group) : (b.combinedField op g).toNat < 2 ^ width op := by
  rw [Block.combinedField, BitVec.toNat_setWidth]
  exact (Nat.mod_le _ _).trans_lt (BitVec.isLt _)

theorem Block.combinedField_of_lt {op : Instr} {b : Block} (g : Group) (h : b.idx < nmax (width op)) :
    b.combinedField op g =
      (b.acc.setWidth (width op) ||| g.setWidth (width op) <<< (7 * b.idx)).setWidth 64 := by
  rw [Block.combinedField, combine_of_lt _ _ _ h, Block.accAt]

/-- What is held in the field reads back as the combine's value. -/
theorem Block.combinedField_setWidth (op : Instr) (b : Block) (g : Group) : (b.combinedField op g).setWidth (width op) =
    combine (width op) (overlongOf op) (b.accAt (width op)) g b.idx := setWidth_setWidth_of_le (width_le op) _

/-- Past the bound the opaque combine of each width stands in the field (41_decode.md R106). -/
theorem Block.combinedField_of_ge {op : Instr} {b : Block} (g : Group) (h : nmax (width op) ≤ b.idx) :
    (op = .dec32 →
      b.combinedField op g = (Config.overlongCombine32 (b.acc.setWidth 32) g b.idx).setWidth 64) ∧
    (op = .dec64 → b.combinedField op g = Config.overlongCombine64 b.acc g b.idx) := by
  rw [Block.combinedField, combine_of_ge _ _ _ h, Block.accAt]
  constructor
  · rintro rfl
    rfl
  · rintro rfl
    exact (BitVec.setWidth_eq _).trans (congrArg (Config.overlongCombine64 · g b.idx) (BitVec.setWidth_eq _))

section
variable {op : Instr} {s : State} {id : Nat} {q : Source} {b : Byte} {rest : List Byte}
  (he : isEncode op = false) (hr : s.Running op) (hq : s.HasSource id q) (hn : q.next = .serve) (hb : q.Has b rest)
include he hr hq hn hb

/-- A step of a decode in progress that is given a byte. -/
theorem exec_decode_byte :
    exec op s = .next (byteStep (width op) (overlongOf op) b (s.consumed id q b rest)) := by
  rw [exec_running_decode he hr.2, decodeStep_byte hq hn hb]

theorem exec_decode_terminal (ht : isTerminal b = true) :
    exec op s = .next (completeDecode (s.blk.combinedField op (groupOf b)) (s.consumed id q b rest)) := by
  rw [exec_decode_byte he hr hq hn hb, byteStep, if_pos ht]
  rfl

theorem exec_decode_malformed (ht : isTerminal b = false)
    (hbound : s.blk.policy = .reject ∧ s.blk.idx = nmax (width op) - 1) :
    exec op s = .next (complete .malformedVarint (s.consumed id q b rest)) := by
  rw [exec_decode_byte he hr hq hn hb, byteStep, ht, if_neg Bool.false_ne_true, continuationStep, State.consumed_blk,
    if_pos (atBound_iff.2 hbound)]

theorem exec_decode_combines (ht : isTerminal b = false)
    (hbound : ¬ (s.blk.policy = .reject ∧ s.blk.idx = nmax (width op) - 1)) :
    exec op s = .next { s.consumed id q b rest with
      blk := { s.blk with acc := s.blk.combinedField op (groupOf b), idx := s.blk.idx + 1 } } := by
  rw [exec_decode_byte he hr hq hn hb, byteStep, ht, if_neg Bool.false_ne_true, continuationStep, State.consumed_blk,
    if_neg (mt atBound_iff.1 hbound)]
  rfl

end

/-- Settles O16: the terminal step by the value it leaves in `RESULT`. -/
theorem terminalByteWritesResult : Obligations.TerminalByteWritesResult := by
  intro s op id q b rest he hr hq hn hb hlt
  have ht : isTerminal b = true := (isTerminal_iff b).2 hlt
  rw [← groupOf_of_terminal ht]
  exact ⟨_, exec_decode_terminal he hr hq hn hb ht, rfl, rfl, s.blk.combinedField_lt op _,
    s.blk.combinedField_of_lt _, s.blk.combinedField_of_ge _⟩

/-- Settles O17: the continuation step at the bound, and by the value it leaves in `ACC`. -/
theorem continuationByteCombines : Obligations.ContinuationByteCombines := by
  intro s op id q b rest he hr hq hn hb hge
  have ht : isTerminal b = false := (isTerminal_eq_false_iff b).2 hge
  rw [← groupOf_of_continuation ht]
  refine ⟨fun hreject hidx => ?_, fun hbound => ?_⟩
  · exact ⟨_, exec_decode_malformed he hr hq hn hb ht ⟨hreject, hidx⟩, rfl, rfl⟩
  · exact ⟨_, exec_decode_combines he hr hq hn hb ht hbound, rfl, s.blk.combinedField_lt op _,
      s.blk.combinedField_of_lt _, s.blk.combinedField_of_ge _⟩

/-! ### Completions under PASS -/

/-- An encode step that completes leaves OK or SINK_FAULT in `STATUS` (60_exceptions.md R121). -/
theorem encodeStep_status_of_idle {W : Nat} {op : Instr} {s t : State} (hp : s.blk.phase = .run op)
    (h : encodeStep W s = .next t) (hidle : t.blk.phase = .idle) : t.blk.status = 0x00#8 ∨ t.blk.status = 0x01#8 := by
  rcases encodeStep_cases W s with ⟨-, e⟩ | ⟨id, k, -, ⟨-, e⟩ | ⟨-, e⟩ | ⟨f, left, -, e⟩⟩ <;> cases e.symm.trans h
  · cases hp.symm.trans hidle
  · cases hp.symm.trans hidle
  · rcases stepRest_cases (s.blk.v.setWidth W) (s.appended id k (stepByte (s.blk.v.setWidth W))) with ⟨-, e'⟩ |
      ⟨-, e'⟩ <;> rw [e'] at hidle ⊢
    · exact .inl rfl
    · cases hp.symm.trans hidle
  · exact .inr rfl

/-- Under PASS no byte is at the bound, so a decode step completes in no other way than by OK, by end of stream or by
the source's failure (41_decode.md R106). -/
theorem decodeStep_status_of_pass {W : Nat} {oc : OverlongCombine W} {op : Instr} {s t : State}
    (hp : s.blk.phase = .run op) (hpass : s.blk.policy = .pass) (h : decodeStep W oc s = .next t)
    (hidle : t.blk.phase = .idle) : t.blk.status = 0x00#8 ∨ t.blk.status = 0x02#8 ∨ t.blk.status = 0x03#8 := by
  rcases decodeStep_cases W oc s with ⟨-, e⟩ | ⟨id, q, -, ⟨-, e⟩ | ⟨b, rest, -, -, e⟩ | ⟨-, -, e⟩ | ⟨f, left, -, e⟩⟩ <;>
    cases e.symm.trans h
  · cases hp.symm.trans hidle
  · cases hp.symm.trans hidle
  · rcases byteStep_cases W oc b (s.consumed id q b rest) with ⟨-, e'⟩ | ⟨-, hbound, -⟩ | ⟨-, -, e'⟩
    · rw [e']
      exact .inl rfl
    · cases hpass.symm.trans (atBound_iff.1 hbound).1
    · rw [e'] at hidle
      cases hp.symm.trans hidle
  · exact .inr (.inl rfl)
  · exact .inr (.inr rfl)

/-- Settles O20: no completion of an encode, and none of a decode under PASS, is MALFORMED_VARINT. -/
theorem passNeverReportsMalformed : Obligations.PassNeverReportsMalformed := by
  intro s t op hr hpass h hidle
  cases he : isEncode op with
  | true =>
    rw [exec_running_encode he hr.2] at h
    rcases encodeStep_status_of_idle hr.2 h hidle with hs | hs <;> simp [hs]
  | false =>
    rw [exec_running_decode he hr.2] at h
    rcases decodeStep_status_of_pass hr.2 hpass h hidle with hs | hs | hs <;> simp [hs]

/-! ### The frame of a decode -/

/-- A decode step that does not complete is held or writes `ACC` and `IDX` (41_decode.md R103). -/
theorem decodeStep_blk_of_run {W : Nat} {oc : OverlongCombine W} {op : Instr} {s t : State}
    (h : decodeStep W oc s = .next t) (hp : t.blk.phase = .run op) :
    t.blk = s.blk ∨ ∃ x : BitVec W, t.blk = s.blk.combined W x := by
  rcases decodeStep_cases W oc s with ⟨-, e⟩ | ⟨id, q, -, ⟨-, e⟩ | ⟨b, rest, -, -, e⟩ | ⟨-, -, e⟩ | ⟨f, left, -, e⟩⟩ <;>
    cases e.symm.trans h
  · exact .inl rfl
  · exact .inl rfl
  · rcases byteStep_cases W oc b (s.consumed id q b rest) with ⟨-, e'⟩ | ⟨-, -, e'⟩ | ⟨-, -, e'⟩ <;> rw [e'] at hp ⊢
    · cases hp
    · cases hp
    · exact .inr ⟨_, rfl⟩
  · cases hp
  · cases hp

/-- What a decode leaves of the registers it does not name, as long as it goes on (41_decode.md R108, R109). -/
theorem exec_decode_keeps_of_run {op : Instr} {s t : State} (he : isEncode op = false) (h : exec op s = .next t)
    (hp : t.blk.phase = .run op) : t.blk.v = s.blk.v ∧ t.blk.result = s.blk.result ∧
      t.blk.resultWritten = s.blk.resultWritten ∧ t.blk.status = s.blk.status ∧ t.blk.faultInfo = s.blk.faultInfo := by
  rcases exec_decode_cases (s := s) he with ⟨-, e⟩ | ⟨-, -, e⟩ | ⟨-, -, e⟩ | ⟨-, e⟩ <;> rw [e] at h
  · rcases decodeStep_blk_of_run h hp with hb | ⟨x, hb⟩ <;> rw [hb] <;> exact ⟨rfl, rfl, rfl, rfl, rfl⟩
  · cases h; exact ⟨rfl, rfl, rfl, rfl, rfl⟩
  · cases h; exact ⟨rfl, rfl, rfl, rfl, rfl⟩
  · cases h

/-- A decode changes no sink and no source but the attached one. -/
theorem exec_decode_frame {op : Instr} {s t : State} (he : isEncode op = false) (h : exec op s = .next t) :
    t.sinks = s.sinks ∧ ∀ j, s.blk.source ≠ some j → t.sources[j]? = s.sources[j]? := by
  rcases exec_decode_cases (s := s) he with ⟨-, e⟩ | ⟨-, -, e⟩ | ⟨-, -, e⟩ | ⟨-, e⟩ <;> rw [e] at h
  · exact ⟨decodeStep_sinks h, decodeStep_frame h⟩
  · cases h; exact ⟨rfl, fun _ _ => rfl⟩
  · cases h; exact ⟨rfl, fun _ _ => rfl⟩
  · cases h

/-- Settles O23: the frame every transition has, and what a decode leaves of its registers and the streams. -/
theorem decodeFrame : Obligations.DecodeFrame := by
  intro s t op he h
  obtain ⟨hcur, hothers, hturns, hgot, hkeeps⟩ := exec_keeps h
  obtain ⟨hsinks, hsources⟩ := exec_decode_frame he h
  exact ⟨⟨hcur, hothers, hturns, hgot⟩, ⟨hkeeps.arg, hkeeps.argWritten, hkeeps.sink, hkeeps.source, hkeeps.policy,
    hkeeps.started⟩, exec_decode_keeps_of_run he h, hsinks, hsources⟩

/-! ### Decodes that terminate -/

/-- A source that answers every read, in any way. -/
def Source.Answers (q : Source) : Prop := (∀ a ∈ q.answers, a ≠ .wait) ∧ q.thereafter ≠ .wait

theorem Source.Answers.next_ne_wait {q : Source} (h : q.Answers) : q.next ≠ .wait := by
  unfold Source.next
  cases ha : q.answers with
  | nil => exact h.2
  | cons a l => exact h.1 a (by simp [ha])

theorem Source.Answers.tail {q : Source} (h : q.Answers) (rest : List Byte) (pos : Nat) :
    Source.Answers { q with rest := rest, pos := pos, answers := q.answers.tail } :=
  ⟨fun a ha => h.1 a (List.mem_of_mem_tail ha), h.2⟩

theorem State.HasSource.consumed {s : State} {id : Nat} {q : Source} (h : s.HasSource id q) (b : Byte)
    (rest : List Byte) :
    (s.consumed id q b rest).HasSource id { q with rest := rest, pos := q.pos + 1, answers := q.answers.tail } := by
  have hlt : id < s.sources.length := (List.getElem?_eq_some_iff.1 h.2).1
  exact ⟨h.1, by simp [State.consumed, hlt]⟩

/-- A decode in progress whose source answers the read completes, or takes a byte and goes on (41_decode.md R101). -/
theorem exec_decode_answered {op : Instr} {s : State} {id : Nat} {q : Source} (he : isEncode op = false)
    (hr : s.Running op) (hq : s.HasSource id q) (hn : q.next ≠ .wait) :
    ∃ t, exec op s = .next t ∧ (t.blk.phase = .idle ∨ (atBound (width op) s.blk = false ∧
      ∃ b rest x, t = (s.consumed id q b rest).onBlk (Block.combined (width op) x))) := by
  cases hnext : q.next with
  | wait => exact absurd hnext hn
  | fail f left => exact ⟨_, (exec_running_decode he hr.2).trans (decodeStep_fail hq hnext), .inl rfl⟩
  | serve =>
    rcases q.has_or_empty with ⟨b, rest, hb⟩ | hempty
    · refine ⟨_, exec_decode_byte he hr hq hnext hb, ?_⟩
      rcases byteStep_cases (width op) (overlongOf op) b (s.consumed id q b rest) with ⟨-, e⟩ | ⟨-, -, e⟩ |
        ⟨-, hbound, e⟩ <;> rw [e]
      · exact .inl rfl
      · exact .inl rfl
      · exact .inr ⟨hbound, b, rest, _, rfl⟩
    · exact ⟨_, (exec_running_decode he hr.2).trans (decodeStep_eos hq hnext hempty), .inl rfl⟩

/-- 41_decode.md R111: every step that does not complete brings `IDX` nearer to the bound. -/
theorem runs_decode_terminates {op : Instr} {s : State} {id : Nat} {q : Source} (fuel : Nat)
    (he : isEncode op = false) (hr : s.Running op) (ht : s.turns = []) (hp : s.blk.policy = .reject)
    (hidx : s.blk.idx ≤ nmax (width op) - 1) (hfuel : nmax (width op) - s.blk.idx = fuel) (hq : s.HasSource id q)
    (ha : q.Answers) : ∃ n t, n ≤ fuel ∧ runs n s = .next t ∧ t.blk.phase = .idle := by
  have hmax : 0 < nmax (width op) := by cases op <;> decide
  induction fuel generalizing s q with
  | zero => omega
  | succ fuel ih =>
    obtain ⟨t, hx, hcase⟩ := exec_decode_answered he hr hq ha.next_ne_wait
    have hstep : step s = .next t := (step_of_engineOnly hr (.inl ht)).trans hx
    rcases hcase with hidle | ⟨hbound, b, rest, x, rfl⟩
    · exact ⟨1, t, by omega, runs_succ hstep, hidle⟩
    · have hidx' := idx_lt_of_not_atBound hbound hp hidx
      obtain ⟨n, u, hn, hrun, hidle⟩ := ih (s := (s.consumed id q b rest).onBlk (Block.combined (width op) x)) hr ht hp
        hidx' (show nmax (width op) - (s.blk.idx + 1) = fuel by omega) (hq.consumed b rest) (ha.tail _ _)
      exact ⟨n + 1, u, by omega, (runs_succ hstep).trans hrun, hidle⟩

/-- Settles O52: `runs_decode_terminates` from the distance of `IDX` to the bound. -/
theorem rejectDecodesTerminate : Obligations.RejectDecodesTerminate :=
  fun _ _ _ _ he hr ht hp hidx hq hanswers hafter =>
    runs_decode_terminates _ he hr ht hp hidx rfl hq ⟨hanswers, hafter⟩

/-! ### Whole decodes -/

/-- An outcome of the functional form with one byte more consumed. -/
def oneByteMore {W : Nat} (out : Decoded W × Nat) : Decoded W × Nat := (out.1, out.2 + 1)

/-- The loop of 41_decode.md R107 counts the bytes from where it begins. -/
theorem decodeLoop_count_succ {W : Nat} (oc : OverlongCombine W) (p : OverlongPolicy) (e : DecodeEnd) (bs : List Byte)
    (acc : BitVec W) (i c : Nat) :
    decodeLoop W oc p e bs acc i (c + 1) = oneByteMore (decodeLoop W oc p e bs acc i c) := by
  induction bs generalizing acc i c with
  | nil => cases e <;> rfl
  | cons b bs ih =>
    simp only [decodeLoop]
    split_ifs
    · rfl
    · rfl
    · exact ih _ _ _

theorem Source.Plays.next_of_cons {q : Source} {b : Byte} {bs : List Byte} {e : DecodeEnd} (h : q.Plays (b :: bs) e) :
    q.next = .serve := by
  obtain ⟨-, -, hans⟩ := h
  cases e with
  | eos => simp [Source.next, hans.1, hans.2]
  | fail f =>
    obtain ⟨left, ha⟩ := hans
    simp [Source.next, ha, List.replicate_succ]

theorem Source.Plays.readOff_one {q : Source} {b : Byte} {bs : List Byte} {e : DecodeEnd} (h : q.Plays (b :: bs) e) :
    (q.readOff 1).Plays bs e := by
  obtain ⟨hrest, hbeyond, hans⟩ := h
  refine ⟨by simp [Source.readOff, hrest], hbeyond, ?_⟩
  cases e with
  | eos => exact ⟨by simp [Source.readOff, hans.1], hans.2⟩
  | fail f =>
    obtain ⟨left, ha⟩ := hans
    exact ⟨left, by simp [Source.readOff, ha, List.replicate_succ]⟩

/-- How a decode ends is the same seen from before the byte it has just combined, with that byte counted. -/
theorem DecodeEnds.before_byte {W n i : Nat} {s t : State} {id : Nat} {q : Source} {b : Byte} {bs : List Byte}
    {x : Word64} {out : Decoded W × Nat} (hrest : q.rest = b :: bs)
    (h : DecodeEnds { s.consumedAll id q 1 with blk := { s.blk with acc := x, idx := i } } id (q.readOff 1) bs n t
      out) :
    DecodeEnds s id q (b :: bs) (n + 1) t (oneByteMore out) := by
  obtain ⟨o, c⟩ := out
  have hhistory : (s.consumedAll id q 1).history ++ (bs.take c).map (fun b => ⟨s.cur, .read b⟩) =
      s.history ++ ((b :: bs).take (c + 1)).map fun b => ⟨s.cur, .read b⟩ := by simp [State.consumedAll, hrest]
  have hsources : (s.consumedAll id q 1).sources.set id ((q.readOff 1).readOff c) =
      s.sources.set id (q.readOff (c + 1)) := by simp [State.consumedAll, Source.readOff_readOff, Nat.add_comm 1]
  cases o with
  | ok v =>
    obtain ⟨hn, hend, hh, hs⟩ := h
    exact ⟨by omega, hend, hh.trans hhistory, hs.trans hsources⟩
  | malformedVarint =>
    obtain ⟨hn, hend, hh, hs⟩ := h
    exact ⟨by omega, hend, hh.trans hhistory, hs.trans hsources⟩
  | sourceExhausted =>
    obtain ⟨hn, hend, hh, hs⟩ := h
    exact ⟨by omega, hend, hh.trans (congrArg (· ++ [_]) hhistory), hs.trans hsources⟩
  | sourceFault f =>
    obtain ⟨hn, hend, hh, hs⟩ := h
    refine ⟨by omega, hend, hh.trans (congrArg (· ++ [_]) hhistory), fun left ha => ?_⟩
    rw [hs left (by simp [Source.readOff, ha, List.replicate_succ])]
    simp [State.consumedAll, Source.readOff, Nat.add_assoc, Nat.add_comm 1]

/-- How a decode ends does not depend on what its acceptance writes. -/
theorem DecodeEnds.of_accepted {W n : Nat} {op : Instr} {s t : State} {id : Nat} {q : Source} {bs : List Byte}
    {out : Decoded W × Nat} (h : DecodeEnds (s.issued.onBlk (Block.decodeAccepted op)) id q bs n t out) :
    DecodeEnds s id q bs n t out := by
  obtain ⟨o, c⟩ := out
  cases o <;> exact h

theorem Block.EndedAs.of_started {b b' : Block} {code : BitVec 8} {info : FaultInfo} (hs : b.started = true)
    (h : b.EndedAs code info b') : { b with started := true }.EndedAs code info b' := by
  rwa [← hs]

/-- A decode in progress meets the end of its source: end of stream or the source's failure (41_decode.md R107). -/
theorem runs_decode_at_end {op : Instr} {s : State} {id : Nat} {q : Source} {e : DecodeEnd} (he : isEncode op = false)
    (hr : s.Running op) (hs : s.blk.started = true) (ht : s.turns = []) (hq : s.HasSource id q)
    (hplays : q.Plays [] e) : ∃ t, step s = .next t ∧ t.finished ∧ t.sinks = s.sinks ∧
      ∀ acc i, DecodeEnds s id q [] 2 t (decodeLoop (width op) (overlongOf op) s.blk.policy e [] acc i 0) := by
  obtain ⟨hrest, hbeyond, hans⟩ := hplays
  rw [step_of_engineOnly hr (.inl ht), exec_running_decode he hr.2]
  cases e with
  | eos =>
    have hnext : q.next = .serve := by simp [Source.next, hans.1, hans.2]
    exact ⟨_, decodeStep_eos hq hnext ⟨hrest, hbeyond⟩, ⟨ht, rfl⟩, rfl, fun _ _ => ⟨rfl,
      (s.blk.completed_endedAs .sourceExhausted s.cur).of_started hs, by simp [State.sawEos],
      by simp [State.sawEos, Source.readOff, hans.1]⟩⟩
  | fail f =>
    obtain ⟨left, ha⟩ := hans
    have hnext : q.next = .fail f left := by simp [Source.next, ha]
    refine ⟨_, decodeStep_fail hq hnext, ⟨ht, rfl⟩, rfl, fun _ _ => ⟨rfl,
      (s.blk.completed_endedAs (.sourceFault f) s.cur).of_started hs, by simp [State.refusedRead], fun left' ha' => ?_⟩⟩
    obtain rfl : left = left' := by simpa [ha] using ha'
    simp [State.refusedRead, ha]

/-- 41_decode.md R107 on the machine: a decode in progress ends as the loop of the functional form says of the answers
its source gives. -/
theorem runs_decode {op : Instr} {s : State} {id : Nat} {q : Source} {bs : List Byte} {e : DecodeEnd}
    (he : isEncode op = false) (hr : s.Running op) (hs : s.blk.started = true) (ht : s.turns = [])
    (hq : s.HasSource id q) (hplays : q.Plays bs e) :
    ∃ n t, runs n s = .next t ∧ t.finished ∧ t.sinks = s.sinks ∧ DecodeEnds s id q bs (1 + n) t
      (decodeLoop (width op) (overlongOf op) s.blk.policy e bs (s.blk.accAt (width op)) s.blk.idx 0) := by
  induction bs generalizing s q with
  | nil =>
    obtain ⟨t, hstep, hfin, hsinks, hends⟩ := runs_decode_at_end he hr hs ht hq hplays
    exact ⟨1, t, runs_succ hstep, hfin, hsinks, hends _ _⟩
  | cons b bs ih =>
    have hrest : q.rest = b :: bs := hplays.1
    have hnext : q.next = .serve := hplays.next_of_cons
    have hread : (s.consumedAll id q 1).history = s.history ++ [⟨s.cur, .read b⟩] := by
      simp [State.consumedAll, hrest]
    have hconsumed := s.consumed_eq_consumedAll id hrest
    have hstep := step_of_engineOnly hr (.inl ht)
    rw [decodeLoop]
    split_ifs with hterm hbound
    · rw [exec_decode_terminal he hr hq hnext (.inl hrest) hterm, hconsumed] at hstep
      exact ⟨1, _, runs_succ hstep, ⟨ht, rfl⟩, rfl, rfl,
        Block.EndedAs.of_started (b := { s.blk with result := _, resultWritten := true }) hs rfl, hread, rfl⟩
    · rw [exec_decode_malformed he hr hq hnext (.inl hrest) (by simpa using hterm) hbound, hconsumed] at hstep
      exact ⟨1, _, runs_succ hstep, ⟨ht, rfl⟩, rfl, rfl,
        (s.blk.completed_endedAs .malformedVarint s.cur).of_started hs, hread, rfl⟩
    · rw [exec_decode_combines he hr hq hnext (.inl hrest) (by simpa using hterm) hbound, hconsumed] at hstep
      obtain ⟨n, t, hrun, hfin, hsinks, hends⟩ := ih (s := { s.consumedAll id q 1 with
        blk := { s.blk with acc := s.blk.combinedField op (groupOf b), idx := s.blk.idx + 1 } }) hr hs ht
        (hq.consumedAll 1) hplays.readOff_one
      refine ⟨n + 1, t, (runs_succ hstep).trans hrun, hfin, hsinks, ?_⟩
      rw [decodeLoop_count_succ, ← s.blk.combinedField_setWidth]
      exact hends.before_byte hrest

/-- A decode issued to an idle block ends as the functional form says of the answers its source gives (41_decode.md R107
to R109). -/
theorem runs_issued_decode_follows {op : Instr} {s : State} {id : Nat} {q : Source} {bs : List Byte} {e : DecodeEnd}
    (he : isEncode op = false) (ht : s.turns = [.host s.cur (.issue (encode op))]) (hi : s.Idle)
    (hshare : sharesSource s = false) (hq : s.HasSource id q) (hplays : q.Plays bs e) :
    ∃ n t, runs n s = .next t ∧ t.finished ∧ t.sinks = s.sinks ∧
      DecodeEnds s id q bs n t (decodeFn (width op) (overlongOf op) s.blk.policy bs e) := by
  have hpop : s.popTurn.turns = [] := by rw [State.popTurn_turns, ht, List.tail_cons]
  have hacc : (s.issued.blk.decodeAccepted op).accAt (width op) = 0 := BitVec.setWidth_zero (width op) 64
  obtain ⟨n, t, hrun, hfin, hsinks, hends⟩ := runs_decode (s := s.issued.onBlk (Block.decodeAccepted op)) he ⟨rfl, rfl⟩
    rfl hpop hq hplays
  rw [Nat.add_comm, State.onBlk_blk, hacc] at hends
  exact ⟨n + 1, t, (runs_succ (step_accepts_decode he ht hi hshare)).trans hrun, hfin, hsinks, hends.of_accepted⟩

/-- Settles O50: `runs_issued_decode_follows` for the two decodes. -/
theorem decodeFollowsFunctionalForm : Obligations.DecodeFollowsFunctionalForm :=
  ⟨fun _ _ _ _ _ => runs_issued_decode_follows (op := .dec32) rfl,
    fun _ _ _ _ _ => runs_issued_decode_follows (op := .dec64) rfl⟩

/-! ### Overlong input under REJECT -/

/-- When the bytes up to the bound are all continuation bytes, the last of them is malformed (41_decode.md R105). -/
theorem decodeLoop_overlong {W i c : Nat} (oc : OverlongCombine W) (e : DecodeEnd) {bs : List Byte} (rest : List Byte)
    (acc : BitVec W) (hi : i < nmax W) (hlen : i + bs.length = nmax W) (hbs : ∀ b ∈ bs, isTerminal b = false) :
    decodeLoop W oc .reject e (bs ++ rest) acc i c = (.malformedVarint, c + bs.length) := by
  induction bs generalizing acc i c with
  | nil =>
    rw [List.length_nil] at hlen
    omega
  | cons b bs ih =>
    rw [List.length_cons] at hlen ⊢
    rw [List.cons_append, decodeLoop, hbs b List.mem_cons_self, if_neg Bool.false_ne_true]
    split_ifs with hbound
    · rw [show bs.length = 0 by omega]
    · have hlt : i + 1 < nmax W := by
        have : i ≠ nmax W - 1 := fun h => hbound ⟨rfl, h⟩
        omega
      rw [ih _ hlt (by omega) fun b hb => hbs b (List.mem_cons_of_mem _ hb), Nat.add_assoc, Nat.add_comm 1]

/-- Settles O51: the functional form is malformed at the bound, and the decode follows it. -/
theorem overlongInputIsRejectedAtTheBound : Obligations.OverlongInputIsRejectedAtTheBound := by
  intro s op id q bs rest he ht hi hreject hshare hq hserves hrest hlen hbs
  have hmax : 0 < nmax (width op) := by cases op <;> decide
  have hplays : q.Plays (bs ++ rest) .eos := ⟨hrest, hserves.2.2, hserves.1, hserves.2.1⟩
  obtain ⟨n, t, hrun, hfin, -, hends⟩ := runs_issued_decode_follows he ht hi hshare hq hplays
  rw [hreject, decodeFn, decodeLoop_overlong _ _ _ _ hmax (by rw [hlen, Nat.zero_add]) hbs, hlen, Nat.zero_add] at hends
  obtain ⟨rfl, hend, -, hsources⟩ := hends
  refine ⟨t, hrun, hfin, hend, hsources.trans ?_⟩
  rw [Source.readOff, hrest, ← hlen, List.drop_left, hserves.1, List.drop_nil]

end Sys2Proof.Machine

/-! PROOF. The statements of spec/60_exceptions.md: how a step of an operation goes on or completes, the completions of a
decode by its source, the issue of an illegal word, and turns of several blocks. -/

namespace Sys2Proof.Machine

/-! ### Operations in progress -/

/-- Settles O24: every way a step of either family can go has a next state. -/
theorem operationInProgressNeverStops : Obligations.OperationInProgressNeverStops :=
  fun _ _ => exec_running_total

/-- Block `b'` has `PHASE`, `BUSY` and every outcome register as `b` has them (10_state.md R26). -/
structure Block.GoesOn (b b' : Block) : Prop where
  phase : b'.phase = b.phase
  busy : b'.busy = b.busy
  status : b'.status = b.status
  faultInfo : b'.faultInfo = b.faultInfo
  result : b'.result = b.result
  resultWritten : b'.resultWritten = b.resultWritten

theorem Block.GoesOn.refl (b : Block) : b.GoesOn b := ⟨rfl, rfl, rfl, rfl, rfl, rfl⟩

theorem Block.loadV_goesOn {W : Nat} (b : Block) (x : BitVec W) : b.GoesOn (b.loadV W x) :=
  ⟨rfl, rfl, rfl, rfl, rfl, rfl⟩

theorem Block.combined_goesOn {W : Nat} (b : Block) (x : BitVec W) : b.GoesOn (b.combined W x) :=
  ⟨rfl, rfl, rfl, rfl, rfl, rfl⟩

/-- An encode step goes on, or completes with OK or the sink's failure (60_exceptions.md R121, R122). -/
theorem encodeStep_goesOn_or_completes {W : Nat} {s t : State} (h : encodeStep W s = .next t) :
    s.blk.GoesOn t.blk ∨
      ∃ c, (c = .ok ∨ ∃ f, c = .sinkFault f) ∧ t.blk = s.blk.completed c s.cur := by
  rcases encodeStep_cases W s with ⟨-, e⟩ | ⟨id, k, -, ⟨-, e⟩ | ⟨-, e⟩ | ⟨f, left, -, e⟩⟩ <;> cases e.symm.trans h
  · exact .inl (.refl _)
  · exact .inl (.refl _)
  · rcases stepRest_cases (s.blk.v.setWidth W) (s.appended id k (stepByte (s.blk.v.setWidth W))) with ⟨-, e'⟩ |
      ⟨-, e'⟩ <;> rw [e']
    · exact .inr ⟨.ok, .inl rfl, rfl⟩
    · exact .inl (s.blk.loadV_goesOn _)
  · exact .inr ⟨.sinkFault f, .inr ⟨f, rfl⟩, rfl⟩

/-- A decode step goes on, fails by its source or by its bytes, or completes OK with `RESULT` written
(60_exceptions.md R121, R123 to R125). -/
theorem decodeStep_goesOn_or_completes {W : Nat} {oc : OverlongCombine W} {s t : State}
    (h : decodeStep W oc s = .next t) :
    s.blk.GoesOn t.blk ∨
      (∃ c, (c = .sourceExhausted ∨ (∃ f, c = .sourceFault f) ∨ c = .malformedVarint) ∧
        t.blk = s.blk.completed c s.cur) ∨
      ∃ r, t.blk = { s.blk.completed .ok s.cur with result := r, resultWritten := true } := by
  rcases decodeStep_cases W oc s with ⟨-, e⟩ | ⟨id, q, -, ⟨-, e⟩ | ⟨b, rest, -, -, e⟩ | ⟨-, -, e⟩ | ⟨f, left, -, e⟩⟩ <;>
    cases e.symm.trans h
  · exact .inl (.refl _)
  · exact .inl (.refl _)
  · rcases byteStep_cases W oc b (s.consumed id q b rest) with ⟨-, e'⟩ | ⟨-, -, e'⟩ | ⟨-, -, e'⟩ <;> rw [e']
    · exact .inr (.inr ⟨_, rfl⟩)
    · exact .inr (.inl ⟨.malformedVarint, .inr (.inr rfl), rfl⟩)
    · exact .inl (s.blk.combined_goesOn _)
  · exact .inr (.inl ⟨.sourceExhausted, .inl rfl, rfl⟩)
  · exact .inr (.inl ⟨.sourceFault f, .inr (.inl ⟨f, rfl⟩), rfl⟩)

theorem Block.GoesOn.of_running {op : Instr} {s t : State} (h : s.blk.GoesOn t.blk) (hr : s.Running op) :
    t.blk.phase = .run op ∧ t.blk.busy = true ∧ t.blk.status = s.blk.status ∧ t.blk.faultInfo = s.blk.faultInfo ∧
      t.blk.result = s.blk.result ∧ t.blk.resultWritten = s.blk.resultWritten :=
  ⟨h.phase.trans hr.2, h.busy.trans hr.1, h.status, h.faultInfo, h.result, h.resultWritten⟩

/-- Settles O25: the step of each family by whether it goes on, with the code of each completion. -/
theorem stepGoesOnOrCompletes : Obligations.StepGoesOnOrCompletes := by
  intro s t op hr h
  cases he : isEncode op with
  | true =>
    rw [exec_running_encode he hr.2] at h
    rcases encodeStep_goesOn_or_completes h with hgo | ⟨c, hc, hb⟩
    · exact .inl (hgo.of_running hr)
    · refine .inr (.inl ⟨statusCode c, completionInfo c, hb ▸ s.blk.completed_endedAs c s.cur, fun _ => ?_, nofun⟩)
      rcases hc with rfl | ⟨f, rfl⟩
      · exact .inl rfl
      · exact .inr rfl
  | false =>
    rw [exec_running_decode he hr.2] at h
    rcases decodeStep_goesOn_or_completes h with hgo | ⟨c, hc, hb⟩ | ⟨r, hb⟩
    · exact .inl (hgo.of_running hr)
    · refine .inr (.inl ⟨statusCode c, completionInfo c, hb ▸ s.blk.completed_endedAs c s.cur, nofun, fun _ => ?_⟩)
      rcases hc with rfl | ⟨f, rfl⟩ | rfl
      · exact .inl rfl
      · exact .inr (.inl rfl)
      · exact .inr (.inr rfl)
    · refine .inr (.inr ⟨rfl, ?_⟩)
      rw [hb]
      rfl

/-! ### Completions by the source -/

/-- Settles O18: the step lemma of a decode whose source has no byte. -/
theorem endOfStreamIsExhausted : Obligations.EndOfStreamIsExhausted :=
  fun s _ id q he hr hq hn hrest hbeyond =>
    ⟨complete .sourceExhausted (s.sawEos id q),
      by rw [exec_running_decode he hr.2, decodeStep_eos hq hn ⟨hrest, hbeyond⟩],
      s.blk.completed_endedAs .sourceExhausted s.cur, rfl⟩

/-- Settles O19: the step lemma of a decode whose source fails. -/
theorem sourceFailureIsPassedOn : Obligations.SourceFailureIsPassedOn :=
  fun s _ id q f left he hr hq hn =>
    ⟨complete (.sourceFault f) (s.refusedRead id q f left),
      by rw [exec_running_decode he hr.2, decodeStep_fail hq hn],
      s.blk.completed_endedAs (.sourceFault f) s.cur, rfl⟩

/-! ### Illegal words -/

/-- The issue of an illegal word to a block that is not busy (60_exceptions.md R126). -/
theorem step_of_illegal_issue {s : State} {c : Byte} {rest : List Turn} (ht : s.turns = .host s.cur (.issue c) :: rest)
    (hc : fieldRsvd c ≠ 0#6) (hb : s.blk.busy = false) : step s = .next (illegalCommand s.issued) := by
  simp only [step, takeTurn, ht, focus_self, hb, Bool.and_false, Bool.false_eq_true, if_false, hostAct, issue,
    decode_eq_error_iff.2 hc]
  rfl

/-- Settles O6: an idle block completes the word at its issue, and a busy one holds it. -/
theorem illegalWordCompletesAtOnce : Obligations.IllegalWordCompletesAtOnce := by
  refine ⟨fieldRsvd_ne_zero_iff, fun s c rest ht hc => ⟨fun hi => ?_, fun op hr => ?_⟩⟩
  · have hpop : s.popTurn = { s with turns := rest } := by rw [State.popTurn, ht, List.tail_cons]
    rw [step_of_illegal_issue ht hc hi.1, State.issued, hpop]
    rfl
  · exact (stepRunsOperationInProgress s op hr).2.2 c rest ht

/-! ### The block a turn names -/

/-- The next turn is one of block `k`, its engine's or the host's on it, and `rest` are the turns after it. -/
def State.NextTurn (s : State) (k : Nat) (rest : List Turn) : Prop :=
  s.turns = .engine k :: rest ∨ ∃ a, s.turns = .host k a :: rest

/-- A turn brings its block into focus, so it makes no difference whether that has been done before. -/
theorem step_eq_of_focus {s m : State} {k : Nat} {rest : List Turn} (h : s.NextTurn k rest)
    (hf : focus k s = some m) : step s = step m := by
  obtain ⟨rfl, -, -, hturns, -, -, -⟩ := focus_spec hf
  rcases h with ht | ⟨a, ht⟩ <;> simp only [step, takeTurn, hturns, ht, hf, focus_self]

/-- A turn of a block that cannot be brought into focus is refused (log 9). -/
theorem step_refused_of_focus {s : State} {k : Nat} {rest : List Turn} (h : s.NextTurn k rest)
    (hf : focus k s = none) : step s = .refused .noSuchBlock := by
  rcases h with ht | ⟨a, ht⟩ <;> simp only [step, takeTurn, ht, hf]

/-- A block the system does not have cannot be brought into focus. -/
theorem focus_eq_none {k : Nat} {s : State} (h : s.blockAt k = none) : focus k s = none := by
  cases hf : focus k s with
  | none => rfl
  | some m =>
    obtain ⟨rfl, -, -, -, -, -, hperm⟩ := focus_spec hf
    have hmem : (m.cur, m.blk) ∈ s.table := hperm.mem_iff.1 List.mem_cons_self
    have hne := List.lookup_eq_none_iff.1 h _ hmem
    simp at hne

/-- The block brought into focus is the one the system has under that number. -/
theorem focus_blk {k : Nat} {s m : State} {b : Block} (hf : focus k s = some m) (hn : (s.table.map Prod.fst).Nodup)
    (hb : s.blockAt k = some b) : m.blk = b := by
  have hself := blockAt_cur m
  rw [(focus_spec hf).1, focus_blockAt hf hn, hb] at hself
  exact (Option.some.inj hself).symm

/-- Settles O57: the machine meant is the one that the turn itself brings the block into focus in. -/
theorem turnActsOnItsOwnBlock : Obligations.TurnActsOnItsOwnBlock := by
  intro s k rest hturn
  refine ⟨fun b hi hb => ?_, fun hnone => step_refused_of_focus hturn (focus_eq_none hnone)⟩
  obtain ⟨m, hf⟩ := focus_isSome hb
  obtain ⟨hcur, hsinks, hsources, hturns, hhistory, hgot, hperm⟩ := focus_spec hf
  have hat := focus_blockAt hf hi.numbers
  exact ⟨m, hcur, focus_blk hf hi.numbers hb, hat, hsinks, hsources, hturns, hhistory, hgot,
    hi.of_perm hperm hsinks hsources, step_eq_of_focus hturn hf⟩

/-! ### What a move leaves alone -/

/-- From `s` to `t` the block in focus has moved alone: the others are as they were, and so is every stream but its
attached two and the source that its sink is connected to (20_memory.md R51, R56). -/
structure State.MovesAlone (s t : State) : Prop where
  cur : t.cur = s.cur
  others : t.others = s.others
  sinks : ∀ i, s.blk.sink ≠ some i → t.sinks[i]? = s.sinks[i]?
  sources : ∀ i, s.blk.source ≠ some i → s.blk.sink.bind (fedBy s.sinks) ≠ some i → t.sources[i]? = s.sources[i]?

/-- A move that leaves the streams as they were. -/
theorem State.MovesAlone.of_same_streams {s t : State} (hc : t.cur = s.cur) (ho : t.others = s.others)
    (hk : t.sinks = s.sinks) (hq : t.sources = s.sources) : s.MovesAlone t :=
  ⟨hc, ho, fun _ _ => by rw [hk], fun _ _ _ => by rw [hq]⟩

theorem exec_movesAlone {op : Instr} {s t : State} (hx : exec op s = .next t) : s.MovesAlone t := by
  obtain ⟨hc, ho, -, -, -⟩ := exec_keeps hx
  cases he : isEncode op with
  | true =>
    obtain ⟨hsinks, hsources⟩ := exec_encode_frame he hx
    exact ⟨hc, ho, hsinks, fun i _ hfed => hsources i hfed⟩
  | false =>
    obtain ⟨hsinks, hsources⟩ := exec_decode_frame he hx
    exact ⟨hc, ho, fun _ _ => by rw [hsinks], fun i hi _ => hsources i hi⟩

theorem engineStep_movesAlone {s t : State} (hx : engineStep s = .next t) : s.MovesAlone t := by
  obtain ⟨-, -, -, -, ⟨-, rfl⟩ | ⟨op, -, hx⟩⟩ := engineStep_keeps hx
  · exact .of_same_streams rfl rfl rfl rfl
  · exact exec_movesAlone hx

/-- No host action but an accepted issue touches a stream (70_reset_and_hazards.md R153). -/
theorem hostAct_movesAlone {a : HostAction} {s t : State} (hx : hostAct a s = .next t) : s.MovesAlone t := by
  obtain ⟨hc, ho, -, ⟨x, -, -, hk, hq⟩ | ⟨c, op, -, -, hx⟩ | ⟨c, -, -, hk, hq⟩ | ⟨r, -, -, hk, hq⟩ |
    ⟨id, -, -, -, -, hk, hq⟩ | ⟨id, -, -, -, -, hk, hq⟩ | ⟨-, -, -, hk, hq⟩ | ⟨-, -, -, hk, hq⟩ | ⟨p, -, -, -, hk, hq⟩ |
    ⟨-, -, hk, hq⟩⟩ := hostAct_cases hx
  on_goal 2 =>
    obtain ⟨-, -, hsinks, hsources⟩ := exec_movesAlone hx
    exact ⟨hc, ho, hsinks, hsources⟩
  all_goals exact .of_same_streams hc ho hk hq

/-- A turn of the block in focus is a move of that block alone. -/
theorem step_movesAlone {s t : State} {rest : List Turn} (h : s.NextTurn s.cur rest) (hx : step s = .next t) :
    s.MovesAlone t := by
  rcases h with ht | ⟨a, ht⟩ <;> simp only [step, takeTurn, ht, focus_self] at hx
  · exact { engineStep_movesAlone hx with }
  · split at hx
    · exact engineStep_movesAlone hx
    · exact { hostAct_movesAlone hx with }

/-- Settles O39: with block `j` brought into focus, its turn is a move of that block alone. -/
theorem otherBlocksAreUntouched : Obligations.OtherBlocksAreUntouched := by
  intro s t j k b rest hi hturn hx hk
  obtain ⟨hact, hmissing⟩ := turnActsOnItsOwnBlock s j rest hturn
  cases hj : s.blockAt j with
  | none => cases (hmissing hj).symm.trans hx
  | some c =>
    obtain ⟨m, rfl, rfl, hat, hsinks, hsources, hturns, -, -, -, hstep⟩ := hact c hi hj
    have hnext : m.NextTurn m.cur rest := by rwa [State.NextTurn, hturns]
    have hmove := step_movesAlone hnext (hstep.symm.trans hx)
    refine ⟨(blockAt_congr hmove.cur hmove.others hk).trans (hat k), ?_⟩
    rintro ⟨⟩
    refine ⟨fun i hne => (hmove.sinks i hne).trans (by rw [hsinks]), fun i hne hfed => ?_⟩
    rw [hmove.sources i hne fun h => ?_, hsources]
    obtain ⟨id, x, hsink, hfeeds⟩ := exists_sink_of_fed h
    exact hfed id x hsink.1 (hsinks ▸ hsink.2) hfeeds

end Sys2Proof.Machine

/-! PROOF. The statements of spec/70_reset_and_hazards.md: the turn of the host on the block in focus, issues, what an
operation neither reads nor changes, and each interaction of the host. -/

namespace Sys2Proof.Machine

/-! ### Turns of the host -/

/-- A turn of the host on the block in focus is its action, taken at any time but for an issue, which waits for the
block to be idle (70_reset_and_hazards.md R143, R153). -/
theorem step_of_hostTurn {s : State} {a : HostAction} {rest : List Turn} (ht : s.turns = .host s.cur a :: rest)
    (hw : (waitsForIdle a && s.blk.busy) = false) : step s = hostAct a { s with turns := rest } := by
  have hpop : s.popTurn = { s with turns := rest } := by rw [State.popTurn, ht, List.tail_cons]
  simp only [step, takeTurn, ht, focus_self, hw, Bool.false_eq_true, if_false, hpop]

/-- Settles O34: the write is the host's action of that turn, which never waits. -/
theorem hostWritesArgAnyTime : Obligations.HostWritesArgAnyTime :=
  fun _ _ _ ht => step_of_hostTurn ht rfl

/-- Settles O32: the reset is the host's action of that turn, which never waits. -/
theorem resetLeavesStreamsAlone : Obligations.ResetLeavesStreamsAlone :=
  fun s rest ht => ⟨resetBlock { s with turns := rest }, step_of_hostTurn ht rfl, rfl⟩

theorem hostRead_result_of_written {s : State} (h : s.blk.resultWritten = true) :
    hostRead .result s = .next (s.give (.result s.blk.result)) := if_pos h

theorem hostRead_result_of_unwritten {s : State} (h : s.blk.resultWritten = false) :
    hostRead .result s = .fault .resultUnwritten := if_neg (by simp [h])

/-- Settles O33: a read never waits, and only that of `RESULT` looks at whether the register is written. -/
theorem hostReadsRegisters : Obligations.HostReadsRegisters := fun _ _ =>
  ⟨fun ht => step_of_hostTurn ht rfl, fun ht => step_of_hostTurn ht rfl, fun ht => step_of_hostTurn ht rfl,
    fun ht => step_of_hostTurn ht rfl,
    fun ht hw => (step_of_hostTurn ht rfl).trans (hostRead_result_of_written hw),
    fun ht hw => (step_of_hostTurn ht rfl).trans (hostRead_result_of_unwritten hw)⟩

theorem hostFixPolicy_of_not_started {s : State} (h : s.blk.started = false) (p : OverlongPolicy) :
    hostFixPolicy p s = .next (s.onBlk fun b => { b with policy := p }) := if_neg (by simp [h])

theorem hostFixPolicy_of_started {s : State} (h : s.blk.started = true) (p : OverlongPolicy) :
    hostFixPolicy p s = .refused .policyChanged := if_pos h

/-- Settles O36: the change is tested against the mark of a started run. -/
theorem policyIsFixedBeforeFirstIssue : Obligations.PolicyIsFixedBeforeFirstIssue := by
  intro s p rest ht
  have hstep : step s = hostFixPolicy p { s with turns := rest } := step_of_hostTurn ht rfl
  rw [hstep]
  exact ⟨fun hs => hostFixPolicy_of_not_started (s := { s with turns := rest }) hs p,
    fun hs => hostFixPolicy_of_started (s := { s with turns := rest }) hs p⟩

/-! ### Issues and engines that wait -/

theorem issue_of_decode {c : Byte} {op : Instr} (hd : decode c = .ok op) (s : State) :
    issue c s = exec op (s.onBlk fun b => { b with started := true }) := by
  simp only [issue, hd]

/-- Settles O4: the turn of an enabled issue is the host's, and a legal word runs its operation. -/
theorem stepRunsIssuedCommand : Obligations.StepRunsIssuedCommand := by
  intro s c op rest ht hb hd
  have hstep : step s = issue c { s with turns := rest } := step_of_hostTurn ht (by rw [hb, Bool.and_false])
  exact hstep.trans (issue_of_decode hd _)

/-- Settles O8: the placed word is the issue of the next turn, to a block made ready for it. -/
theorem placedWordRunsNext : Obligations.PlacedWordRunsNext := by
  intro s w op hd
  have hreads : readsArg (BitVec.ofNat 8 (w % 2 ^ 8)) = isEncode op := by simp only [readsArg, hd]
  rw [stepRunsIssuedCommand (s.withFetchWord 8 w) _ op s.turns rfl rfl hd, ← hreads]
  rfl

/-- A block that is neither idle nor running `op` has no move for it (70_reset_and_hazards.md R143). -/
theorem exec_of_not_its_turn {op : Instr} {s : State} (hp : s.blk.phase ≠ .run op) (hi : ¬ s.Idle) :
    exec op s = .next s := by
  cases he : isEncode op with
  | true =>
    rcases exec_encode_cases (s := s) he with ⟨h, -⟩ | ⟨-, -, h⟩ | ⟨h, -⟩ | ⟨h, -⟩
    · exact absurd h hp
    · exact h
    · exact absurd h hi
    · exact absurd h hi
  | false =>
    rcases exec_decode_cases (s := s) he with ⟨h, -⟩ | ⟨-, -, h⟩ | ⟨h, -⟩ | ⟨h, -⟩
    · exact absurd h hp
    · exact h
    · exact absurd h hi
    · exact absurd h hi

/-- Settles O7: the engine of an idle block waits, and a busy block is not idle. -/
theorem nothingMovesWithoutItsTurn : Obligations.NothingMovesWithoutItsTurn := by
  refine ⟨fun s hi ht => ?_, fun s op hb hp => exec_of_not_its_turn hp fun hi => ?_⟩
  · simp only [step, takeTurn, ht]
    exact engineStep_idle hi.2
  · cases hb.symm.trans hi.1

/-! ### A decode and `ARG` -/

theorem byteStep_withArg (W : Nat) (oc : OverlongCombine W) (b : Byte) (x : Word64) (s : State) :
    byteStep W oc b (s.withArg x) = (byteStep W oc b s).withArg x := by
  unfold byteStep continuationStep
  have hbound : atBound W (s.withArg x).blk = atBound W s.blk := rfl
  rw [hbound]
  split_ifs <;> rfl

/-- A step of a decode in progress does not look at `ARG`. -/
theorem decodeStep_withArg {W : Nat} {oc : OverlongCombine W} {s t : State} (x : Word64)
    (h : decodeStep W oc s = .next t) : decodeStep W oc (s.withArg x) = .next (t.withArg x) := by
  rcases decodeStep_cases W oc s with ⟨hn, e⟩ | ⟨id, q, hq, ⟨hn, e⟩ | ⟨b, rest, hn, hb, e⟩ | ⟨hn, he, e⟩ |
    ⟨f, left, hn, e⟩⟩ <;> cases e.symm.trans h
  · exact decodeStep_unattached (s := s.withArg x) hn
  · exact decodeStep_wait (s := s.withArg x) hq hn
  · rw [decodeStep_byte (s := s.withArg x) hq hn hb, ← byteStep_withArg]
    rfl
  · exact decodeStep_eos (s := s.withArg x) hq hn he
  · exact decodeStep_fail (s := s.withArg x) hq hn

theorem acceptDecode_of_free {op : Instr} {s : State} (hs : sharesSource s = false) :
    acceptDecode op s = .next (s.onBlk (Block.decodeAccepted op)) := if_neg (by simp [hs])

/-- A decode takes the same transition whatever `ARG` holds (70_reset_and_hazards.md R146). -/
theorem exec_decode_withArg {op : Instr} {s t : State} (x : Word64) (he : isEncode op = false)
    (h : exec op s = .next t) : exec op (s.withArg x) = .next (t.withArg x) := by
  rcases exec_decode_cases (s := s) he with ⟨hp, e⟩ | ⟨hp, hi, e⟩ | ⟨hi, hs, e⟩ | ⟨-, e⟩
  · rw [exec_running_decode (s := s.withArg x) he hp]
    exact decodeStep_withArg x (e.symm.trans h)
  · cases e.symm.trans h
    exact exec_of_not_its_turn (s := s.withArg x) hp hi
  · cases e.symm.trans h
    rw [exec_decode_idle (s := s.withArg x) he hi]
    exact acceptDecode_of_free (s := s.withArg x) hs
  · cases e.symm.trans h

/-- Settles O29: acceptance of an encode loads `V`, and no other transition of an operation looks at `ARG`. -/
theorem argIsSampledOnce : Obligations.ArgIsSampledOnce := by
  refine ⟨fun s t op he hi h => ?_, fun s x rest _ ht => hostWritesArgAnyTime s x rest ht, fun s t op x hop h => ?_⟩
  · rw [exec_encode_of_idle he hi h]
    rfl
  · cases he : isEncode op with
    | false => exact exec_decode_withArg x he h
    | true =>
      obtain ⟨-, hp⟩ : s.Running op := hop.resolve_right (by simp [he])
      rw [exec_running_encode he hp] at h
      exact (exec_running_encode (s := s.withArg x) he hp).trans (encodeStep_withArg x h)

/-! ### What stays fixed -/

theorem encoding_of_run {b : Block} {op : Instr} (hp : b.phase = .run op) : encoding b = isEncode op := by
  simp only [encoding, hp]

theorem decoding_of_run {b : Block} {op : Instr} (hp : b.phase = .run op) : decoding b = !isEncode op := by
  simp only [decoding, hp]

/-- The policy of a started run and the stream of an operation in progress, from `b` to `b'`
(70_reset_and_hazards.md R142, R147). -/
structure Block.StaysFixed (b b' : Block) : Prop where
  started : b.started = true → b'.started = true
  policy : b.started = true → b'.policy = b.policy
  sink : encoding b = true → encoding b' = true → b'.sink = b.sink
  source : decoding b = true → decoding b' = true → b'.source = b.source

theorem Block.StaysFixed.of_same {b b' : Block} (hstarted : b'.started = b.started) (hpolicy : b'.policy = b.policy)
    (hsink : b'.sink = b.sink) (hsource : b'.source = b.source) : b.StaysFixed b' :=
  ⟨fun h => hstarted.trans h, fun _ => hpolicy, fun _ _ => hsink, fun _ _ => hsource⟩

theorem Block.staysFixed_afterReset (b : Block) : b.StaysFixed b.afterReset :=
  ⟨id, fun _ => rfl, nofun, nofun⟩

/-- The sink may be replaced while no encode goes on. -/
theorem Block.staysFixed_withSink {b : Block} (h : encoding b = false) (id : Option Nat) :
    b.StaysFixed { b with sink := id } :=
  ⟨fun hs => hs, fun _ => rfl, fun he => absurd he (by simp [h]), fun _ _ => rfl⟩

/-- The source may be replaced while no decode goes on. -/
theorem Block.staysFixed_withSource {b : Block} (h : decoding b = false) (id : Option Nat) :
    b.StaysFixed { b with source := id } :=
  ⟨fun hs => hs, fun _ => rfl, fun _ _ => rfl, fun hd => absurd hd (by simp [h])⟩

/-- The policy may be fixed while the run has not started. -/
theorem Block.staysFixed_withPolicy {b : Block} (h : b.started = false) (p : OverlongPolicy) :
    b.StaysFixed { b with policy := p } :=
  ⟨fun hs => hs, fun hs => absurd hs (by simp [h]), fun _ _ => rfl, fun _ _ => rfl⟩

/-- The mark of an issue changes nothing else. -/
theorem Block.StaysFixed.of_started {b b' : Block} (h : { b with started := true }.StaysFixed b') : b.StaysFixed b' :=
  ⟨fun _ => h.started rfl, fun _ => h.policy rfl, h.sink, h.source⟩

theorem exec_staysFixed {op : Instr} {s t : State} (hx : exec op s = .next t) : s.blk.StaysFixed t.blk := by
  obtain ⟨-, -, -, -, hkeep⟩ := exec_keeps hx
  exact .of_same hkeep.started hkeep.policy hkeep.sink hkeep.source

/-- No host action changes the policy of a started run or the stream of an operation that goes on. -/
theorem hostAct_staysFixed {a : HostAction} {s t : State} (hx : hostAct a s = .next t) : s.blk.StaysFixed t.blk := by
  obtain ⟨-, -, -, ⟨x, -, e, -⟩ | ⟨c, op, -, -, hx⟩ | ⟨c, -, e, -⟩ | ⟨r, -, e, -⟩ | ⟨id, -, -, hfree, e, -⟩ |
    ⟨id, -, -, hfree, e, -⟩ | ⟨-, hfree, e, -⟩ | ⟨-, hfree, e, -⟩ | ⟨p, -, hfirst, e, -⟩ | ⟨-, e, -⟩⟩ :=
    hostAct_cases hx
  on_goal 2 => exact .of_started (exec_staysFixed hx)
  all_goals rw [e]
  · exact .of_same rfl rfl rfl rfl
  · exact .of_started (.of_same rfl rfl rfl rfl)
  · exact .of_same rfl rfl rfl rfl
  · exact Block.staysFixed_withSink hfree _
  · exact Block.staysFixed_withSource hfree _
  · exact Block.staysFixed_withSink hfree _
  · exact Block.staysFixed_withSource hfree _
  · exact Block.staysFixed_withPolicy hfirst p
  · exact s.blk.staysFixed_afterReset

theorem step_staysFixed {s t : State} {k : Nat} {b b' : Block} (hi : s.Inv) (hx : step s = .next t)
    (hb : s.blockAt k = some b) (hb' : t.blockAt k = some b') : b.StaysFixed b' := by
  rcases step_block hx hi hb hb' with rfl | ⟨m, rfl, rfl, ⟨op, hx⟩ | ⟨a, rest, -, hx⟩⟩
  · exact .of_same rfl rfl rfl rfl
  · exact exec_staysFixed hx
  · exact hostAct_staysFixed hx

/-- Settles O31: `step_staysFixed`, with the kind of the operation naming the stream in use. -/
theorem streamsAndPolicyStayFixed : Obligations.StreamsAndPolicyStayFixed := by
  intro s t k b b' hi hx hb hb'
  have hfixed := step_staysFixed hi hx hb hb'
  refine ⟨fun h => ⟨hfixed.started h, hfixed.policy h⟩, fun op hp hp' => ⟨fun he => ?_, fun hd => ?_⟩⟩
  · exact hfixed.sink ((encoding_of_run hp).trans he) ((encoding_of_run hp').trans he)
  · have hdec {b : Block} (hp : b.phase = .run op) : decoding b = true := by rw [decoding_of_run hp, hd, Bool.not_false]
    exact hfixed.source (hdec hp) (hdec hp')

/-! ### Attachment -/

theorem encoding_of_idle {b : Block} (hp : b.phase = .idle) : encoding b = false := by
  simp only [encoding, hp]

theorem decoding_of_idle {b : Block} (hp : b.phase = .idle) : decoding b = false := by
  simp only [decoding, hp]

section
variable {s : State}

/-- An encode in progress uses the sink (70_reset_and_hazards.md R147). -/
theorem State.encoding_of_encode (h : s.Running .enc32 ∨ s.Running .enc64) : encoding s.blk = true := by
  rcases h with h | h <;> exact encoding_of_run h.2

/-- The sink is free on an idle block and on one that decodes. -/
theorem State.not_encoding (h : s.Idle ∨ s.Running .dec32 ∨ s.Running .dec64) : encoding s.blk = false := by
  rcases h with h | h | h
  · exact encoding_of_idle h.2
  · exact encoding_of_run h.2
  · exact encoding_of_run h.2

/-- A decode in progress uses the source (70_reset_and_hazards.md R147). -/
theorem State.decoding_of_decode (h : s.Running .dec32 ∨ s.Running .dec64) : decoding s.blk = true := by
  rcases h with h | h <;> exact decoding_of_run h.2

/-- The source is free on an idle block and on one that encodes. -/
theorem State.not_decoding (h : s.Idle ∨ s.Running .enc32 ∨ s.Running .enc64) : decoding s.blk = false := by
  rcases h with h | h | h
  · exact decoding_of_idle h.2
  · exact decoding_of_run h.2
  · exact decoding_of_run h.2

variable {id : Nat}

theorem hostAttachSink_missing (h : s.sinks.length ≤ id) : hostAttachSink id s = .refused .noSuchStream := if_pos h

theorem hostAttachSink_swapped (h : id < s.sinks.length) (he : encoding s.blk = true) :
    hostAttachSink id s = .refused .streamSwapped := by
  rw [hostAttachSink, if_neg h.not_ge, if_pos he]

/-- Where the sink of this block is free, only another block's operation can be in the way (20_memory.md R52). -/
theorem hostAttachSink_of_free (h : id < s.sinks.length) (he : encoding s.blk = false) :
    hostAttachSink id s = if sinkUsedElsewhere id s then .refused .streamShared
      else .next (s.onBlk fun b => { b with sink := some id }) := by
  rw [hostAttachSink, if_neg h.not_ge, he, if_neg Bool.false_ne_true]

theorem hostAttachSource_missing (h : s.sources.length ≤ id) : hostAttachSource id s = .refused .noSuchStream :=
  if_pos h

theorem hostAttachSource_swapped (h : id < s.sources.length) (hd : decoding s.blk = true) :
    hostAttachSource id s = .refused .streamSwapped := by
  rw [hostAttachSource, if_neg h.not_ge, if_pos hd]

/-- Where the source of this block is free, only another block's operation can be in the way (20_memory.md R52). -/
theorem hostAttachSource_of_free (h : id < s.sources.length) (hd : decoding s.blk = false) :
    hostAttachSource id s = if sourceUsedElsewhere id s then .refused .streamShared
      else .next (s.onBlk fun b => { b with source := some id }) := by
  rw [hostAttachSource, if_neg h.not_ge, hd, if_neg Bool.false_ne_true]

theorem hostDetachSink_in_use (he : encoding s.blk = true) : hostDetachSink s = .refused .streamDetached := if_pos he

theorem hostDetachSink_of_free (he : encoding s.blk = false) :
    hostDetachSink s = .next (s.onBlk fun b => { b with sink := none }) := if_neg (by simp [he])

theorem hostDetachSource_in_use (hd : decoding s.blk = true) : hostDetachSource s = .refused .streamDetached :=
  if_pos hd

theorem hostDetachSource_of_free (hd : decoding s.blk = false) :
    hostDetachSource s = .next (s.onBlk fun b => { b with source := none }) := if_neg (by simp [hd])

end

/-- Settles O35: each clause decides the tests of its action, in their order (log 14). -/
theorem attachmentRules : Obligations.AttachmentRules := by
  intro s id rest
  refine ⟨fun ht => ?_, fun ht => ?_, fun ht => ?_, fun ht => ?_⟩
  · have hstep : step s = hostAttachSink id { s with turns := rest } := step_of_hostTurn ht rfl
    rw [hstep]
    refine ⟨fun hm => hostAttachSink_missing hm,
      fun hl hr => hostAttachSink_swapped hl (State.encoding_of_encode hr), fun hl hf => ?_⟩
    rw [hostAttachSink_of_free (s := { s with turns := rest }) hl (State.not_encoding hf)]
    exact ⟨fun hu => if_neg (ne_true_of_eq_false hu), fun hu => if_pos hu⟩
  · have hstep : step s = hostAttachSource id { s with turns := rest } := step_of_hostTurn ht rfl
    rw [hstep]
    refine ⟨fun hm => hostAttachSource_missing hm,
      fun hl hr => hostAttachSource_swapped hl (State.decoding_of_decode hr), fun hl hf => ?_⟩
    rw [hostAttachSource_of_free (s := { s with turns := rest }) hl (State.not_decoding hf)]
    exact ⟨fun hu => if_neg (ne_true_of_eq_false hu), fun hu => if_pos hu⟩
  · have hstep : step s = hostDetachSink { s with turns := rest } := step_of_hostTurn ht rfl
    rw [hstep]
    exact ⟨fun hr => hostDetachSink_in_use (State.encoding_of_encode hr),
      fun hf => hostDetachSink_of_free (State.not_encoding hf)⟩
  · have hstep : step s = hostDetachSource { s with turns := rest } := step_of_hostTurn ht rfl
    rw [hstep]
    exact ⟨fun hr => hostDetachSource_in_use (State.decoding_of_decode hr),
      fun hf => hostDetachSource_of_free (State.not_decoding hf)⟩

end Sys2Proof.Machine
